-- ==== Sys2Proof/Word.lean ====
section
/-! DEFINITION. The words that cross the block's ports, R90 and R92 (30_encoding.md), and the two units, R30 (10_state.md). -/

namespace Sys2Proof

/-- A command word: "every command is one 64-bit word" (R90). -/
abbrev CmdWord := BitVec 64

/-- A response word, format `RSP`, 64 bits (R92). -/
abbrev RspWord := BitVec 64

/-- The RESULT field of a response, bits [31:0] (R92). -/
abbrev Result := BitVec 32

/-- The two units of a block, which share no state (R30): `henc` counts and codes, `hdec` decodes. -/
inductive UnitId where
  | henc
  | hdec
  deriving DecidableEq, Repr

end Sys2Proof
end

