-- ==== Sys2Proof/Config.lean ====
section
/-! DEFINITION. What one block instance fixes (R6, R7), and the values the spec leaves open: opaque constants, of which no proof can see
a value. -/

namespace Sys2Proof

/-- What is "fixed per block instance" (R6). `maxCodeBits` is the construction parameter `MAX_CODE_BITS`, "integer 1..32, default 32", one
value for both units (R7, D8); it carries its own bounds, so that no statement has to assume them. `inst` is the model's own label of the
block (log 16): it selects this block's collaborators and free values, so that two blocks need not agree on them. No command reads it. -/
structure Params where
  maxCodeBits : Nat
  pos : 1 ≤ maxCodeBits
  le32 : maxCodeBits ≤ 32
  inst : Nat
  deriving DecidableEq, Repr

/-- The default of R6: `MAX_CODE_BITS = 32`. The label is 0 (log 16). -/
def Params.default : Params := ⟨32, by decide, by decide, 0⟩

/-- `MAX_ENTRY_CNT`, the largest alphabet either unit accepts (R6, D9). -/
def Config.maxEntryCnt : Nat := 65536

/-- What follows the last bit of a bit source: an empty list "answers `EOS`" (R176), or the collaborator never answers again and "the block
waits for ever" (R176, I19). -/
inductive StreamEnd where
  | eos
  | silent
  deriving DecidableEq, Repr, Inhabited

/-- The bit-I/O collaborator's stream: "the bit source is a list of bits" (R176). `consumed` counts the bits taken so far, so that an align
request may depend on the stream position (R177, program P5). -/
structure BitSource where
  consumed : Nat
  bits : List Bool
  ending : StreamEnd
  deriving DecidableEq, Repr, Inhabited

/-- One access of a host bus: "which byte address holds which bits, one access or two" is the platform's (R75). The byte of the lowest address
stands first. -/
structure BusAccess where
  address : Nat
  bytes : List (BitVec 8)
  deriving DecidableEq, Repr, Inhabited

/-- Names of the registers and tables that reset and EXIT leave unspecified (R124, R175, R251). -/
inductive Reg where
  | encE | encK | freqCode | codeSize | eCount | encMaxLen | encNz | eNextCode
  | decM | dLen | dCode | dCount | decMaxLen | first | offset | sortedSym
  deriving DecidableEq, Repr

/-- FREE VALUE (log 7): what register `r`, of width `w`, holds in block `inst` once it has become unspecified, at the
`n`-th draw. -/
opaque Config.freeBits (inst : Nat) (r : Reg) (w n : Nat) : BitVec w

/-- FREE VALUE (log 7): what table `r`, of entry width `w`, holds in block `inst` once it has become unspecified, at
the `n`-th draw. -/
opaque Config.freeTable (inst : Nat) (r : Reg) (w n : Nat) : List (BitVec w)

/-- FREE VALUE (log 8): the work storage of block `inst`, which "holds no architected value between commands" (R42), at the `n`-th draw. -/
opaque Config.freeWork (inst n : Nat) : List Nat

/-- FREE VALUE (log 3): the arena's answer to request number `n` of block `inst`, where State lists none: "the grant or deny is a free input (a draw)"
(R72, D11). `true` is GRANT. -/
opaque Config.arenaGrant (inst n : Nat) : Bool

/-- FREE VALUE (log 5): the OPEN parameter `ALIGN : BitSource -> BitSource` of the bit-I/O collaborator of block `inst`, fixed per block instance
(R6, R177, D26, I10). -/
opaque Config.align (inst : Nat) : BitSource → BitSource

/-- FREE VALUE (log 17): the OPEN parameter `HOST_BUS_MAPPING` of block `inst` on its command port (R6, R75, R81): the command words that a
sequence of bus accesses has delivered, each "whole and in one piece". -/
opaque Config.busCommands (inst : Nat) : List BusAccess → List CmdWord

/-- FREE VALUE (log 17): `HOST_BUS_MAPPING` of block `inst` on its response port (R6, R75, R81): the bus accesses that carry a sequence of
response words. -/
opaque Config.busResponses (inst : Nat) : List RspWord → List BusAccess

end Sys2Proof
end

