-- ==== Sys2Proof/Syntax.lean ====
section
/-! DEFINITION. The block's commands: one constructor per row of spec/opcode_table.json (R95), with the operands of R94. -/

namespace Sys2Proof

/-- A command. An operand is "taken as an unsigned integer", never truncated (R93): a natural number, whose bound is `Instr.wellFormed`. -/
inductive Instr where
  /-- `ENC.INIT alphabetSize, maxCodeLen` (R121). -/
  | encInit (alphabetSize maxCodeLen : Nat)
  /-- `ENC.COUNT symbol, n` (R122). -/
  | encCount (symbol n : Nat)
  /-- `ENC.CREATE` (R123). -/
  | encCreate
  /-- `ENC.EXIT` (R124). -/
  | encExit
  /-- `ENC.RDFC symbol` (R125). -/
  | encRdfc (symbol : Nat)
  /-- `ENC.RDLEN symbol` (R126). -/
  | encRdlen (symbol : Nat)
  /-- `ENC.RDCNT L` (R127). -/
  | encRdcnt (len : Nat)
  /-- `ENC.RDMAXLEN` (R128). -/
  | encRdmaxlen
  /-- `ENC.RDNZ` (R129). -/
  | encRdnz
  /-- `DEC.INIT maxSymbol` (R170). -/
  | decInit (maxSymbol : Nat)
  /-- `DEC.SETLEN symbol, length` (R171). -/
  | decSetlen (symbol len : Nat)
  /-- `DEC.RECON` (R172). -/
  | decRecon
  /-- `DEC.RDSYM` (R173). -/
  | decRdsym
  /-- `DEC.SYNC` (R174). -/
  | decSync
  /-- `DEC.EXIT` (R175). -/
  | decExit
  /-- `DEC.RDLEN symbol` (R178). -/
  | decRdlen (symbol : Nat)
  /-- `DEC.RDCODE symbol` (R179). -/
  | decRdcode (symbol : Nat)
  /-- `DEC.RDCNT L` (R180). -/
  | decRdcnt (len : Nat)
  /-- `DEC.RDMAXLEN` (R181). -/
  | decRdmaxlen
  /-- `DEC.RDFIRST L` (R182). -/
  | decRdfirst (len : Nat)
  /-- `DEC.RDOFFSET L` (R183). -/
  | decRdoffset (len : Nat)
  deriving DecidableEq, Repr

end Sys2Proof
end

