-- ==== Sys2Proof/WellFormed.lean ====
section
/-! DEFINITION. When a command spells a word: every operand fits its field (R91 "with `A < 2^24` and `B < 2^32`", R98). -/

namespace Sys2Proof

/-- Operand fits field `A`, 24 bits (R91). -/
def fitsA (a : Nat) : Bool := decide (a < 2 ^ 24)

/-- Operand fits field `B`, 32 bits (R91). -/
def fitsB (b : Nat) : Bool := decide (b < 2 ^ 32)

/-- "An operand that does not fit its field (`A >= 2^24` or `B >= 2^32`) is an assembly error: it spells no word" (R98). -/
def Instr.wellFormed : Instr → Bool
  | .encInit e k => fitsA e && fitsB k
  | .encCount s n => fitsA s && fitsB n
  | .encCreate => true
  | .encExit => true
  | .encRdfc s => fitsA s
  | .encRdlen s => fitsA s
  | .encRdcnt l => fitsA l
  | .encRdmaxlen => true
  | .encRdnz => true
  | .decInit m => fitsA m
  | .decSetlen s l => fitsA s && fitsB l
  | .decRecon => true
  | .decRdsym => true
  | .decSync => true
  | .decExit => true
  | .decRdlen s => fitsA s
  | .decRdcode s => fitsA s
  | .decRdcnt l => fitsA l
  | .decRdmaxlen => true
  | .decRdfirst l => fitsA l
  | .decRdoffset l => fitsA l

end Sys2Proof
end

