-- ==== Sys2Proof/Decode.lean ====
section
/-! DEFINITION. Decoding a command word, total and rejecting by name (R91, R93 to R97), then the encoder written from the same tables. -/

namespace Sys2Proof

/-- Field `OP`, bits [7:0] (R91). -/
def fieldOp (w : CmdWord) : BitVec 8 := w.extractLsb' 0 8

/-- Field `A`, bits [31:8] (R91). -/
def fieldA (w : CmdWord) : BitVec 24 := w.extractLsb' 8 24

/-- Field `B`, bits [63:32] (R91). -/
def fieldB (w : CmdWord) : BitVec 32 := w.extractLsb' 32 32

/-- Why a word is illegal (R96): its `OP` is not in the table of R95, or a field that R94 marks MBZ is nonzero. -/
inductive IllegalWord where
  | unknownOp (op : Nat)
  | nonzeroA
  | nonzeroB
  deriving DecidableEq, Repr

/-- Both fields MBZ (R94). -/
def noOperands (a b : Nat) (i : Instr) : Except IllegalWord Instr :=
  if a ≠ 0 then .error .nonzeroA else if b ≠ 0 then .error .nonzeroB else .ok i

/-- `A` an operand, `B` MBZ (R94). -/
def onlyA (b : Nat) (i : Instr) : Except IllegalWord Instr :=
  if b ≠ 0 then .error .nonzeroB else .ok i

/-- "Every 64-bit word is either one row of rule R95 with its fields, or illegal by rule R96" (R97). -/
def decode (w : CmdWord) : Except IllegalWord Instr :=
  let a := (fieldA w).toNat
  let b := (fieldB w).toNat
  match (fieldOp w).toNat with
  | 0x10 => .ok (.encInit a b)
  | 0x11 => .ok (.encCount a b)
  | 0x12 => noOperands a b .encCreate
  | 0x13 => noOperands a b .encExit
  | 0x14 => onlyA b (.encRdfc a)
  | 0x15 => onlyA b (.encRdlen a)
  | 0x16 => onlyA b (.encRdcnt a)
  | 0x17 => noOperands a b .encRdmaxlen
  | 0x18 => noOperands a b .encRdnz
  | 0x20 => onlyA b (.decInit a)
  | 0x21 => .ok (.decSetlen a b)
  | 0x22 => noOperands a b .decRecon
  | 0x23 => noOperands a b .decRdsym
  | 0x24 => noOperands a b .decSync
  | 0x25 => noOperands a b .decExit
  | 0x26 => onlyA b (.decRdlen a)
  | 0x27 => onlyA b (.decRdcode a)
  | 0x28 => onlyA b (.decRdcnt a)
  | 0x29 => noOperands a b .decRdmaxlen
  | 0x2A => onlyA b (.decRdfirst a)
  | 0x2B => onlyA b (.decRdoffset a)
  | op => .error (.unknownOp op)

/-- The host's numbering of a table row's bits: one 64-bit word, bit 0 the least significant (R9, R90). Bits from `nbits` up are 0. -/
def decodeTableWord (nbits w : Nat) : Option Instr :=
  match decode (BitVec.ofNat 64 (w % 2 ^ nbits)) with
  | .ok i => some i
  | .error _ => none

/-- The opcode of each command (R95). -/
def Instr.opcode : Instr → BitVec 8
  | .encInit _ _ => 0x10
  | .encCount _ _ => 0x11
  | .encCreate => 0x12
  | .encExit => 0x13
  | .encRdfc _ => 0x14
  | .encRdlen _ => 0x15
  | .encRdcnt _ => 0x16
  | .encRdmaxlen => 0x17
  | .encRdnz => 0x18
  | .decInit _ => 0x20
  | .decSetlen _ _ => 0x21
  | .decRecon => 0x22
  | .decRdsym => 0x23
  | .decSync => 0x24
  | .decExit => 0x25
  | .decRdlen _ => 0x26
  | .decRdcode _ => 0x27
  | .decRdcnt _ => 0x28
  | .decRdmaxlen => 0x29
  | .decRdfirst _ => 0x2A
  | .decRdoffset _ => 0x2B

/-- What field `A` of each command holds, 0 where it is MBZ (R94). -/
def Instr.operandA : Instr → Nat
  | .encInit e _ => e
  | .encCount s _ => s
  | .encCreate => 0
  | .encExit => 0
  | .encRdfc s => s
  | .encRdlen s => s
  | .encRdcnt l => l
  | .encRdmaxlen => 0
  | .encRdnz => 0
  | .decInit m => m
  | .decSetlen s _ => s
  | .decRecon => 0
  | .decRdsym => 0
  | .decSync => 0
  | .decExit => 0
  | .decRdlen s => s
  | .decRdcode s => s
  | .decRdcnt l => l
  | .decRdmaxlen => 0
  | .decRdfirst l => l
  | .decRdoffset l => l

/-- What field `B` of each command holds, 0 where it is MBZ (R94). -/
def Instr.operandB : Instr → Nat
  | .encInit _ k => k
  | .encCount _ n => n
  | .encCreate => 0
  | .encExit => 0
  | .encRdfc _ => 0
  | .encRdlen _ => 0
  | .encRdcnt _ => 0
  | .encRdmaxlen => 0
  | .encRdnz => 0
  | .decInit _ => 0
  | .decSetlen _ l => l
  | .decRecon => 0
  | .decRdsym => 0
  | .decSync => 0
  | .decExit => 0
  | .decRdlen _ => 0
  | .decRdcode _ => 0
  | .decRdcnt _ => 0
  | .decRdmaxlen => 0
  | .decRdfirst _ => 0
  | .decRdoffset _ => 0

/-- The three fields laid out in one word, `B` most significant (R91). -/
def cmdWord (op : BitVec 8) (a b : Nat) : CmdWord :=
  BitVec.ofNat 32 b ++ (BitVec.ofNat 24 a ++ op)

/-- The word of a well-formed command (R91, R94, R95). -/
def encode (i : Instr) : CmdWord := cmdWord i.opcode i.operandA i.operandB

/-- The mnemonic of each command (R95), as spec/opcode_table.json spells it. -/
def Instr.mnemonic : Instr → String
  | .encInit _ _ => "ENC.INIT"
  | .encCount _ _ => "ENC.COUNT"
  | .encCreate => "ENC.CREATE"
  | .encExit => "ENC.EXIT"
  | .encRdfc _ => "ENC.RDFC"
  | .encRdlen _ => "ENC.RDLEN"
  | .encRdcnt _ => "ENC.RDCNT"
  | .encRdmaxlen => "ENC.RDMAXLEN"
  | .encRdnz => "ENC.RDNZ"
  | .decInit _ => "DEC.INIT"
  | .decSetlen _ _ => "DEC.SETLEN"
  | .decRecon => "DEC.RECON"
  | .decRdsym => "DEC.RDSYM"
  | .decSync => "DEC.SYNC"
  | .decExit => "DEC.EXIT"
  | .decRdlen _ => "DEC.RDLEN"
  | .decRdcode _ => "DEC.RDCODE"
  | .decRdcnt _ => "DEC.RDCNT"
  | .decRdmaxlen => "DEC.RDMAXLEN"
  | .decRdfirst _ => "DEC.RDFIRST"
  | .decRdoffset _ => "DEC.RDOFFSET"

/-- One row of the opcode table as match and mask (R95). -/
structure OpRow where
  mnemonic : String
  pattern : CmdWord
  mask : CmdWord
  deriving DecidableEq, Repr

/-- Mask of a command whose `A` and `B` are both operands (R95). -/
def maskAB : CmdWord := 0x00000000000000FF

/-- Mask of a command with `A` as operand and `B` MBZ (R95). -/
def maskA : CmdWord := 0xFFFFFFFF000000FF

/-- Mask of a command with both MBZ (R95). -/
def maskNone : CmdWord := 0xFFFFFFFFFFFFFFFF

/-- The match and mask listing of R95, in the table's order. -/
def opcodeTable : List OpRow :=
  [⟨"ENC.INIT", 0x10, maskAB⟩, ⟨"ENC.COUNT", 0x11, maskAB⟩, ⟨"ENC.CREATE", 0x12, maskNone⟩,
   ⟨"ENC.EXIT", 0x13, maskNone⟩, ⟨"ENC.RDFC", 0x14, maskA⟩, ⟨"ENC.RDLEN", 0x15, maskA⟩,
   ⟨"ENC.RDCNT", 0x16, maskA⟩, ⟨"ENC.RDMAXLEN", 0x17, maskNone⟩, ⟨"ENC.RDNZ", 0x18, maskNone⟩] ++
  [⟨"DEC.INIT", 0x20, maskA⟩, ⟨"DEC.SETLEN", 0x21, maskAB⟩, ⟨"DEC.RECON", 0x22, maskNone⟩,
   ⟨"DEC.RDSYM", 0x23, maskNone⟩, ⟨"DEC.SYNC", 0x24, maskNone⟩, ⟨"DEC.EXIT", 0x25, maskNone⟩] ++
  [⟨"DEC.RDLEN", 0x26, maskA⟩, ⟨"DEC.RDCODE", 0x27, maskA⟩, ⟨"DEC.RDCNT", 0x28, maskA⟩,
   ⟨"DEC.RDMAXLEN", 0x29, maskNone⟩, ⟨"DEC.RDFIRST", 0x2A, maskA⟩, ⟨"DEC.RDOFFSET", 0x2B, maskA⟩]

/-- A word matches a row: it agrees with the row's pattern on the row's mask (R95). -/
def OpRow.matchesWord (r : OpRow) (w : CmdWord) : Bool := w &&& r.mask == r.pattern

end Sys2Proof
end

