-- ==== Sys2Proof/Machine/State.lean ====
section
/-! DEFINITION. The state of one block instance (10_state.md), with the environment's side of its four ports (R30, R51), as plain data;
the reasons a step can stop; and the machine after reset. -/

namespace Sys2Proof.Machine

/-- `ENC_STATE` (R33): RELEASED, COUNTING, CODED. -/
inductive EncState where
  | released
  | counting
  | coded
  deriving DecidableEq, Repr

/-- `DEC_STATE` (R43): RELEASED, LENGTHS, READY, FAILED. -/
inductive DecState where
  | released
  | lengths
  | ready
  | failed
  deriving DecidableEq, Repr

/-- What an arena buffer is for: the five of the encoder and the three of the decoder (R72). -/
inductive BufferUse where
  | freqCode | codeSize | work | eCount | eNextCode
  | dLenCode | sortedSym | stepTable
  deriving DecidableEq, Repr

/-- One buffer of an arena request: its use and its entry count, already "rounded up to a power of two" (R72). -/
structure Buffer where
  use : BufferUse
  entries : Nat
  deriving DecidableEq, Repr

/-- The encoder unit HENC (R33 to R42). A per-symbol table lists symbol 0 first, a per-length table lists length 1 first. -/
structure Encoder where
  /-- `ENC_STATE` (R33). -/
  state : EncState
  /-- `ENC_E`, 17 bits (R34). -/
  e : BitVec 17
  /-- `ENC_K`, 6 bits (R35). -/
  k : BitVec 6
  /-- `FreqCode[0..ENC_E-1]`, 32 bits per entry: one field for the frequency and then the code (R36). -/
  freqCode : List (BitVec 32)
  /-- `CodeSize[0..ENC_E-1]`, 6 bits per entry (R37). -/
  codeSize : List (BitVec 6)
  /-- `ECount[1..MAX_CODE_BITS]`, 17 bits per entry (R38). -/
  eCount : List (BitVec 17)
  /-- `ENC_MAXLEN`, 6 bits (R39). -/
  maxLen : BitVec 6
  /-- `ENC_NZ`, 17 bits (R40). -/
  nz : BitVec 17
  /-- `ENextCode[1..MAX_CODE_BITS]`, 33 bits per entry, hidden (R41). -/
  nextCode : List (BitVec 33)
  /-- Work storage, hidden, of implementation-defined width (R42). -/
  work : List Nat
  /-- The arena buffers the unit owns (R72, R73). -/
  buffers : List Buffer
  deriving DecidableEq, Repr

/-- The decoder unit HDEC (R43 to R50), tables as in `Encoder`. -/
structure Decoder where
  /-- `DEC_STATE` (R43). -/
  state : DecState
  /-- `DEC_M`, 16 bits (R44). -/
  m : BitVec 16
  /-- `DLen[0..DEC_M]`, 6 bits per entry (R45). -/
  dLen : List (BitVec 6)
  /-- `DCode[0..DEC_M]`, 32 bits per entry (R46). -/
  dCode : List (BitVec 32)
  /-- `DCount[1..MAX_CODE_BITS]`, 17 bits per entry (R47). -/
  dCount : List (BitVec 17)
  /-- `DEC_MAXLEN`, 6 bits (R48). -/
  maxLen : BitVec 6
  /-- `First[1..MAX_CODE_BITS]`, 33 bits per entry (R49). -/
  first : List (BitVec 33)
  /-- `Offset[1..MAX_CODE_BITS]`, 17 bits per entry (R49). -/
  offset : List (BitVec 17)
  /-- `SortedSym[0..n-1]`, 16 bits per entry, hidden (R50). -/
  sortedSym : List (BitVec 16)
  /-- The arena buffers the unit owns (R72, R73). -/
  buffers : List Buffer
  deriving DecidableEq, Repr

/-- What the host does next (R30, R32): issue a command word, assert the block's reset input between commands (R250), or assert it inside
a command, once `requests` of that command's requests to the collaborators have been answered (R253). -/
inductive HostEvent where
  | command (w : CmdWord)
  | reset
  | resetDuring (w : CmdWord) (requests : Nat)
  deriving DecidableEq, Repr

/-- The answer to one bit read: `0`, `1` or `EOS` (R176). -/
inductive BitAnswer where
  | bit (b : Bool)
  | eos
  deriving DecidableEq, Repr

/-- One event on the block's ports: "the sequence of responses together with the sequence of arena and bit-I/O requests" (R83), a request
with the answer it got. -/
inductive PortEvent where
  | response (w : RspWord)
  | arenaRequest (unit : UnitId) (buffers : List Buffer) (granted : Bool)
  | arenaRelease (unit : UnitId) (buffers : List Buffer)
  | bitRead (answer : BitAnswer)
  | bitAlign
  deriving DecidableEq, Repr

/-- The arena as the block sees it: its coming answers (`true` is GRANT), and how many it has given (R72, D11). -/
structure Arena where
  answers : List Bool
  given : Nat
  deriving DecidableEq, Repr

/-- One block instance and its surroundings. `params`, `enc` and `dec` are the block; `host`, `arena` and `bitIO` are what its
collaborators will do; `trace` is what it has sent, oldest first; `draws` counts the free values drawn. -/
structure State where
  params : Params
  enc : Encoder
  dec : Decoder
  host : List HostEvent
  arena : Arena
  bitIO : BitSource
  trace : List PortEvent
  draws : Nat
  deriving DecidableEq, Repr

/-- Why the machine stops. -/
inductive Fault where
  /-- Raised by `DEC.RDSYM` alone, when the bit-I/O collaborator never answers a read: "the block waits for ever" (R176, I19 "stuck").
  Safe: the machine stops where the hardware has no further step of its own. -/
  | bitReadNeverAnswered
  deriving DecidableEq, Repr

/-- Why the machine gives a command no meaning. -/
inductive Refusal where
  /-- Raised only by an arm of `exec` whose command has no meaning yet; there is none. Safe: the machine stops. -/
  | notModelled (mnemonic : String)
  deriving DecidableEq, Repr

/-- HENC after reset: RELEASED (R33, R250). Every other register is unspecified in the spec (R251); the values named here are the model's
(DESIGN CHOICE, log 6). -/
def Encoder.reset : Encoder where
  state := .released
  e := 0
  k := 0
  freqCode := []
  codeSize := []
  eCount := []
  maxLen := 0
  nz := 0
  nextCode := []
  work := []
  buffers := []

/-- HDEC after reset: RELEASED (R43, R250). Every other register is unspecified in the spec (R251); the values named here are the model's
(DESIGN CHOICE, log 6). -/
def Decoder.reset : Decoder where
  state := .released
  m := 0
  dLen := []
  dCode := []
  dCount := []
  maxLen := 0
  first := []
  offset := []
  sortedSym := []
  buffers := []

/-- The machine right after reset (R250 to R252), with the default parameter of R6 and nothing yet from the outside world. -/
def State.reset : State where
  params := Params.default
  enc := Encoder.reset
  dec := Decoder.reset
  host := []
  arena := ⟨[], 0⟩
  bitIO := ⟨0, [], .eos⟩
  trace := []
  draws := 0

end Sys2Proof.Machine
end

