-- ==== Sys2Proof/Machine/Flags.lean ====
section
/-! DEFINITION. The block has no flags register (R30). What it computes in their place: status codes (R220), the response word (R92), and
the 2-bit encodings of the unit states (R33, R43). -/

namespace Sys2Proof.Machine

/-- The eight status codes of R220. "Codes 8 to 15 are never returned". -/
inductive Status where
  | ok
  | outOfMemory
  | invalidConfiguration
  | streamCorruption
  | invalidCodeLengths
  | sequenceError
  | invalidArgument
  | illegalCommand
  deriving DecidableEq, Repr

/-- The numbers of R220. -/
def Status.code : Status → BitVec 4
  | .ok => 0
  | .outOfMemory => 1
  | .invalidConfiguration => 2
  | .streamCorruption => 3
  | .invalidCodeLengths => 4
  | .sequenceError => 5
  | .invalidArgument => 6
  | .illegalCommand => 7

/-- The response word: RESULT in [31:0], STATUS in [35:32], zero in [63:36] (R92). -/
def rspWord (st : Status) (result : Result) : RspWord :=
  (0#28 ++ (st.code ++ result) : BitVec 64)

/-- Field STATUS of a response word (R92). -/
def rspStatus (w : RspWord) : BitVec 4 := w.extractLsb' 32 4

/-- Field RESULT of a response word (R92). -/
def rspResult (w : RspWord) : Result := w.extractLsb' 0 32

/-- The 2-bit encoding of `ENC_STATE`; "value `3` is never taken" (R33). -/
def EncState.code : EncState → BitVec 2
  | .released => 0
  | .counting => 1
  | .coded => 2

/-- The 2-bit encoding of `DEC_STATE` (R43). -/
def DecState.code : DecState → BitVec 2
  | .released => 0
  | .lengths => 1
  | .ready => 2
  | .failed => 3

end Sys2Proof.Machine
end

