-- ==== Sys2Proof/Machine/Ops.lean ====
section
/-! DEFINITION. The named operations every command is built from: table access, requests to the collaborators, the response, the one
shared operation for a failure (`State.raise`), and giving up a session. -/

namespace Sys2Proof.Machine

open Sys2Proof

/-! ### Tables -/

/-- Entry `s` of a per-symbol table. Past the table it reads 0, which no legal command does (log 11). -/
def symEntry {w : Nat} (t : List (BitVec w)) (s : Nat) : BitVec w := t.getD s 0

/-- Entry `L` of a per-length table, which starts at length 1 (R38, R49). Length 0 and lengths past the table read 0, which no legal command
does (log 11). -/
def lenEntry {w : Nat} (t : List (BitVec w)) : Nat → BitVec w
  | 0 => 0
  | l + 1 => t.getD l 0

/-- The entries of a table as naturals: "arithmetic in pseudocode is on unbounded natural numbers" (R10). -/
def nats {w : Nat} (t : List (BitVec w)) : List Nat := t.map BitVec.toNat

/-- Store naturals in a table of width `w` (R10, log 10). -/
def narrow (w : Nat) (ns : List Nat) : List (BitVec w) := ns.map (BitVec.ofNat w)

/-! ### State updates -/

/-- Write HENC. -/
def State.setEnc (u : Encoder) (s : State) : State := { s with enc := u }

/-- Write HDEC. -/
def State.setDec (u : Decoder) (s : State) : State := { s with dec := u }

/-- One free value has been drawn (log 7). -/
def State.drawn (s : State) : State := { s with draws := s.draws + 1 }

/-- An event on the block's ports (R83). -/
def State.emit (ev : PortEvent) (s : State) : State := { s with trace := s.trace ++ [ev] }

/-! ### The collaborators -/

/-- The arena's answer to the block's next request: an input (R72), and a free value where State lists none (log 3). -/
def State.arenaAnswer (s : State) : Bool :=
  match s.arena.answers with
  | g :: _ => g
  | [] => Config.arenaGrant s.params.inst s.arena.given

/-- The arena after one answer. -/
def Arena.advance (a : Arena) : Arena := ⟨a.answers.tail, a.given + 1⟩

/-- The bit source after one answered read: a bit is removed, and `EOS` leaves the source "without change" (R176). -/
def BitSource.advance : BitAnswer → BitSource → BitSource
  | .bit _, src => { src with consumed := src.consumed + 1, bits := src.bits.tail }
  | .eos, src => src

/-- The block sends a request, or a response, and takes the answer `ev` holds: the event is on its ports, and the collaborator that answered
has moved on. Every request goes through here (R11). -/
def State.exchange (ev : PortEvent) (s : State) : State :=
  match ev with
  | .response _ => s.emit ev
  | .arenaRequest _ _ _ => { s.emit ev with arena := s.arena.advance }
  | .arenaRelease _ _ => s.emit ev
  | .bitRead ans => { s.emit ev with bitIO := BitSource.advance ans s.bitIO }
  | .bitAlign => { s.emit ev with bitIO := Config.align s.params.inst s.bitIO }

/-- A sequence of exchanges, in order. -/
def State.exchanges (evs : List PortEvent) (s : State) : State :=
  evs.foldl (fun t ev => t.exchange ev) s

/-! ### The end of a command -/

/-- `respond(status, result)` "ends the command. It delivers the response word" (R11, R92). -/
def State.respond (st : Status) (result : Result) (s : State) : State :=
  s.exchange (.response (rspWord st result))

/-- `raise S`: "`respond(S, 0)` with no state change other than those the rule lists before the `raise`" (R11). The block's only way to report
a failure, and there is no handler and no return (R226). -/
def State.raise (st : Status) (s : State) : State := s.respond st 0

/-! ### The end of a session -/

/-- HENC once its session is over: RELEASED and owning no buffer, every register unspecified (R124, R251), free value number `n` (log 7). -/
def freedEncoder (p : Params) (n : Nat) : Encoder where
  state := .released
  e := Config.freeBits p.inst .encE 17 n
  k := Config.freeBits p.inst .encK 6 n
  freqCode := Config.freeTable p.inst .freqCode 32 n
  codeSize := Config.freeTable p.inst .codeSize 6 n
  eCount := Config.freeTable p.inst .eCount 17 n
  maxLen := Config.freeBits p.inst .encMaxLen 6 n
  nz := Config.freeBits p.inst .encNz 17 n
  nextCode := Config.freeTable p.inst .eNextCode 33 n
  work := Config.freeWork p.inst n
  buffers := []

/-- HDEC once its session is over: RELEASED and owning no buffer, every register unspecified (R175, R251), free value number `n` (log 7). -/
def freedDecoder (p : Params) (n : Nat) : Decoder where
  state := .released
  m := Config.freeBits p.inst .decM 16 n
  dLen := Config.freeTable p.inst .dLen 6 n
  dCode := Config.freeTable p.inst .dCode 32 n
  dCount := Config.freeTable p.inst .dCount 17 n
  maxLen := Config.freeBits p.inst .decMaxLen 6 n
  first := Config.freeTable p.inst .first 33 n
  offset := Config.freeTable p.inst .offset 17 n
  sortedSym := Config.freeTable p.inst .sortedSym 16 n
  buffers := []

/-- The block's reset input (R250): both units RELEASED, everything else in them unspecified (R251), no request sent and no collaborator
changed. Buffers a session held are then no unit's; they stay granted at the arena. -/
def State.blockReset (s : State) : State :=
  ((s.setEnc (freedEncoder s.params s.draws)).setDec (freedDecoder s.params s.draws)).drawn

end Sys2Proof.Machine
end

