-- ==== Sys2Proof/Machine/Canonical.lean ====
section
/-! DEFINITION. The canonical-code arithmetic both units share: counts per length, start codes (R131, R172), the walk that assigns codes,
the Kraft sum (R8, R172), offsets and the sorted symbol list (R172). All on naturals (R10). -/

namespace Sys2Proof.Machine

/-- `|{ s : len[s] == L }|` for `L = 1..maxCodeBits` (R123 step 3, R172). -/
def lengthCounts (maxCodeBits : Nat) (lens : List Nat) : List Nat :=
  (List.range' 1 maxCodeBits).map (fun l => lens.count l)

/-- `max({ len[s] } ∪ {0})` (R123 step 2, R172). -/
def maxLength (lens : List Nat) : Nat := lens.foldr max 0

/-- Start codes from length 1 on, given the counts from length 1 on, the first being `c`: "`next = (next_at_previous_length +
count_at_previous_length) << 1`" (R131, R172, C1). Every length has one, used or not (C8). -/
def startCodesFrom (c : Nat) : List Nat → List Nat
  | [] => []
  | n :: ns => c :: startCodesFrom ((c + n) <<< 1) ns

/-- "Starting code for length 1 is 0" (R131). -/
def startCodes (counts : List Nat) : List Nat := startCodesFrom 0 counts

/-- Offsets from length 1 on: `Offset[L] <- Offset[L-1] + DCount[L-1]` (R172). -/
def offsetsFrom (o : Nat) : List Nat → List Nat
  | [] => []
  | n :: ns => o :: offsetsFrom (o + n) ns

/-- `Offset[1] <- 0` (R172). -/
def offsets (counts : List Nat) : List Nat := offsetsFrom 0 counts

/-- The walk of R131 and R172 over the symbols in increasing order, each given as (its length, what its code field holds): a symbol with a
length takes its length's next code, and one without keeps its field. Answers the fields and the next codes the walk ends with. -/
def assignCodes (next : List Nat) : List (Nat × Nat) → List Nat × List Nat
  | [] => ([], next)
  | (0, old) :: rest =>
    let r := assignCodes next rest
    (old :: r.1, r.2)
  | (l + 1, _) :: rest =>
    let code := next.getD l 0
    let r := assignCodes (next.set l (code + 1)) rest
    (code :: r.1, r.2)

/-- `Σ_{len[s] != 0} 2^(MAX_CODE_BITS - len[s])` (R8, R172). -/
def kraftSum (maxCodeBits : Nat) (lens : List Nat) : Nat :=
  (lens.map (fun l => if l = 0 then 0 else 2 ^ (maxCodeBits - l))).sum

/-- The symbols of length `l` in increasing order. -/
def symbolsOfLength (lens : List Nat) (l : Nat) : List Nat :=
  (List.range lens.length).filter (fun s => lens.getD s 0 == l)

/-- `[ s : len[s] != 0 ]` "ordered by (len[s], s)" (R172): a length is a 6-bit number (R45). -/
def sortedSymbols (lens : List Nat) : List Nat :=
  (List.range' 1 63).flatMap (symbolsOfLength lens)

end Sys2Proof.Machine
end

