-- ==== Sys2Proof/Machine/Operands.lean ====
section
/-! DEFINITION. The operand checks of the commands, in the order their pseudocode lists them (R222), the three index spaces (R71), and the
buffers an INIT asks for (R72). -/

namespace Sys2Proof.Machine

open Sys2Proof

/-- Encoder symbol index space, `0..ENC_E-1` (R71). -/
def encSymbolOk (u : Encoder) (sym : Nat) : Bool := decide (sym < u.e.toNat)

/-- Decoder symbol index space, `0..DEC_M` (R71). -/
def decSymbolOk (u : Decoder) (sym : Nat) : Bool := decide (sym ≤ u.m.toNat)

/-- Code length index space of the count tables, `1..MAX_CODE_BITS` (R71, D44). -/
def countLenOk (p : Params) (len : Nat) : Bool := decide (1 ≤ len) && decide (len ≤ p.maxCodeBits)

/-- Code length index space of the step table, `1..DEC_MAXLEN` (R71, D43). -/
def stepLenOk (u : Decoder) (len : Nat) : Bool := decide (1 ≤ len) && decide (len ≤ u.maxLen.toNat)

/-- The checks of `ENC.INIT` before its arena request, the first that fails (R121). -/
def encInitCheck (s : State) (e k : Nat) : Option Status :=
  if s.enc.state ≠ .released then some .sequenceError
  else if e < 1 ∨ e > Config.maxEntryCnt then some .invalidConfiguration
  else if k < 1 ∨ k > s.params.maxCodeBits then some .invalidConfiguration
  else if e > 2 ^ k then some .invalidConfiguration
  else none

/-- The checks of `DEC.INIT` before its arena request, the first that fails (R170). -/
def decInitCheck (s : State) (m : Nat) : Option Status :=
  if s.dec.state ≠ .released then some .sequenceError
  else if m > Config.maxEntryCnt - 1 then some .invalidConfiguration
  else none

/-- The least power of two that is at least `n`, for `n ≥ 1`. "Each entry count is rounded up to a power of two" (R72); that it is the least
one is the model's reading (log 14, DEDUCED). -/
def roundPow2 (n : Nat) : Nat := 2 ^ Nat.log2 (2 * n - 1)

/-- The encoder's five buffers, in the order R72 names them (log 14, DEDUCED). -/
def encBuffers (p : Params) (e : Nat) : List Buffer :=
  [⟨.freqCode, roundPow2 e⟩, ⟨.codeSize, roundPow2 e⟩, ⟨.work, roundPow2 e⟩,
   ⟨.eCount, roundPow2 (p.maxCodeBits + 1)⟩, ⟨.eNextCode, roundPow2 (p.maxCodeBits + 1)⟩]

/-- The decoder's three buffers, in the order R72 names them (log 14, DEDUCED). -/
def decBuffers (p : Params) (m : Nat) : List Buffer :=
  [⟨.dLenCode, roundPow2 (m + 1)⟩, ⟨.sortedSym, roundPow2 (m + 1)⟩,
   ⟨.stepTable, roundPow2 (p.maxCodeBits + 1)⟩]

end Sys2Proof.Machine
end

