-- ==== Sys2Proof/Machine/StepTable.lean ====
section
/-! DEFINITION. Decoding one symbol bit by bit against the step table (R173, R176), apart from the rest of the machine. -/

namespace Sys2Proof.Machine

open Sys2Proof

/-- How the reading of one symbol ends. -/
inductive DecodeOutcome where
  /-- A code matched: the symbol (R173). -/
  | symbol (sym : BitVec 16)
  /-- A read answered `EOS` (R173). -/
  | endOfStream
  /-- "No code within DEC_MAXLEN bits" (R173). -/
  | noMatch
  /-- A read is never answered (R176). -/
  | waiting
  deriving DecidableEq, Repr

/-- The reads made, in order, with their answers, and how the reading ends. -/
structure DecodeRun where
  reads : List BitAnswer
  outcome : DecodeOutcome
  deriving DecidableEq, Repr

/-- `DCount[L] > 0 and First[L] <= v and v < First[L] + DCount[L]` (R173). -/
def codeMatches (u : Decoder) (len v : Nat) : Bool :=
  decide (0 < (lenEntry u.dCount len).toNat) && decide ((lenEntry u.first len).toNat ≤ v) &&
    decide (v < (lenEntry u.first len).toNat + (lenEntry u.dCount len).toNat)

/-- `SortedSym[Offset[L] + (v - First[L])]` (R173). -/
def matchedSymbol (u : Decoder) (len v : Nat) : BitVec 16 :=
  symEntry u.sortedSym ((lenEntry u.offset len).toNat + (v - (lenEntry u.first len).toNat))

/-- The loop of R173 from length `len` on, with `left` lengths left to try, running value `v` and the bits still in the source. -/
def decodeFrom (u : Decoder) (ending : StreamEnd) : (left len v : Nat) → List Bool → DecodeRun
  | 0, _, _, _ => ⟨[], .noMatch⟩
  | _ + 1, _, _, [] =>
    match ending with
    | .eos => ⟨[.eos], .endOfStream⟩
    | .silent => ⟨[], .waiting⟩
  | left + 1, len, v, b :: bits =>
    let v' := v <<< 1 ||| b.toNat
    if codeMatches u len v' then ⟨[.bit b], .symbol (matchedSymbol u len v')⟩
    else
      let r := decodeFrom u ending left (len + 1) v' bits
      ⟨.bit b :: r.reads, r.outcome⟩

/-- `for L in 1..DEC_MAXLEN` with `v := 0` (R173). -/
def decodeSymbol (u : Decoder) (src : BitSource) : DecodeRun :=
  decodeFrom u src.ending u.maxLen.toNat 1 0 src.bits

end Sys2Proof.Machine
end

