-- ==== Sys2Proof/Machine/Decoder.lean ====
section
/-! DEFINITION. The decoder's session commands: DEC.INIT, DEC.SETLEN, DEC.RECON, DEC.RDSYM, DEC.SYNC, DEC.EXIT (R170 to R175). -/

namespace Sys2Proof.Machine

open Sys2Proof

/-- The arena request of `DEC.INIT`, with the answer it gets (R72). -/
def decRequest (s : State) (m : Nat) : PortEvent :=
  .arenaRequest .hdec (decBuffers s.params m) s.arenaAnswer

/-- HDEC as a granted `DEC.INIT` leaves it: `DEC_M`, the two cleared tables and the state are written, the rest is not (R170). -/
def openedDecoder (u : Decoder) (p : Params) (m : Nat) : Decoder :=
  { u with
    state := .lengths
    m := BitVec.ofNat 16 m
    dLen := List.replicate (m + 1) 0
    dCode := List.replicate (m + 1) 0
    buffers := decBuffers p m }

/-- `DEC.INIT` (R170). -/
def execDecInit (m : Nat) (s : State) : Host.Outcome State Fault Refusal :=
  .next (match decInitCheck s m with
    | some st => s.raise st
    | none =>
      let s1 := s.exchange (decRequest s m)
      if s.arenaAnswer then (s1.setDec (openedDecoder s.dec s.params m)).respond .ok 0
      else s1.raise .outOfMemory)

/-- `DEC.SETLEN` (R171): the symbol is checked before the length. -/
def execDecSetlen (sym len : Nat) (s : State) : Host.Outcome State Fault Refusal :=
  .next (
    if s.dec.state ≠ .lengths then s.raise .sequenceError
    else if !decSymbolOk s.dec sym then s.raise .invalidArgument
    else if len > s.params.maxCodeBits then s.raise .invalidCodeLengths
    else (s.setDec { s.dec with dLen := s.dec.dLen.set sym (BitVec.ofNat 6 len) }).respond .ok 0)

/-- HDEC as a successful `DEC.RECON` leaves it (R172). -/
def reconstructedDecoder (u : Decoder) (p : Params) : Decoder :=
  let lens := nats u.dLen
  let counts := lengthCounts p.maxCodeBits lens
  let starts := startCodes counts
  { u with
    state := .ready
    dCode := narrow 32 (assignCodes starts (lens.zip (nats u.dCode))).1
    dCount := narrow 17 counts
    maxLen := BitVec.ofNat 6 (maxLength lens)
    first := narrow 33 starts
    offset := narrow 17 (offsets counts)
    sortedSym := narrow 16 (sortedSymbols lens) }

/-- The Kraft check of `DEC.RECON`: `kraft > 2^MAX_CODE_BITS` is "oversubscribed" (R172, C4). -/
def oversubscribed (p : Params) (u : Decoder) : Bool :=
  decide (2 ^ p.maxCodeBits < kraftSum p.maxCodeBits (nats u.dLen))

/-- `DEC.RECON` (R172). -/
def execDecRecon (s : State) : Host.Outcome State Fault Refusal :=
  .next (
    if s.dec.state ≠ .lengths then s.raise .sequenceError
    else if oversubscribed s.params s.dec then s.raise .invalidCodeLengths
    else (s.setDec (reconstructedDecoder s.dec s.params)).respond .ok 0)

/-- The decoder enters FAILED and the command raises `StreamCorruption` (R173). -/
def State.failStream (s : State) : State :=
  (s.setDec { s.dec with state := .failed }).raise .streamCorruption

/-- `DEC.RDSYM` (R173): the bits read stay consumed, whatever the outcome (R223). -/
def execDecRdsym (s : State) : Host.Outcome State Fault Refusal :=
  if s.dec.state = .failed then .next (s.raise .streamCorruption)
  else if s.dec.state ≠ .ready then .next (s.raise .sequenceError)
  else
    let run := decodeSymbol s.dec s.bitIO
    let s1 := s.exchanges (run.reads.map .bitRead)
    match run.outcome with
    | .symbol x => .next (s1.respond .ok (x.setWidth 32))
    | .endOfStream => .next s1.failStream
    | .noMatch => .next s1.failStream
    | .waiting => .fault .bitReadNeverAnswered

/-- `DEC.SYNC` (R174): one align request, whose effect is the collaborator's (R177). -/
def execDecSync (s : State) : Host.Outcome State Fault Refusal :=
  .next (
    if s.dec.state = .failed then s.raise .streamCorruption
    else if s.dec.state ≠ .ready then s.raise .sequenceError
    else (s.exchange .bitAlign).respond .ok 0)

/-- `DEC.EXIT` (R175): "the only way out of FAILED. In RELEASED it is a no-op". -/
def execDecExit (s : State) : Host.Outcome State Fault Refusal :=
  .next (
    if s.dec.state = .released then s.respond .ok 0
    else (((s.exchange (.arenaRelease .hdec s.dec.buffers)).setDec (freedDecoder s.params s.draws)).drawn).respond .ok 0)

end Sys2Proof.Machine
end

