-- ==== Sys2Proof/Machine/DecoderRead.lean ====
section
/-! DEFINITION. The decoder's read-out commands (R178 to R183): they change no state but for the response. -/

namespace Sys2Proof.Machine

open Sys2Proof

/-- The states in which the reconstructed tables can be read (R169). -/
def reconstructed (u : Decoder) : Bool := u.state == .ready || u.state == .failed

/-- `DEC.RDLEN` (R178). -/
def execDecRdlen (sym : Nat) (s : State) : Host.Outcome State Fault Refusal :=
  .next (
    if s.dec.state = .released then s.raise .sequenceError
    else if !decSymbolOk s.dec sym then s.raise .invalidArgument
    else s.respond .ok ((symEntry s.dec.dLen sym).setWidth 32))

/-- `DEC.RDCODE` (R179). -/
def execDecRdcode (sym : Nat) (s : State) : Host.Outcome State Fault Refusal :=
  .next (
    if !reconstructed s.dec then s.raise .sequenceError
    else if !decSymbolOk s.dec sym then s.raise .invalidArgument
    else s.respond .ok (symEntry s.dec.dCode sym))

/-- `DEC.RDCNT` (R180). -/
def execDecRdcnt (len : Nat) (s : State) : Host.Outcome State Fault Refusal :=
  .next (
    if !reconstructed s.dec then s.raise .sequenceError
    else if !countLenOk s.params len then s.raise .invalidArgument
    else s.respond .ok ((lenEntry s.dec.dCount len).setWidth 32))

/-- `DEC.RDMAXLEN` (R181). -/
def execDecRdmaxlen (s : State) : Host.Outcome State Fault Refusal :=
  .next (
    if !reconstructed s.dec then s.raise .sequenceError
    else s.respond .ok (s.dec.maxLen.setWidth 32))

/-- `DEC.RDFIRST` (R182): in its range "`First[L] < 2^L <= 2^32`, so the value returned fits 32 bits" (R49). -/
def execDecRdfirst (len : Nat) (s : State) : Host.Outcome State Fault Refusal :=
  .next (
    if !reconstructed s.dec then s.raise .sequenceError
    else if !stepLenOk s.dec len then s.raise .invalidArgument
    else s.respond .ok ((lenEntry s.dec.first len).setWidth 32))

/-- `DEC.RDOFFSET` (R183). -/
def execDecRdoffset (len : Nat) (s : State) : Host.Outcome State Fault Refusal :=
  .next (
    if !reconstructed s.dec then s.raise .sequenceError
    else if !stepLenOk s.dec len then s.raise .invalidArgument
    else s.respond .ok ((lenEntry s.dec.offset len).setWidth 32))

end Sys2Proof.Machine
end

