-- ==== Sys2Proof/Machine/LengthAssign.lean ====
section
/-! DEFINITION. `LengthAssign`, the length-limited code-length assignment by package-merge, with the tie-breaks of R130. -/

namespace Sys2Proof.Machine

/-- "An item is (w : Nat, syms : list of symbol); a leaf has syms = [s]" (R130). Weights are unbounded naturals. -/
structure PmItem where
  w : Nat
  syms : List Nat
  deriving DecidableEq, Repr

/-- Put a leaf in front of the first leaf that is not lighter. -/
def insertLeaf (x : PmItem) : List PmItem → List PmItem
  | [] => [x]
  | y :: ys => if x.w ≤ y.w then x :: y :: ys else y :: insertLeaf x ys

/-- The leaves "sorted ascending by the key (f[s], s)" (R130). `syms` is in increasing order, so inserting from its end, each leaf in front of
those of equal weight, sorts by that key. -/
def sortedLeaves (f : Nat → Nat) (syms : List Nat) : List PmItem :=
  syms.foldr (fun s acc => insertLeaf ⟨f s, [s]⟩ acc) []

/-- "Pair neighbours; drop an odd last item" (R130). -/
def pairUp : List PmItem → List PmItem
  | a :: b :: rest => ⟨a.w + b.w, a.syms ++ b.syms⟩ :: pairUp rest
  | _ => []

/-- `Merge` with `x` at the head of the left list and `k` the merge of the rest of that list: "on equal w, the leaf first" (R130). -/
def mergeHead (x : PmItem) (k : List PmItem → List PmItem) : List PmItem → List PmItem
  | [] => x :: k []
  | y :: ys => if x.w ≤ y.w then x :: k (y :: ys) else y :: mergeHead x k ys

/-- `Merge(X, Y)`, "both ascending by w" (R130). -/
def mergeItems : List PmItem → List PmItem → List PmItem
  | [], ys => ys
  | x :: xs, ys => mergeHead x (mergeItems xs) ys

/-- `cur` after so many rounds of pairing and merging (R130). -/
def packageRounds (leaves : List PmItem) : Nat → List PmItem
  | 0 => leaves
  | r + 1 => mergeItems leaves (pairUp (packageRounds leaves r))

/-- "The first 2n-2 items" of `cur` after `K-1` rounds (R130). -/
def chosenItems (f : Nat → Nat) (syms : List Nat) (k : Nat) : List PmItem :=
  (packageRounds (sortedLeaves f syms) (k - 1)).take (2 * syms.length - 2)

/-- `LengthAssign(S, f, K)` (R130): a symbol's length is its "number of occurrences" in the chosen items. -/
def lengthAssign (f : Nat → Nat) (syms : List Nat) (k : Nat) (s : Nat) : Nat :=
  ((chosenItems f syms k).flatMap PmItem.syms).count s

end Sys2Proof.Machine
end

