-- ==== Sys2Proof/Machine/Encoder.lean ====
section
/-! DEFINITION. The encoder's session commands: ENC.INIT, ENC.COUNT, ENC.CREATE, ENC.EXIT (R121 to R124). -/

namespace Sys2Proof.Machine

open Sys2Proof

/-- The arena request of `ENC.INIT`, with the answer it gets (R72). -/
def encRequest (s : State) (e : Nat) : PortEvent :=
  .arenaRequest .henc (encBuffers s.params e) s.arenaAnswer

/-- HENC as a granted `ENC.INIT` leaves it: `ENC_E`, `ENC_K`, the three cleared tables and the state are written, the rest is not (R121). -/
def openedEncoder (u : Encoder) (p : Params) (e k : Nat) : Encoder :=
  { u with
    state := .counting
    e := BitVec.ofNat 17 e
    k := BitVec.ofNat 6 k
    freqCode := List.replicate e 0
    codeSize := List.replicate e 0
    eCount := List.replicate p.maxCodeBits 0
    buffers := encBuffers p e }

/-- `ENC.INIT` (R121). -/
def execEncInit (e k : Nat) (s : State) : Host.Outcome State Fault Refusal :=
  .next (match encInitCheck s e k with
    | some st => s.raise st
    | none =>
      let s1 := s.exchange (encRequest s e)
      if s.arenaAnswer then (s1.setEnc (openedEncoder s.enc s.params e k)).respond .ok 0
      else s1.raise .outOfMemory)

/-- `ENC.COUNT` (R122): `FreqCode[s] <- (FreqCode[s] + n) mod 2^32`. -/
def execEncCount (sym n : Nat) (s : State) : Host.Outcome State Fault Refusal :=
  .next (
    if s.enc.state ≠ .counting then s.raise .sequenceError
    else if !encSymbolOk s.enc sym then s.raise .invalidArgument
    else (s.setEnc { s.enc with
      freqCode := s.enc.freqCode.set sym (symEntry s.enc.freqCode sym + BitVec.ofNat 32 n) }).respond .ok 0)

/-- `S`: the symbols whose frequency is nonzero, in increasing order (R123). -/
def usedSymbols (freqs : List Nat) : List Nat :=
  (List.range freqs.length).filter (fun s => freqs.getD s 0 != 0)

/-- The length `ENC.CREATE` gives a used symbol (R123): 1 when it is the only one, else package-merge's. -/
def usedLength (freqs : List Nat) (k : Nat) (s : Nat) : Nat :=
  let syms := usedSymbols freqs
  if syms.length = 1 then 1 else lengthAssign (fun t => freqs.getD t 0) syms k s

/-- `CodeSize[]` after `ENC.CREATE`: a used symbol's is written, another keeps its own (R123). -/
def createdLengths (freqs old : List Nat) (k : Nat) : List Nat :=
  (List.range freqs.length).map (fun s => if freqs.getD s 0 = 0 then old.getD s 0 else usedLength freqs k s)

/-- HENC as `ENC.CREATE` leaves it (R123, R131); the work storage is then a free value (R42, log 8). -/
def createdEncoder (u : Encoder) (p : Params) (draw : Nat) : Encoder :=
  let freqs := nats u.freqCode
  let lens := createdLengths freqs (nats u.codeSize) u.k.toNat
  let counts := lengthCounts p.maxCodeBits lens
  let codes := assignCodes (startCodes counts) (lens.zip freqs)
  { u with
    state := .coded
    freqCode := narrow 32 codes.1
    codeSize := narrow 6 lens
    eCount := narrow 17 counts
    maxLen := BitVec.ofNat 6 (maxLength lens)
    nz := BitVec.ofNat 17 (usedSymbols freqs).length
    nextCode := narrow 33 codes.2
    work := Config.freeWork p.inst draw }

/-- `ENC.CREATE` (R123): "It has no other failure". -/
def execEncCreate (s : State) : Host.Outcome State Fault Refusal :=
  .next (
    if s.enc.state ≠ .counting then s.raise .sequenceError
    else ((s.setEnc (createdEncoder s.enc s.params s.draws)).drawn).respond .ok 0)

/-- `ENC.EXIT` (R124): "in RELEASED it is a no-op that sends no release". -/
def execEncExit (s : State) : Host.Outcome State Fault Refusal :=
  .next (
    if s.enc.state = .released then s.respond .ok 0
    else (((s.exchange (.arenaRelease .henc s.enc.buffers)).setEnc (freedEncoder s.params s.draws)).drawn).respond .ok 0)

end Sys2Proof.Machine
end

