-- ==== Sys2Proof/Machine/EncoderRead.lean ====
section
/-! DEFINITION. The encoder's read-out commands (R125 to R129): they change no state but for the response. -/

namespace Sys2Proof.Machine

open Sys2Proof

/-- `ENC.RDFC` (R125): the running frequency in COUNTING, the code in CODED. -/
def execEncRdfc (sym : Nat) (s : State) : Host.Outcome State Fault Refusal :=
  .next (
    if s.enc.state = .released then s.raise .sequenceError
    else if !encSymbolOk s.enc sym then s.raise .invalidArgument
    else s.respond .ok (symEntry s.enc.freqCode sym))

/-- `ENC.RDLEN` (R126). -/
def execEncRdlen (sym : Nat) (s : State) : Host.Outcome State Fault Refusal :=
  .next (
    if s.enc.state ≠ .coded then s.raise .sequenceError
    else if !encSymbolOk s.enc sym then s.raise .invalidArgument
    else s.respond .ok ((symEntry s.enc.codeSize sym).setWidth 32))

/-- `ENC.RDCNT` (R127). -/
def execEncRdcnt (len : Nat) (s : State) : Host.Outcome State Fault Refusal :=
  .next (
    if s.enc.state ≠ .coded then s.raise .sequenceError
    else if !countLenOk s.params len then s.raise .invalidArgument
    else s.respond .ok ((lenEntry s.enc.eCount len).setWidth 32))

/-- `ENC.RDMAXLEN` (R128). -/
def execEncRdmaxlen (s : State) : Host.Outcome State Fault Refusal :=
  .next (
    if s.enc.state ≠ .coded then s.raise .sequenceError
    else s.respond .ok (s.enc.maxLen.setWidth 32))

/-- `ENC.RDNZ` (R129). -/
def execEncRdnz (s : State) : Host.Outcome State Fault Refusal :=
  .next (
    if s.enc.state ≠ .coded then s.raise .sequenceError
    else s.respond .ok (s.enc.nz.setWidth 32))

end Sys2Proof.Machine
end

