-- ==== Sys2Proof/Machine/Dispatch.lean ====
section
/-! DEFINITION. One arm per command of R95. -/

namespace Sys2Proof.Machine

open Sys2Proof

def exec (i : Instr) (s : State) : Host.Outcome State Fault Refusal :=
  match i with
  | .encInit e k => Sys2Proof.Machine.execEncInit e k s
  | .encCount sym n => Sys2Proof.Machine.execEncCount sym n s
  | .encCreate => Sys2Proof.Machine.execEncCreate s
  | .encExit => Sys2Proof.Machine.execEncExit s
  | .encRdfc sym => Sys2Proof.Machine.execEncRdfc sym s
  | .encRdlen sym => Sys2Proof.Machine.execEncRdlen sym s
  | .encRdcnt len => Sys2Proof.Machine.execEncRdcnt len s
  | .encRdmaxlen => Sys2Proof.Machine.execEncRdmaxlen s
  | .encRdnz => Sys2Proof.Machine.execEncRdnz s
  | .decInit m => Sys2Proof.Machine.execDecInit m s
  | .decSetlen sym len => Sys2Proof.Machine.execDecSetlen sym len s
  | .decRecon => Sys2Proof.Machine.execDecRecon s
  | .decRdsym => Sys2Proof.Machine.execDecRdsym s
  | .decSync => Sys2Proof.Machine.execDecSync s
  | .decExit => Sys2Proof.Machine.execDecExit s
  | .decRdlen sym => Sys2Proof.Machine.execDecRdlen sym s
  | .decRdcode sym => Sys2Proof.Machine.execDecRdcode sym s
  | .decRdcnt len => Sys2Proof.Machine.execDecRdcnt len s
  | .decRdmaxlen => Sys2Proof.Machine.execDecRdmaxlen s
  | .decRdfirst len => Sys2Proof.Machine.execDecRdfirst len s
  | .decRdoffset len => Sys2Proof.Machine.execDecRdoffset len s

end Sys2Proof.Machine
end

