-- ==== Sys2Proof/Machine/Requests.lean ====
section
/-! DEFINITION. What one host event does: a command word, legal or not (R96, R97), and a reset inside a command (R253). -/

namespace Sys2Proof.Machine

open Sys2Proof

/-- The requests a command sends to the collaborators, in order, each with the answer it gets (R11, R72, R73, R176, R177). A read that is never
answered is not among them. -/
def requestsOf (i : Instr) (s : State) : List PortEvent :=
  match i with
  | .encInit e k => if encInitCheck s e k = none then [encRequest s e] else []
  | .encCount _ _ => []
  | .encCreate => []
  | .encExit => if s.enc.state = .released then [] else [.arenaRelease .henc s.enc.buffers]
  | .encRdfc _ => []
  | .encRdlen _ => []
  | .encRdcnt _ => []
  | .encRdmaxlen => []
  | .encRdnz => []
  | .decInit m => if decInitCheck s m = none then [decRequest s m] else []
  | .decSetlen _ _ => []
  | .decRecon => []
  | .decRdsym => if s.dec.state = .ready then (decodeSymbol s.dec s.bitIO).reads.map .bitRead else []
  | .decSync => if s.dec.state = .ready then [.bitAlign] else []
  | .decExit => if s.dec.state = .released then [] else [.arenaRelease .hdec s.dec.buffers]
  | .decRdlen _ => []
  | .decRdcode _ => []
  | .decRdcnt _ => []
  | .decRdmaxlen => []
  | .decRdfirst _ => []
  | .decRdoffset _ => []

/-- The requests a command word sends: an illegal word "sends no arena or bit-I/O request" (R96). -/
def wordRequests (w : CmdWord) (s : State) : List PortEvent :=
  match decode w with
  | .ok i => requestsOf i s
  | .error _ => []

/-- The block executes a command word: a legal one by `exec`, an illegal one by returning `IllegalCommand` (R96, R97). -/
def runWord (w : CmdWord) (s : State) : Host.Outcome State Fault Refusal :=
  match decode w with
  | .ok i => exec i s
  | .error _ => .next (s.raise .illegalCommand)

/-- Reset comes while `w` executes, `n` of its requests answered: "the command delivers no response, and the state afterwards is that of
rule R250"; bits read stay consumed, and a granted arena request stays granted (R253). -/
def resetInside (w : CmdWord) (n : Nat) (s : State) : State :=
  (s.exchanges ((wordRequests w s).take n)).blockReset

/-- The host's oldest action has been taken. -/
def State.popHost (s : State) : State := { s with host := s.host.tail }

/-- One host event, with `s` the state after it was taken. -/
def runEvent (ev : HostEvent) (s : State) : Host.Outcome State Fault Refusal :=
  match ev with
  | .command w => runWord w s
  | .reset => .next s.blockReset
  | .resetDuring w n => .next (resetInside w n s)

/-- The host issues `w` next. -/
def State.issue (w : CmdWord) (s : State) : State := { s with host := .command w :: s.host }

end Sys2Proof.Machine
end

