-- ==== Sys2Proof/Machine/Step.lean ====
section
/-! DEFINITION. One step: the host's oldest action, commands taking effect in the order the host issued them (R32), and waiting when there is
none (R252). -/

namespace Sys2Proof.Machine

open Sys2Proof

/-- One step of the block. With no host action it "waits for the first command on the command port" (R252). -/
def step (s : State) : Host.Outcome State Fault Refusal :=
  match s.host with
  | [] => .next s
  | ev :: _ => runEvent ev s.popHost

/-- `s` with the host issuing the word next: the next command word is the front of the host's list (R32, log 20). -/
def State.withFetchWord (s : State) (nbits w : Nat) : State :=
  s.issue (BitVec.ofNat 64 (w % 2 ^ nbits))

end Sys2Proof.Machine
end

