-- ==== Sys2Proof/Machine/Asm.lean ====
section
/-! DEFINITION. The spec's assembly language (R98) and its two pseudo-commands (R99): what a line of text spells. -/

namespace Sys2Proof.Machine

open Sys2Proof

/-- What one line spells. -/
inductive AsmLine where
  /-- Blank, or a comment alone. -/
  | blank
  /-- The commands it stands for: one, or those a pseudo-command expands to. -/
  | commands (is : List Instr)
  /-- "An assembly error: it spells no word" (R98). -/
  | error
  deriving DecidableEq, Repr

/-- `ENC.COUNTS` from symbol `i` on: "`ENC.COUNT i, fi` for each `i` in `0..k` with `fi != 0`, in increasing `i`" (R99). -/
def encCountsFrom (i : Nat) : List Nat → List Instr
  | [] => []
  | f :: fs => if f = 0 then encCountsFrom (i + 1) fs else .encCount i f :: encCountsFrom (i + 1) fs

/-- `DEC.SETLENS` from symbol `i` on: "`DEC.SETLEN i, li` for each `i` in `0..k`, in increasing `i`, including `li = 0`" (R99). -/
def decSetlensFrom (i : Nat) : List Nat → List Instr
  | [] => []
  | l :: ls => .decSetlen i l :: decSetlensFrom (i + 1) ls

/-- A mnemonic with its operands, "in the order `A, B`" (R98); a pseudo-command lists at least one number (R99). -/
def spelled (mnemonic : String) (ops : List Nat) : Option (List Instr) :=
  match mnemonic, ops with
  | "ENC.INIT", [a, b] => some [.encInit a b]
  | "ENC.COUNT", [a, b] => some [.encCount a b]
  | "ENC.CREATE", [] => some [.encCreate]
  | "ENC.EXIT", [] => some [.encExit]
  | "ENC.RDFC", [a] => some [.encRdfc a]
  | "ENC.RDLEN", [a] => some [.encRdlen a]
  | "ENC.RDCNT", [a] => some [.encRdcnt a]
  | "ENC.RDMAXLEN", [] => some [.encRdmaxlen]
  | "ENC.RDNZ", [] => some [.encRdnz]
  | "DEC.INIT", [a] => some [.decInit a]
  | "DEC.SETLEN", [a, b] => some [.decSetlen a b]
  | "DEC.RECON", [] => some [.decRecon]
  | "DEC.RDSYM", [] => some [.decRdsym]
  | "DEC.SYNC", [] => some [.decSync]
  | "DEC.EXIT", [] => some [.decExit]
  | "DEC.RDLEN", [a] => some [.decRdlen a]
  | "DEC.RDCODE", [a] => some [.decRdcode a]
  | "DEC.RDCNT", [a] => some [.decRdcnt a]
  | "DEC.RDMAXLEN", [] => some [.decRdmaxlen]
  | "DEC.RDFIRST", [a] => some [.decRdfirst a]
  | "DEC.RDOFFSET", [a] => some [.decRdoffset a]
  | "ENC.COUNTS", f :: fs => some (encCountsFrom 0 (f :: fs))
  | "DEC.SETLENS", l :: ls => some (decSetlensFrom 0 (l :: ls))
  | _, _ => none

/-- White space between the parts of a line (log 19). -/
def asmBlank (c : Char) : Bool := c == ' ' || c == '\t' || c == '\r'

/-- Without white space at either end. -/
def asmTrim (cs : List Char) : List Char :=
  ((cs.dropWhile asmBlank).reverse.dropWhile asmBlank).reverse

/-- A decimal digit's value. -/
def decDigit (c : Char) : Option Nat :=
  if 48 ≤ c.toNat ∧ c.toNat ≤ 57 then some (c.toNat - 48) else none

/-- A hexadecimal digit's value, either case (log 19). -/
def hexDigit (c : Char) : Option Nat :=
  if 65 ≤ c.toNat ∧ c.toNat ≤ 70 then some (c.toNat - 55)
  else if 97 ≤ c.toNat ∧ c.toNat ≤ 102 then some (c.toNat - 87)
  else decDigit c

/-- The number a list of digits spells after `acc`. -/
def asmDigits (base : Nat) (digit : Char → Option Nat) (acc : Nat) : List Char → Option Nat
  | [] => some acc
  | c :: cs =>
    match digit c with
    | some d => asmDigits base digit (acc * base + d) cs
    | none => none

/-- "An operand is a decimal or `0x` hexadecimal unsigned integer" (R98). -/
def asmNumber (cs : List Char) : Option Nat :=
  match cs with
  | [] => none
  | '0' :: 'x' :: [] => none
  | '0' :: 'x' :: ds => asmDigits 16 hexDigit 0 ds
  | ds => asmDigits 10 decDigit 0 ds

/-- The pieces between commas. -/
def splitCommas : List Char → List (List Char)
  | [] => [[]]
  | ',' :: cs => [] :: splitCommas cs
  | c :: cs =>
    match splitCommas cs with
    | [] => [[c]]
    | p :: ps => (c :: p) :: ps

/-- The operands of a line, "separated by commas" (R98). -/
def asmOperands (cs : List Char) : Option (List Nat) :=
  if asmTrim cs = [] then some [] else (splitCommas cs).mapM (fun p => asmNumber (asmTrim p))

/-- One line: "a mnemonic, then its operands, separated by commas", "`;` starts a comment", and operands that fit their fields (R98). -/
def assembleLine (line : String) : AsmLine :=
  let cs := asmTrim (line.toList.takeWhile (fun c => c != ';'))
  if cs = [] then .blank
  else
    match asmOperands (cs.dropWhile (fun c => !asmBlank c)) with
    | none => .error
    | some ops =>
      match spelled (String.ofList (cs.takeWhile (fun c => !asmBlank c))) ops with
      | none => .error
      | some is => if is.all Instr.wellFormed then .commands is else .error

/-- The words of a listing, one line a string: "each is only shorthand for the words it expands to" (R99). -/
def assemble : List String → Option (List CmdWord)
  | [] => some []
  | l :: ls =>
    match assembleLine l, assemble ls with
    | .blank, some ws => some ws
    | .commands is, some ws => some (is.map encode ++ ws)
    | _, _ => none

end Sys2Proof.Machine
end

