-- ==== Sys2Proof/Machine/Bus.lean ====
section
/-! DEFINITION. The ports of a block on a host bus, through the OPEN parameter `HOST_BUS_MAPPING` (R6, R75, R81, log 17). -/

namespace Sys2Proof.Machine

open Sys2Proof

/-- The host makes these bus accesses, which end where a word ends. What reaches the block are the command words they deliver, in order: "the
block acts on a command only once the whole word has arrived" (R75). -/
def State.deliver (accesses : List BusAccess) (s : State) : State :=
  { s with host := s.host ++ (Config.busCommands s.params.inst accesses).map .command }

/-- The response words the block has sent, oldest first (R92). -/
def State.responses (s : State) : List RspWord :=
  s.trace.filterMap (fun ev =>
    match ev with
    | .response w => some w
    | .arenaRequest _ _ _ => none
    | .arenaRelease _ _ => none
    | .bitRead _ => none
    | .bitAlign => none)

/-- The bus accesses that carry the responses sent so far (R75). -/
def State.busResponses (s : State) : List BusAccess := Config.busResponses s.params.inst s.responses

end Sys2Proof.Machine
end

