-- ==== Sys2Proof/Machine/System.lean ====
section
/-! DEFINITION. A system of `N_INSTANCES` independent blocks (R6, R83, R232): they "share nothing", and a step is a step of one of them. -/

namespace Sys2Proof.Machine

/-- `N_INSTANCES` is the length of the list, "OPEN, >= 1" (R6, R232, I17). What is fixed per block instance is in each block's own `params`. -/
structure System where
  blocks : List State
  pos : 1 ≤ blocks.length
  deriving DecidableEq, Repr

/-- Instance `n` takes a step; "no ordering exists between them" (R83), so which one steps is the caller's choice. There being no instance `n`,
nothing happens. -/
def System.stepAt (n : Nat) (sys : System) : Host.Outcome System Fault Refusal :=
  match sys.blocks[n]? with
  | none => .next sys
  | some s =>
    match step s with
    | .next t => .next ⟨sys.blocks.set n t, (List.length_set (as := sys.blocks) (i := n) (a := t)).symm ▸ sys.pos⟩
    | .fault r => .fault r
    | .refused r => .refused r

end Sys2Proof.Machine
end

