-- ==== Sys2Proof/Safety.lean ====
section
/-! DEFINITION. What a safe run is, the invariants of the two units (R52, R53), and the words the statements are written in. -/

namespace Sys2Proof.Machine

open Sys2Proof

/-! ### Safe runs -/

/-- A run of `n` steps that neither faults nor is refused. -/
def SafeRun (n : Nat) (s : State) : Prop := ∃ t, Sys2Proof.core.run n s = .next t

/-- The bit-I/O collaborator answers every read (R176). -/
def Answering (s : State) : Prop := s.bitIO.ending = .eos

/-! ### Words and commands -/

/-- "Assembly: `word = (B << 32) | (A << 8) | OP`" (R91). -/
def assembledWord (op a b : Nat) : CmdWord := BitVec.ofNat 64 (b <<< 32 ||| a <<< 8 ||| op)

/-- The commands of HENC: `UNIT = 0x1` (R91). -/
def isEncoderCommand : Instr → Bool
  | .encInit _ _ => true
  | .encCount _ _ => true
  | .encCreate => true
  | .encExit => true
  | .encRdfc _ => true
  | .encRdlen _ => true
  | .encRdcnt _ => true
  | .encRdmaxlen => true
  | .encRdnz => true
  | .decInit _ => false
  | .decSetlen _ _ => false
  | .decRecon => false
  | .decRdsym => false
  | .decSync => false
  | .decExit => false
  | .decRdlen _ => false
  | .decRdcode _ => false
  | .decRdcnt _ => false
  | .decRdmaxlen => false
  | .decRdfirst _ => false
  | .decRdoffset _ => false

/-- The eleven read-out commands (R80). -/
def isReadOut : Instr → Bool
  | .encInit _ _ => false
  | .encCount _ _ => false
  | .encCreate => false
  | .encExit => false
  | .encRdfc _ => true
  | .encRdlen _ => true
  | .encRdcnt _ => true
  | .encRdmaxlen => true
  | .encRdnz => true
  | .decInit _ => false
  | .decSetlen _ _ => false
  | .decRecon => false
  | .decRdsym => false
  | .decSync => false
  | .decExit => false
  | .decRdlen _ => true
  | .decRdcode _ => true
  | .decRdcnt _ => true
  | .decRdmaxlen => true
  | .decRdfirst _ => true
  | .decRdoffset _ => true

/-- The cell of a command in the legality tables of R120 and R169: the status returned, or `none` where the command "does its operation". -/
def legalityCell (i : Instr) (e : EncState) (d : DecState) : Option Status :=
  match i with
  | .encInit _ _ => if e = .released then none else some .sequenceError
  | .encCount _ _ => if e = .counting then none else some .sequenceError
  | .encCreate => if e = .counting then none else some .sequenceError
  | .encExit => none
  | .encRdfc _ => if e = .released then some .sequenceError else none
  | .encRdlen _ => if e = .coded then none else some .sequenceError
  | .encRdcnt _ => if e = .coded then none else some .sequenceError
  | .encRdmaxlen => if e = .coded then none else some .sequenceError
  | .encRdnz => if e = .coded then none else some .sequenceError
  | .decInit _ => if d = .released then none else some .sequenceError
  | .decSetlen _ _ => if d = .lengths then none else some .sequenceError
  | .decRecon => if d = .lengths then none else some .sequenceError
  | .decRdsym => if d = .ready then none else if d = .failed then some .streamCorruption else some .sequenceError
  | .decSync => if d = .ready then none else if d = .failed then some .streamCorruption else some .sequenceError
  | .decExit => none
  | .decRdlen _ => if d = .released then some .sequenceError else none
  | .decRdcode _ => if d = .ready ∨ d = .failed then none else some .sequenceError
  | .decRdcnt _ => if d = .ready ∨ d = .failed then none else some .sequenceError
  | .decRdmaxlen => if d = .ready ∨ d = .failed then none else some .sequenceError
  | .decRdfirst _ => if d = .ready ∨ d = .failed then none else some .sequenceError
  | .decRdoffset _ => if d = .ready ∨ d = .failed then none else some .sequenceError

/-! ### Lengths and codes -/

/-- A symbol's length in a list of lengths, symbol 0 first. -/
def lenAt (lens : List Nat) (s : Nat) : Nat := lens.getD s 0

/-- "`next = (next_at_previous_length + count_at_previous_length) << 1`", starting from 0 at length 1 (R131). -/
def startOf (lens : List Nat) : Nat → Nat
  | 0 => 0
  | l + 1 => (startOf lens l + if l = 0 then 0 else lens.count l) * 2

/-- The canonical code of a symbol: the start code of its length, and on by one for each lower symbol of that length (R13, R131). -/
def canonCode (lens : List Nat) (s : Nat) : Nat :=
  startOf lens (lenAt lens s) + (lens.take s).count (lenAt lens s)

/-- A code of `la` bits is a bit-prefix of a code of `lb` bits (R52). -/
def CodePrefix (la ca lb cb : Nat) : Prop := la ≤ lb ∧ cb / 2 ^ (lb - la) = ca

/-- "No used code is a bit-prefix of another" (R52), for symbols `0..n-1`. -/
def PrefixFree (n : Nat) (len code : Nat → Nat) : Prop :=
  ∀ a b, a < n → b < n → a ≠ b → len a ≠ 0 → len b ≠ 0 → ¬ CodePrefix (len a) (code a) (len b) (code b)

/-- The Kraft sum in units of `2^-k` (R8): `Σ 2^(k - len s)` over the used symbols of `0..n-1`. -/
def kraftUnits (k n : Nat) (len : Nat → Nat) : Nat :=
  ∑ s ∈ Finset.range n, if len s = 0 then 0 else 2 ^ (k - len s)

/-- The value of bits read one by one, `v <- (v << 1) | bit`: "the first bit read becomes the most significant bit" (R76). -/
def bitsValue (bits : List Bool) : Nat := bits.foldl (fun v b => 2 * v + b.toNat) 0

/-- `CodeSize[s]` and `FreqCode[s]` as naturals. -/
def Encoder.lenOf (u : Encoder) (s : Nat) : Nat := (symEntry u.codeSize s).toNat
def Encoder.codeOf (u : Encoder) (s : Nat) : Nat := (symEntry u.freqCode s).toNat

/-- `DLen[s]` and `DCode[s]` as naturals. -/
def Decoder.lenOf (u : Decoder) (s : Nat) : Nat := (symEntry u.dLen s).toNat
def Decoder.codeOf (u : Decoder) (s : Nat) : Nat := (symEntry u.dCode s).toNat

/-! ### Invariants -/

/-- The shape of an open encoder session: ranges (R34, R35), the geometry checked at INIT (R121), table sizes (R36 to R38) and the buffers
owned (R72, R73). -/
structure EncShape (p : Params) (u : Encoder) : Prop where
  e_pos : 1 ≤ u.e.toNat
  e_le : u.e.toNat ≤ 65536
  k_pos : 1 ≤ u.k.toNat
  k_le : u.k.toNat ≤ p.maxCodeBits
  e_le_pow : u.e.toNat ≤ 2 ^ u.k.toNat
  freq_size : u.freqCode.length = u.e.toNat
  size_size : u.codeSize.length = u.e.toNat
  count_size : u.eCount.length = p.maxCodeBits
  owns : u.buffers = encBuffers p u.e.toNat

/-- The shape of an open decoder session: table sizes (R44 to R46), legal lengths (R45) and the buffers owned (R72, R73). -/
structure DecShape (p : Params) (u : Decoder) : Prop where
  len_size : u.dLen.length = u.m.toNat + 1
  code_size : u.dCode.length = u.m.toNat + 1
  len_le : ∀ l ∈ nats u.dLen, l ≤ p.maxCodeBits
  owns : u.buffers = decBuffers p u.m.toNat

/-- HENC's session invariant: nothing owned in RELEASED, and in COUNTING every length and count still cleared (R33, R121). -/
def EncSession (p : Params) (u : Encoder) : Prop :=
  match u.state with
  | .released => u.buffers = []
  | .counting => EncShape p u ∧ (∀ l ∈ nats u.codeSize, l = 0) ∧ (∀ n ∈ nats u.eCount, n = 0)
  | .coded => EncShape p u ∧ u.nextCode.length = p.maxCodeBits

/-- The decoder's tables are those R172 gives for its lengths, and the lengths are not oversubscribed. -/
structure Reconstructed (p : Params) (u : Decoder) : Prop where
  kraft : kraftUnits p.maxCodeBits (u.m.toNat + 1) u.lenOf ≤ 2 ^ p.maxCodeBits
  counts : ∀ l, 1 ≤ l → l ≤ p.maxCodeBits → (lenEntry u.dCount l).toNat = (nats u.dLen).count l
  starts : ∀ l, 1 ≤ l → l ≤ p.maxCodeBits → (lenEntry u.first l).toNat = startOf (nats u.dLen) l
  offs : ∀ l, 1 ≤ l → l ≤ p.maxCodeBits →
    (lenEntry u.offset l).toNat = ∑ j ∈ Finset.Ico 1 l, (nats u.dLen).count j
  longest : u.maxLen.toNat = (nats u.dLen).foldr max 0
  codes : ∀ s, s ≤ u.m.toNat → u.lenOf s ≠ 0 → u.codeOf s = canonCode (nats u.dLen) s
  unused : ∀ s, s ≤ u.m.toNat → u.lenOf s = 0 → u.codeOf s = 0
  sorted : nats u.sortedSym = (List.range' 1 p.maxCodeBits).flatMap (symbolsOfLength (nats u.dLen))

/-- HDEC's session invariant: nothing owned in RELEASED, every code still cleared in LENGTHS (R170), the tables of R172 in READY and FAILED. -/
def DecSession (p : Params) (u : Decoder) : Prop :=
  match u.state with
  | .released => u.buffers = []
  | .lengths => DecShape p u ∧ (∀ c ∈ nats u.dCode, c = 0)
  | .ready => DecShape p u ∧ Reconstructed p u
  | .failed => DecShape p u ∧ Reconstructed p u

/-- The session invariant of the whole block. -/
def SessionInv (s : State) : Prop := EncSession s.params s.enc ∧ DecSession s.params s.dec

/-- What R52 promises of HENC in CODED, with the canonical codes of R131. -/
structure CodedLaws (p : Params) (u : Encoder) : Prop where
  len_le : ∀ s, s < u.e.toNat → u.lenOf s ≤ u.k.toNat
  kraft_le : kraftUnits u.k.toNat u.e.toNat u.lenOf ≤ 2 ^ u.k.toNat
  kraft_eq : 2 ≤ u.nz.toNat → kraftUnits u.k.toNat u.e.toNat u.lenOf = 2 ^ u.k.toNat
  codes : ∀ s, s < u.e.toNat → u.lenOf s ≠ 0 → u.codeOf s = canonCode (nats u.codeSize) s
  code_lt : ∀ s, s < u.e.toNat → u.lenOf s ≠ 0 → u.codeOf s < 2 ^ u.lenOf s
  prefix_free : PrefixFree u.e.toNat u.lenOf u.codeOf
  unused : ∀ s, s < u.e.toNat → u.lenOf s = 0 → u.codeOf s = 0
  counts : ∀ l, 1 ≤ l → l ≤ p.maxCodeBits → (lenEntry u.eCount l).toNat = (nats u.codeSize).count l
  longest : u.maxLen.toNat = (nats u.codeSize).foldr max 0
  used : u.nz.toNat = ((nats u.codeSize).filter (fun l => l != 0)).length

/-- R52 as an invariant of the block. -/
def CodedInv (s : State) : Prop := s.enc.state = .coded → CodedLaws s.params s.enc

/-! ### What a command may observe -/

/-- Two encoders agree on everything a command may read in their state (R251): the rest is unspecified or hidden. -/
structure SameEncoder (a b : Encoder) : Prop where
  state : a.state = b.state
  buffers : a.buffers = b.buffers
  opened : a.state ≠ .released →
    a.e = b.e ∧ a.k = b.k ∧ a.freqCode = b.freqCode ∧ a.codeSize = b.codeSize ∧ a.eCount = b.eCount
  coded : a.state = .coded → a.maxLen = b.maxLen ∧ a.nz = b.nz

/-- Two decoders agree on everything a command may read in their state (R251). -/
structure SameDecoder (a b : Decoder) : Prop where
  state : a.state = b.state
  buffers : a.buffers = b.buffers
  opened : a.state ≠ .released → a.m = b.m ∧ a.dLen = b.dLen ∧ a.dCode = b.dCode
  ready : a.state = .ready ∨ a.state = .failed →
    a.dCount = b.dCount ∧ a.maxLen = b.maxLen ∧ a.first = b.first ∧ a.offset = b.offset ∧ a.sortedSym = b.sortedSym

/-- Two states differ at most in unspecified registers, hidden registers and the count of free values drawn. -/
structure SameObservable (s t : State) : Prop where
  params : s.params = t.params
  enc : SameEncoder s.enc t.enc
  dec : SameDecoder s.dec t.dec
  host : s.host = t.host
  arena : s.arena = t.arena
  bitIO : s.bitIO = t.bitIO
  trace : s.trace = t.trace

/-! ### Running commands -/

/-- Run commands one after another, as long as each answers a next state. -/
def runCommands : List Instr → State → Option State
  | [], s => some s
  | i :: is, s =>
    match exec i s with
    | .next t => runCommands is t
    | .fault _ => none
    | .refused _ => none

/-- The status of the last response on the trace, if the trace ends in one. -/
def lastStatus (s : State) : Option (BitVec 4) :=
  match s.trace.getLast? with
  | some (.response w) => some (rspStatus w)
  | _ => none

/-- The bits of a `len`-bit code in stream order, "its bit `len-1` is the first bit on the compressed stream" (R76). -/
def bitsOfCode (len code : Nat) : List Bool := (List.range len).map (fun i => code.testBit (len - 1 - i))

/-- The events a step added to the ports, `s` before and `t` after. -/
def newEvents (s t : State) : List PortEvent := t.trace.drop s.trace.length

/-- `n` bits have been read from the source, and the reads are on the ports (R173, R176). -/
def State.consumed (n : Nat) (s : State) : State :=
  { s with
    bitIO := { s.bitIO with consumed := s.bitIO.consumed + n, bits := s.bitIO.bits.drop n }
    trace := s.trace ++ (s.bitIO.bits.take n).map (fun b => .bitRead (.bit b)) }

/-- A code of the step table matches the first `n` bits of a source (R173). -/
def MatchesAt (u : Decoder) (bits : List Bool) (n : Nat) : Prop :=
  0 < (lenEntry u.dCount n).toNat ∧ (lenEntry u.first n).toNat ≤ bitsValue (bits.take n) ∧
    bitsValue (bits.take n) < (lenEntry u.first n).toNat + (lenEntry u.dCount n).toNat

end Sys2Proof.Machine
end

