-- ==== Sys2Proof/Certificates/Slice0/Obligations.lean ====
section
/-! DEFINITION. The statements for the provers, from the numbered rules of spec/. -/

open Sys2Proof Sys2Proof.Machine

/-! ### Words -/

/-- Guide (a): no bit of an encoding is dropped, for every command and every operand its fields admit (R91, R94, R95). -/
def Obligations.DecodeOfEncodeIsIdentity : Prop :=
  ∀ i : Instr, i.wellFormed = true → decode (encode i) = .ok i

/-- The other direction: a word has one meaning only, and that meaning spells the word (R97). -/
def Obligations.EncodeOfDecodeIsIdentity : Prop :=
  ∀ (w : CmdWord) (i : Instr), decode w = .ok i → i.wellFormed = true ∧ encode i = w

/-- R91, R93: the fields of an assembled word are the three numbers it was assembled from, untouched. -/
def Obligations.AssembledWordHoldsItsFields : Prop :=
  ∀ op a b : Nat, op < 2 ^ 8 → a < 2 ^ 24 → b < 2 ^ 32 →
    (fieldOp (assembledWord op a b)).toNat = op ∧
    (fieldA (assembledWord op a b)).toNat = a ∧
    (fieldB (assembledWord op a b)).toNat = b

/-- R95: a word matches a row of the table under the row's mask exactly when it decodes to that row's command. -/
def Obligations.MatchAndMaskAgreeWithDecode : Prop :=
  ∀ r ∈ opcodeTable, ∀ w : CmdWord,
    r.matchesWord w = true ↔ ∃ i : Instr, decode w = .ok i ∧ i.mnemonic = r.mnemonic

/-- R96, R97: the illegal words, and that one changes nothing but for the response, in every state of the units. -/
def Obligations.IllegalWordsAreRefusedWhole : Prop :=
  ∀ w : CmdWord,
    ((∃ e, decode w = .error e) ↔
      (w.toNat % 256 ≤ 0x0F ∨ (0x19 ≤ w.toNat % 256 ∧ w.toNat % 256 ≤ 0x1F) ∨ 0x2C ≤ w.toNat % 256) ∨
      (w.toNat % 256 ∈ [0x12, 0x13, 0x17, 0x18, 0x22, 0x23, 0x24, 0x25, 0x29] ∧ w.toNat / 256 ≠ 0) ∨
      (w.toNat % 256 ∈ [0x14, 0x15, 0x16, 0x20, 0x26, 0x27, 0x28, 0x2A, 0x2B] ∧ w.toNat / 2 ^ 32 ≠ 0)) ∧
    (∀ (e : IllegalWord) (s : State), decode w = .error e →
      runWord w s = .next { s with trace := s.trace ++ [.response 0x0000000700000000] })

/-- R100: the worked encodings. -/
def Obligations.WorkedEncodingsDecode : Prop :=
  decode 0x0000000800000510 = .ok (.encInit 5 8) ∧
  decode 0x0000000500000011 = .ok (.encCount 0 5) ∧
  decode 0x0000000000000012 = .ok .encCreate ∧
  decode 0x0000000000000414 = .ok (.encRdfc 4) ∧
  decode 0x0000000000000420 = .ok (.decInit 4) ∧
  decode 0x0000000300000021 = .ok (.decSetlen 0 3) ∧
  decode 0x0000000000000023 = .ok .decRdsym ∧
  decode 0x0000002001000010 = .ok (.encInit 65536 32)

/-- A step runs the decoded command: the host's oldest word is taken and executed (R32, R97). -/
def Obligations.StepRunsTheDecodedCommand : Prop :=
  ∀ (s : State) (w : CmdWord) (rest : List HostEvent) (i : Instr),
    s.host = .command w :: rest → decode w = .ok i → step s = exec i { s with host := rest }

/-- R252 with log 1: with no command the block waits, and the machine right after reset does. -/
def Obligations.StepWaitsForACommand : Prop :=
  (∀ s : State, s.host = [] → step s = .next s) ∧ step State.reset = .next State.reset

/-- R92: every command adds its requests and then exactly one response to what the block has sent, and the fields of that response. -/
def Obligations.EveryCommandRespondsOnce : Prop :=
  ∀ (i : Instr) (s t : State), exec i s = .next t →
    ∃ (st : Status) (r : Result) (w : RspWord),
      t.trace = s.trace ++ requestsOf i s ++ [.response w] ∧
      (∀ v, PortEvent.response v ∉ requestsOf i s) ∧
      w.toNat = st.code.toNat * 2 ^ 32 + r.toNat ∧ w.toNat < 2 ^ 36 ∧
      (st.code ≠ 0 → r = 0)

/-- R220: the statuses each command may return, by number; 8 to 15 are among none. -/
def Obligations.StatusesOfEachCommand : Prop :=
  ∀ (i : Instr) (s t : State), exec i s = .next t →
    ∃ c ∈ (match i with
        | .encInit _ _ => [0, 1, 2, 5]
        | .encCount _ _ => [0, 5, 6]
        | .encCreate => [0, 5]
        | .encExit => [0]
        | .encRdfc _ => [0, 5, 6]
        | .encRdlen _ => [0, 5, 6]
        | .encRdcnt _ => [0, 5, 6]
        | .encRdmaxlen => [0, 5]
        | .encRdnz => [0, 5]
        | .decInit _ => [0, 1, 2, 5]
        | .decSetlen _ _ => [0, 4, 5, 6]
        | .decRecon => [0, 4, 5]
        | .decRdsym => [0, 3, 5]
        | .decSync => [0, 3, 5]
        | .decExit => [0]
        | .decRdlen _ => [0, 5, 6]
        | .decRdcode _ => [0, 5, 6]
        | .decRdcnt _ => [0, 5, 6]
        | .decRdmaxlen => [0, 5]
        | .decRdfirst _ => [0, 5, 6]
        | .decRdoffset _ => ([0, 5, 6] : List Nat)),
      lastStatus t = some (BitVec.ofNat 4 c)

/-! ### The encoder -/

/-- R121. Which buffers "buffers for E, MAX_CODE_BITS" are is `encBuffers`, as log 14 reads R72. -/
def Obligations.EncInitFollowsItsRule : Prop :=
  (∀ e k, e < 2 ^ 24 → k < 2 ^ 32 → decode (assembledWord 0x10 e k) = .ok (.encInit e k)) ∧
  ∀ (e k : Nat) (s : State),
    (s.enc.state ≠ .released → exec (.encInit e k) s = .next (s.raise .sequenceError)) ∧
    (s.enc.state = .released → e < 1 ∨ 65536 < e ∨ k < 1 ∨ s.params.maxCodeBits < k ∨ 2 ^ k < e →
      exec (.encInit e k) s = .next (s.raise .invalidConfiguration)) ∧
    (s.enc.state = .released → 1 ≤ e → e ≤ 65536 → 1 ≤ k → k ≤ s.params.maxCodeBits → e ≤ 2 ^ k →
      (s.arenaAnswer = false → exec (.encInit e k) s = .next
        ((s.exchange (.arenaRequest .henc (encBuffers s.params e) false)).raise .outOfMemory)) ∧
      (s.arenaAnswer = true → ∃ u : Encoder,
        exec (.encInit e k) s = .next
          (((s.exchange (.arenaRequest .henc (encBuffers s.params e) true)).setEnc u).respond .ok 0) ∧
        u.state = .counting ∧ u.e.toNat = e ∧ u.k.toNat = k ∧
        u.freqCode = List.replicate e 0 ∧ u.codeSize = List.replicate e 0 ∧
        u.eCount = List.replicate s.params.maxCodeBits 0 ∧ u.buffers = encBuffers s.params e ∧
        u.maxLen = s.enc.maxLen ∧ u.nz = s.enc.nz ∧ u.nextCode = s.enc.nextCode ∧ u.work = s.enc.work))

/-- R122. -/
def Obligations.EncCountFollowsItsRule : Prop :=
  (∀ sym n, sym < 2 ^ 24 → n < 2 ^ 32 → decode (assembledWord 0x11 sym n) = .ok (.encCount sym n)) ∧
  ∀ (sym n : Nat) (s : State),
    (s.enc.state ≠ .counting → exec (.encCount sym n) s = .next (s.raise .sequenceError)) ∧
    (s.enc.state = .counting → s.enc.e.toNat ≤ sym →
      exec (.encCount sym n) s = .next (s.raise .invalidArgument)) ∧
    (s.enc.state = .counting → s.enc.freqCode.length = s.enc.e.toNat → sym < s.enc.e.toNat →
      ∃ fc : List (BitVec 32),
        exec (.encCount sym n) s = .next ((s.setEnc { s.enc with freqCode := fc }).respond .ok 0) ∧
        fc.length = s.enc.freqCode.length ∧
        (symEntry fc sym).toNat = ((symEntry s.enc.freqCode sym).toNat + n) % 2 ^ 32 ∧
        ∀ x, x ≠ sym → symEntry fc x = symEntry s.enc.freqCode x)

/-- R123 with the lengths of R130 and the codes of R131. A code is stated as it is stored, in 32 bits; that it fits is
`CreateEstablishesTheCodedLaws`. -/
def Obligations.EncCreateFollowsItsRule : Prop :=
  decode (assembledWord 0x12 0 0) = .ok .encCreate ∧
  ∀ s : State,
    (s.enc.state ≠ .counting → exec .encCreate s = .next (s.raise .sequenceError)) ∧
    (s.enc.state = .counting → EncSession s.params s.enc →
      ∃ u : Encoder,
        exec .encCreate s = .next (((s.setEnc u).drawn).respond .ok 0) ∧
        u.state = .coded ∧ u.e = s.enc.e ∧ u.k = s.enc.k ∧ u.buffers = s.enc.buffers ∧
        u.freqCode.length = s.enc.e.toNat ∧ u.codeSize.length = s.enc.e.toNat ∧
        (let f := fun x => (symEntry s.enc.freqCode x).toNat
         let used := (List.range s.enc.e.toNat).filter (fun x => f x != 0)
         u.nz.toNat = used.length ∧
         (∀ x, x < s.enc.e.toNat → f x = 0 → u.lenOf x = 0 ∧ u.codeOf x = 0) ∧
         (used.length = 1 → ∀ x ∈ used, u.lenOf x = 1) ∧
         (2 ≤ used.length → ∀ x ∈ used, u.lenOf x = lengthAssign f used s.enc.k.toNat x)) ∧
        u.maxLen.toNat = (nats u.codeSize).foldr max 0 ∧
        (∀ l, 1 ≤ l → l ≤ s.params.maxCodeBits →
          (lenEntry u.eCount l).toNat = (nats u.codeSize).count l ∧
          lenEntry u.nextCode l = BitVec.ofNat 33 (startOf (nats u.codeSize) l + (nats u.codeSize).count l)) ∧
        (∀ x, x < s.enc.e.toNat → u.lenOf x ≠ 0 →
          symEntry u.freqCode x = BitVec.ofNat 32 (canonCode (nats u.codeSize) x)))

/-- R124. The other registers of HENC are free: the statement holds for every value of them. -/
def Obligations.EncExitFollowsItsRule : Prop :=
  decode (assembledWord 0x13 0 0) = .ok .encExit ∧
  ∀ s : State,
    (s.enc.state = .released → exec .encExit s = .next (s.respond .ok 0)) ∧
    (s.enc.state ≠ .released → ∃ u : Encoder, u.state = .released ∧ u.buffers = [] ∧
      exec .encExit s = .next
        ((((s.exchange (.arenaRelease .henc s.enc.buffers)).setEnc u).drawn).respond .ok 0))

/-- R125 to R129: the encoder's read-outs, whole. -/
def Obligations.EncoderReadOutsFollowTheirRules : Prop :=
  (∀ a, a < 2 ^ 24 → decode (assembledWord 0x14 a 0) = .ok (.encRdfc a) ∧
    decode (assembledWord 0x15 a 0) = .ok (.encRdlen a) ∧ decode (assembledWord 0x16 a 0) = .ok (.encRdcnt a)) ∧
  decode (assembledWord 0x17 0 0) = .ok .encRdmaxlen ∧ decode (assembledWord 0x18 0 0) = .ok .encRdnz ∧
  ∀ (a : Nat) (s : State),
    (s.enc.state = .released → exec (.encRdfc a) s = .next (s.raise .sequenceError)) ∧
    (s.enc.state ≠ .released → s.enc.e.toNat ≤ a → exec (.encRdfc a) s = .next (s.raise .invalidArgument)) ∧
    (s.enc.state ≠ .released → a < s.enc.e.toNat →
      exec (.encRdfc a) s = .next (s.respond .ok (BitVec.ofNat 32 (s.enc.codeOf a)))) ∧
    (s.enc.state ≠ .coded →
      exec (.encRdlen a) s = .next (s.raise .sequenceError) ∧ exec (.encRdcnt a) s = .next (s.raise .sequenceError) ∧
      exec .encRdmaxlen s = .next (s.raise .sequenceError) ∧ exec .encRdnz s = .next (s.raise .sequenceError)) ∧
    (s.enc.state = .coded →
      (s.enc.e.toNat ≤ a → exec (.encRdlen a) s = .next (s.raise .invalidArgument)) ∧
      (a < s.enc.e.toNat → exec (.encRdlen a) s = .next (s.respond .ok (BitVec.ofNat 32 (s.enc.lenOf a)))) ∧
      (a < 1 ∨ s.params.maxCodeBits < a → exec (.encRdcnt a) s = .next (s.raise .invalidArgument)) ∧
      (1 ≤ a → a ≤ s.params.maxCodeBits →
        exec (.encRdcnt a) s = .next (s.respond .ok (BitVec.ofNat 32 (lenEntry s.enc.eCount a).toNat))) ∧
      exec .encRdmaxlen s = .next (s.respond .ok (BitVec.ofNat 32 s.enc.maxLen.toNat)) ∧
      exec .encRdnz s = .next (s.respond .ok (BitVec.ofNat 32 s.enc.nz.toNat)))

/-- R120, R169: in a cell with a status the command returns it and changes nothing else, and in an "op" cell it never returns
`SequenceError`. -/
def Obligations.LegalityTablesHold : Prop :=
  ∀ (i : Instr) (s : State),
    (∀ st, legalityCell i s.enc.state s.dec.state = some st → exec i s = .next (s.raise st)) ∧
    (legalityCell i s.enc.state s.dec.state = none → ∀ t, exec i s = .next t → lastStatus t ≠ some 5)

/-- R132 (a) and (b): package-merge's lengths are within the limit and complete. -/
def Obligations.PackageMergeIsLimitedAndComplete : Prop :=
  ∀ (f : Nat → Nat) (syms : List Nat) (k : Nat), syms.Nodup → 2 ≤ syms.length → syms.length ≤ 2 ^ k →
    (∀ x ∈ syms, 1 ≤ lengthAssign f syms k x ∧ lengthAssign f syms k x ≤ k) ∧
    (syms.map (fun x => 2 ^ (k - lengthAssign f syms k x))).sum = 2 ^ k

/-- R132 (c): no length vector within the limit and the Kraft inequality has a smaller weighted sum. -/
def Obligations.PackageMergeIsOptimal : Prop :=
  ∀ (f : Nat → Nat) (syms : List Nat) (k : Nat), syms.Nodup → 2 ≤ syms.length → syms.length ≤ 2 ^ k →
    ∀ g : Nat → Nat, (∀ x ∈ syms, 1 ≤ g x ∧ g x ≤ k) →
      (syms.map (fun x => 2 ^ (k - g x))).sum ≤ 2 ^ k →
      (syms.map (fun x => f x * lengthAssign f syms k x)).sum ≤ (syms.map (fun x => f x * g x)).sum

/-- R52: what `ENC.CREATE` leaves in CODED. -/
def Obligations.CreateEstablishesTheCodedLaws : Prop :=
  ∀ s t : State, s.enc.state = .counting → EncSession s.params s.enc → exec .encCreate s = .next t →
    t.enc.state = .coded ∧ CodedLaws t.params t.enc ∧
    ∀ x, x < t.enc.e.toNat → (t.enc.lenOf x ≠ 0 ↔ symEntry s.enc.freqCode x ≠ 0)

/-- R133: the result of `ENC.CREATE` depends on the frequencies and `ENC_K` alone, not on `MAX_CODE_BITS`. -/
def Obligations.CreateIsAFunctionOfCountsAndLimit : Prop :=
  ∀ s s' t t' : State, s.enc.state = .counting → s'.enc.state = .counting →
    EncSession s.params s.enc → EncSession s'.params s'.enc →
    s.enc.freqCode = s'.enc.freqCode → s.enc.k = s'.enc.k →
    exec .encCreate s = .next t → exec .encCreate s' = .next t' →
    t.enc.codeSize = t'.enc.codeSize ∧ t.enc.freqCode = t'.enc.freqCode ∧
    t.enc.maxLen = t'.enc.maxLen ∧ t.enc.nz = t'.enc.nz ∧
    ∀ l, 1 ≤ l → l ≤ s.params.maxCodeBits → l ≤ s'.params.maxCodeBits →
      lenEntry t.enc.eCount l = lenEntry t'.enc.eCount l

/-! ### The decoder -/

/-- R170. Which buffers "buffers for M+1, MAX_CODE_BITS" are is `decBuffers`, as log 14 reads R72. -/
def Obligations.DecInitFollowsItsRule : Prop :=
  (∀ m, m < 2 ^ 24 → decode (assembledWord 0x20 m 0) = .ok (.decInit m)) ∧
  ∀ (m : Nat) (s : State),
    (s.dec.state ≠ .released → exec (.decInit m) s = .next (s.raise .sequenceError)) ∧
    (s.dec.state = .released → 65535 < m → exec (.decInit m) s = .next (s.raise .invalidConfiguration)) ∧
    (s.dec.state = .released → m ≤ 65535 →
      (s.arenaAnswer = false → exec (.decInit m) s = .next
        ((s.exchange (.arenaRequest .hdec (decBuffers s.params m) false)).raise .outOfMemory)) ∧
      (s.arenaAnswer = true → ∃ u : Decoder,
        exec (.decInit m) s = .next
          (((s.exchange (.arenaRequest .hdec (decBuffers s.params m) true)).setDec u).respond .ok 0) ∧
        u.state = .lengths ∧ u.m.toNat = m ∧
        u.dLen = List.replicate (m + 1) 0 ∧ u.dCode = List.replicate (m + 1) 0 ∧
        u.buffers = decBuffers s.params m ∧
        u.dCount = s.dec.dCount ∧ u.maxLen = s.dec.maxLen ∧ u.first = s.dec.first ∧
        u.offset = s.dec.offset ∧ u.sortedSym = s.dec.sortedSym))

/-- R171. -/
def Obligations.DecSetlenFollowsItsRule : Prop :=
  (∀ sym l, sym < 2 ^ 24 → l < 2 ^ 32 → decode (assembledWord 0x21 sym l) = .ok (.decSetlen sym l)) ∧
  ∀ (sym l : Nat) (s : State),
    (s.dec.state ≠ .lengths → exec (.decSetlen sym l) s = .next (s.raise .sequenceError)) ∧
    (s.dec.state = .lengths → s.dec.m.toNat < sym →
      exec (.decSetlen sym l) s = .next (s.raise .invalidArgument)) ∧
    (s.dec.state = .lengths → sym ≤ s.dec.m.toNat → s.params.maxCodeBits < l →
      exec (.decSetlen sym l) s = .next (s.raise .invalidCodeLengths)) ∧
    (s.dec.state = .lengths → s.dec.dLen.length = s.dec.m.toNat + 1 → sym ≤ s.dec.m.toNat →
      l ≤ s.params.maxCodeBits →
      ∃ dl : List (BitVec 6),
        exec (.decSetlen sym l) s = .next ((s.setDec { s.dec with dLen := dl }).respond .ok 0) ∧
        dl.length = s.dec.dLen.length ∧ (symEntry dl sym).toNat = l ∧
        ∀ x, x ≠ sym → symEntry dl x = symEntry s.dec.dLen x)

/-- R172. -/
def Obligations.DecReconFollowsItsRule : Prop :=
  decode (assembledWord 0x22 0 0) = .ok .decRecon ∧
  ∀ s : State,
    (s.dec.state ≠ .lengths → exec .decRecon s = .next (s.raise .sequenceError)) ∧
    (s.dec.state = .lengths → DecSession s.params s.dec →
      (2 ^ s.params.maxCodeBits < kraftUnits s.params.maxCodeBits (s.dec.m.toNat + 1) s.dec.lenOf →
        exec .decRecon s = .next (s.raise .invalidCodeLengths)) ∧
      (kraftUnits s.params.maxCodeBits (s.dec.m.toNat + 1) s.dec.lenOf ≤ 2 ^ s.params.maxCodeBits →
        ∃ u : Decoder,
          exec .decRecon s = .next ((s.setDec u).respond .ok 0) ∧
          u.state = .ready ∧ u.m = s.dec.m ∧ u.dLen = s.dec.dLen ∧ u.buffers = s.dec.buffers ∧
          u.dCode.length = s.dec.dCode.length ∧ Reconstructed s.params u ∧
          ∀ l, 1 ≤ l → l ≤ s.params.maxCodeBits →
            (lenEntry u.first l).toNat ≤ 2 ^ l ∧
            (l ≤ u.maxLen.toNat → (lenEntry u.first l).toNat + (lenEntry u.dCount l).toNat ≤ 2 ^ l)))

/-- R173: the first length at which the bits match decides; else no match, or the end of the stream. A read that is never answered is
`OnlyAnUnansweredReadStops`. -/
def Obligations.DecRdsymFollowsItsRule : Prop :=
  decode (assembledWord 0x23 0 0) = .ok .decRdsym ∧
  ∀ s : State,
    (s.dec.state = .failed → exec .decRdsym s = .next (s.raise .streamCorruption)) ∧
    (s.dec.state = .released ∨ s.dec.state = .lengths → exec .decRdsym s = .next (s.raise .sequenceError)) ∧
    (s.dec.state = .ready →
      (∀ n, 1 ≤ n → n ≤ s.dec.maxLen.toNat → n ≤ s.bitIO.bits.length → MatchesAt s.dec s.bitIO.bits n →
        (∀ j, 1 ≤ j → j < n → ¬ MatchesAt s.dec s.bitIO.bits j) →
        exec .decRdsym s = .next ((s.consumed n).respond .ok
          ((symEntry s.dec.sortedSym ((lenEntry s.dec.offset n).toNat +
            (bitsValue (s.bitIO.bits.take n) - (lenEntry s.dec.first n).toNat))).setWidth 32))) ∧
      (s.dec.maxLen.toNat ≤ s.bitIO.bits.length →
        (∀ j, 1 ≤ j → j ≤ s.dec.maxLen.toNat → ¬ MatchesAt s.dec s.bitIO.bits j) →
        exec .decRdsym s = .next
          (((s.consumed s.dec.maxLen.toNat).setDec { s.dec with state := .failed }).raise .streamCorruption)) ∧
      (s.bitIO.bits.length < s.dec.maxLen.toNat →
        (∀ j, 1 ≤ j → j ≤ s.bitIO.bits.length → ¬ MatchesAt s.dec s.bitIO.bits j) →
        s.bitIO.ending = .eos → exec .decRdsym s = .next
          ((((s.consumed s.bitIO.bits.length).exchange (.bitRead .eos)).setDec
            { s.dec with state := .failed }).raise .streamCorruption)))

/-- R174, R177: one align request, whose effect is the collaborator's parameter, whatever it is. -/
def Obligations.DecSyncFollowsItsRule : Prop :=
  decode (assembledWord 0x24 0 0) = .ok .decSync ∧
  ∀ s : State,
    (s.dec.state = .failed → exec .decSync s = .next (s.raise .streamCorruption)) ∧
    (s.dec.state = .released ∨ s.dec.state = .lengths → exec .decSync s = .next (s.raise .sequenceError)) ∧
    (s.dec.state = .ready → exec .decSync s = .next
      { s with bitIO := Config.align s.params.inst s.bitIO, trace := s.trace ++ [.bitAlign, .response 0] })

/-- R175. The other registers of HDEC are free: the statement holds for every value of them. -/
def Obligations.DecExitFollowsItsRule : Prop :=
  decode (assembledWord 0x25 0 0) = .ok .decExit ∧
  ∀ s : State,
    (s.dec.state = .released → exec .decExit s = .next (s.respond .ok 0)) ∧
    (s.dec.state ≠ .released → ∃ u : Decoder, u.state = .released ∧ u.buffers = [] ∧
      exec .decExit s = .next
        ((((s.exchange (.arenaRelease .hdec s.dec.buffers)).setDec u).drawn).respond .ok 0))

/-- R178 to R183: the decoder's read-outs, whole. The value of `DEC.RDFIRST` is stated for a decoder with the tables of R172. -/
def Obligations.DecoderReadOutsFollowTheirRules : Prop :=
  (∀ a, a < 2 ^ 24 → decode (assembledWord 0x26 a 0) = .ok (.decRdlen a) ∧
    decode (assembledWord 0x27 a 0) = .ok (.decRdcode a) ∧ decode (assembledWord 0x28 a 0) = .ok (.decRdcnt a) ∧
    decode (assembledWord 0x2A a 0) = .ok (.decRdfirst a) ∧ decode (assembledWord 0x2B a 0) = .ok (.decRdoffset a)) ∧
  decode (assembledWord 0x29 0 0) = .ok .decRdmaxlen ∧
  ∀ (a : Nat) (s : State),
    (s.dec.state = .released → exec (.decRdlen a) s = .next (s.raise .sequenceError)) ∧
    (s.dec.state ≠ .released → s.dec.m.toNat < a → exec (.decRdlen a) s = .next (s.raise .invalidArgument)) ∧
    (s.dec.state ≠ .released → a ≤ s.dec.m.toNat →
      exec (.decRdlen a) s = .next (s.respond .ok (BitVec.ofNat 32 (s.dec.lenOf a)))) ∧
    (s.dec.state = .released ∨ s.dec.state = .lengths →
      exec (.decRdcode a) s = .next (s.raise .sequenceError) ∧ exec (.decRdcnt a) s = .next (s.raise .sequenceError) ∧
      exec .decRdmaxlen s = .next (s.raise .sequenceError) ∧ exec (.decRdfirst a) s = .next (s.raise .sequenceError) ∧
      exec (.decRdoffset a) s = .next (s.raise .sequenceError)) ∧
    (s.dec.state = .ready ∨ s.dec.state = .failed →
      (s.dec.m.toNat < a → exec (.decRdcode a) s = .next (s.raise .invalidArgument)) ∧
      (a ≤ s.dec.m.toNat → exec (.decRdcode a) s = .next (s.respond .ok (BitVec.ofNat 32 (s.dec.codeOf a)))) ∧
      (a < 1 ∨ s.params.maxCodeBits < a → exec (.decRdcnt a) s = .next (s.raise .invalidArgument)) ∧
      (1 ≤ a → a ≤ s.params.maxCodeBits →
        exec (.decRdcnt a) s = .next (s.respond .ok (BitVec.ofNat 32 (lenEntry s.dec.dCount a).toNat))) ∧
      exec .decRdmaxlen s = .next (s.respond .ok (BitVec.ofNat 32 s.dec.maxLen.toNat)) ∧
      (a < 1 ∨ s.dec.maxLen.toNat < a →
        exec (.decRdfirst a) s = .next (s.raise .invalidArgument) ∧
        exec (.decRdoffset a) s = .next (s.raise .invalidArgument)) ∧
      (1 ≤ a → a ≤ s.dec.maxLen.toNat →
        exec (.decRdfirst a) s = .next (s.respond .ok (BitVec.ofNat 32 (lenEntry s.dec.first a).toNat)) ∧
        exec (.decRdoffset a) s = .next (s.respond .ok (BitVec.ofNat 32 (lenEntry s.dec.offset a).toNat)) ∧
        (DecSession s.params s.dec → (lenEntry s.dec.first a).toNat < 2 ^ a)))

/-- R53: in READY or FAILED the lengths satisfy Kraft, the codes fit and are prefix-free, and they are the codes HENC gives for the same
length table. -/
def Obligations.ReconstructedCodesArePrefixFree : Prop :=
  ∀ s : State, DecSession s.params s.dec → s.dec.state = .ready ∨ s.dec.state = .failed →
    kraftUnits s.params.maxCodeBits (s.dec.m.toNat + 1) s.dec.lenOf ≤ 2 ^ s.params.maxCodeBits ∧
    (∀ x, x ≤ s.dec.m.toNat → s.dec.lenOf x ≠ 0 → s.dec.codeOf x < 2 ^ s.dec.lenOf x) ∧
    PrefixFree (s.dec.m.toNat + 1) s.dec.lenOf s.dec.codeOf ∧
    ∀ u : Encoder, EncShape s.params u → CodedLaws s.params u → u.codeSize = s.dec.dLen →
      ∀ x, x ≤ s.dec.m.toNat → s.dec.lenOf x ≠ 0 → s.dec.codeOf x = u.codeOf x

/-- R184: what `DEC.RDSYM` returns is the used symbol whose code the stream begins with, found after exactly its length in bits, and it finds
every such symbol. -/
def Obligations.DecodingAgreesWithSearchingTheCodes : Prop :=
  ∀ s : State, DecSession s.params s.dec → s.dec.state = .ready →
    (∀ t, exec .decRdsym s = .next t → lastStatus t = some 0 →
      ∃ n x, 1 ≤ n ∧ n ≤ s.bitIO.bits.length ∧ x ≤ s.dec.m.toNat ∧
        t = (s.consumed n).respond .ok (BitVec.ofNat 32 x) ∧
        s.dec.lenOf x = n ∧ s.dec.codeOf x = bitsValue (s.bitIO.bits.take n) ∧
        ∀ j y, 1 ≤ j → j < n → y ≤ s.dec.m.toNat → s.dec.lenOf y = j →
          s.dec.codeOf y ≠ bitsValue (s.bitIO.bits.take j)) ∧
    (∀ x, x ≤ s.dec.m.toNat → s.dec.lenOf x ≠ 0 → s.dec.lenOf x ≤ s.bitIO.bits.length →
      s.dec.codeOf x = bitsValue (s.bitIO.bits.take (s.dec.lenOf x)) →
      exec .decRdsym s = .next ((s.consumed (s.dec.lenOf x)).respond .ok (BitVec.ofNat 32 x)))

/-- R185: an encoder's length table, fed to a decoder session of the same alphabet, gives back the encoder's codes, and decoding the bits of a
symbol's code gives that symbol. -/
def Obligations.EncoderAndDecoderRoundTrip : Prop :=
  ∀ (u : Encoder) (s : State), EncShape s.params u → CodedLaws s.params u →
    s.dec.state = .lengths → DecSession s.params s.dec → s.dec.m.toNat + 1 = u.e.toNat →
    ∃ t, runCommands (decSetlensFrom 0 (nats u.codeSize) ++ [.decRecon]) s = some t ∧
      lastStatus t = some 0 ∧ t.dec.state = .ready ∧
      (∀ x, x < u.e.toNat → u.lenOf x ≠ 0 → t.dec.codeOf x = u.codeOf x) ∧
      ∀ (r : State) (x : Nat) (rest : List Bool), r.dec = t.dec → r.params = t.params →
        x < u.e.toNat → u.lenOf x ≠ 0 →
        r.bitIO.bits = bitsOfCode (u.lenOf x) (u.codeOf x) ++ rest →
        exec .decRdsym r = .next ((r.consumed (u.lenOf x)).respond .ok (BitVec.ofNat 32 x))

/-- R186: at most `DEC_MAXLEN` reads, and at most `MAX_CODE_BITS`. -/
def Obligations.RdsymReadsAtMostTheLongestLength : Prop :=
  ∀ s : State, DecSession s.params s.dec →
    (requestsOf .decRdsym s).length ≤ s.dec.maxLen.toNat ∧
    (s.dec.state = .ready → s.dec.maxLen.toNat ≤ s.params.maxCodeBits)

/-- R173, corner cases: "For a complete code, no-match cannot happen. Only `EOS` gives corruption". -/
def Obligations.CompleteCodeAlwaysMatches : Prop :=
  ∀ s t : State, DecSession s.params s.dec → s.dec.state = .ready →
    kraftUnits s.params.maxCodeBits (s.dec.m.toNat + 1) s.dec.lenOf = 2 ^ s.params.maxCodeBits →
    exec .decRdsym s = .next t → lastStatus t = some 3 →
    PortEvent.bitRead .eos ∈ newEvents s t

/-! ### The whole machine -/

/-- The machine right after reset meets the session invariant and R52. -/
def Obligations.ResetMeetsTheInvariants : Prop :=
  SessionInv State.reset ∧ CodedInv State.reset ∧
    State.reset.enc.state.code = 0 ∧ State.reset.dec.state.code = 0

/-- Every step keeps the session invariant, from every state that meets it: table sizes, legal lengths, cleared tables before CREATE and RECON,
the tables of R172 afterwards (R53), and buffers owned exactly from INIT to EXIT (R73). -/
def Obligations.StepKeepsTheSessionInvariant : Prop :=
  ∀ s t : State, SessionInv s → step s = .next t → SessionInv t

/-- Every step keeps the laws of R52 true in CODED. -/
def Obligations.StepKeepsTheCodedLaws : Prop :=
  ∀ s t : State, SessionInv s → CodedInv s → step s = .next t → CodedInv t

/-- R251: "No command can observe an unspecified value": two machines that differ only in unspecified or hidden registers send the same on their
ports and stay so. -/
def Obligations.UnspecifiedValuesAreUnobservable : Prop :=
  ∀ s s' : State, SameObservable s s' →
    (∃ t t', step s = .next t ∧ step s' = .next t' ∧ SameObservable t t') ∨
    (∃ r, step s = .fault r ∧ step s' = .fault r)

/-- R225: a command of one unit leaves the other unit as it was, and a step of one instance leaves every other instance as it was. -/
def Obligations.UnitsAndInstancesAreIsolated : Prop :=
  (∀ (i : Instr) (s t : State), exec i s = .next t →
    (isEncoderCommand i = true → t.dec = s.dec ∧ t.bitIO = s.bitIO) ∧
    (isEncoderCommand i = false → t.enc = s.enc) ∧ t.params = s.params ∧ t.host = s.host) ∧
  (∀ (n k : Nat) (sys sys' : System), sys.stepAt n = .next sys' → k ≠ n →
    sys'.blocks[k]? = sys.blocks[k]?)

/-- R223: a command that fails changes nothing but for its response, with the rule's two exceptions, and the two EXITs never fail. -/
def Obligations.FailuresArePrecise : Prop :=
  ∀ (i : Instr) (s t : State), exec i s = .next t → lastStatus t ≠ some 0 →
    i ≠ .encExit ∧ i ≠ .decExit ∧
    ((∃ st, t = s.raise st) ∨
      (i = .decRdsym ∧ s.dec.state = .ready ∧
        t = ((s.exchanges (requestsOf i s)).setDec { s.dec with state := .failed }).raise .streamCorruption) ∨
      (∃ e k, i = .encInit e k ∧
        t = (s.exchange (.arenaRequest .henc (encBuffers s.params e) false)).raise .outOfMemory) ∨
      (∃ m, i = .decInit m ∧
        t = (s.exchange (.arenaRequest .hdec (decBuffers s.params m) false)).raise .outOfMemory))

/-- R33, R43: the only transitions of the two unit states, and their encodings. -/
def Obligations.UnitStateTransitions : Prop :=
  (EncState.released.code = 0 ∧ EncState.counting.code = 1 ∧ EncState.coded.code = 2 ∧ ∀ e : EncState, e.code ≠ 3) ∧
  (DecState.released.code = 0 ∧ DecState.lengths.code = 1 ∧ DecState.ready.code = 2 ∧ DecState.failed.code = 3) ∧
  ∀ (i : Instr) (s t : State), exec i s = .next t →
    (t.enc.state = s.enc.state ∨
      (∃ e k, i = .encInit e k ∧ s.enc.state = .released ∧ t.enc.state = .counting ∧ lastStatus t = some 0) ∨
      (i = .encCreate ∧ s.enc.state = .counting ∧ t.enc.state = .coded) ∨
      (i = .encExit ∧ t.enc.state = .released)) ∧
    (t.dec.state = s.dec.state ∨
      (∃ m, i = .decInit m ∧ s.dec.state = .released ∧ t.dec.state = .lengths ∧ lastStatus t = some 0) ∨
      (i = .decRecon ∧ s.dec.state = .lengths ∧ t.dec.state = .ready ∧ lastStatus t = some 0) ∨
      (i = .decRdsym ∧ s.dec.state = .ready ∧ t.dec.state = .failed ∧ lastStatus t = some 3) ∨
      (i = .decExit ∧ t.dec.state = .released))

/-- R224: "FAILED is left only by `DEC.EXIT`"; over whole steps, or by the block's reset input (R250). -/
def Obligations.FailedIsLeftOnlyByExitOrReset : Prop :=
  ∀ s t : State, s.dec.state = .failed → step s = .next t →
    t.dec.state = .failed ∨
    (∃ rest, s.host = .command 0x0000000000000025 :: rest) ∨
    (∃ rest, s.host = .reset :: rest) ∨
    (∃ w n rest, s.host = .resetDuring w n :: rest)

/-- The machine stops in one case alone: a read of `DEC.RDSYM` that the bit-I/O collaborator never answers (R176, I19, log 4), and there it
does stop. No command is refused. -/
def Obligations.OnlyAnUnansweredReadStops : Prop :=
  (∀ s : State, s.dec.state = .ready → s.bitIO.ending = .silent → s.bitIO.bits.length < s.dec.maxLen.toNat →
    (∀ j, 1 ≤ j → j ≤ s.bitIO.bits.length → ¬ MatchesAt s.dec s.bitIO.bits j) →
    exec .decRdsym s = .fault .bitReadNeverAnswered) ∧
  (∀ (s : State) (r : Refusal), step s ≠ .refused r) ∧
  (∀ (s : State) (r : Fault), step s = .fault r →
    s.bitIO.ending = .silent ∧ s.dec.state = .ready ∧
    s.bitIO.bits.length < s.dec.maxLen.toNat ∧
    ∃ rest, s.host = .command 0x0000000000000023 :: rest)

/-- R250: the reset input sets both unit states to RELEASED, sends nothing and changes nothing in either collaborator. -/
def Obligations.ResetReleasesBothUnits : Prop :=
  ∀ (s : State) (rest : List HostEvent), s.host = .reset :: rest →
    ∃ (e : Encoder) (d : Decoder), e.state = .released ∧ d.state = .released ∧ e.buffers = [] ∧ d.buffers = [] ∧
      step s = .next { s with enc := e, dec := d, host := rest, draws := s.draws + 1 }

/-- R253, as log 9 models it: after a reset inside a command no response was delivered, both units are RELEASED, bits read stay consumed, and a
granted request of ENC.INIT stays granted. -/
def Obligations.ResetInsideACommand : Prop :=
  ∀ (s : State) (w : CmdWord) (n : Nat) (rest : List HostEvent), s.host = .resetDuring w n :: rest →
    ∃ (t : State) (evs : List PortEvent), step s = .next t ∧
      t.enc.state = .released ∧ t.dec.state = .released ∧ t.host = rest ∧ t.params = s.params ∧
      t.trace = s.trace ++ evs ∧ evs.length ≤ n ∧ (∀ v, PortEvent.response v ∉ evs) ∧
      (decode w = .ok .decRdsym → s.dec.state = .ready →
        ∃ k ≤ n, t.bitIO.bits = s.bitIO.bits.drop k ∧
          evs.filter (fun ev => ev != .bitRead .eos) = (s.bitIO.bits.take k).map (fun b => .bitRead (.bit b))) ∧
      (∀ e k, decode w = .ok (.encInit e k) → encInitCheck s e k = none → 1 ≤ n →
        evs = [.arenaRequest .henc (encBuffers s.params e) s.arenaAnswer])

/-- R80: a read-out changes no state, and repeated it responds the same. -/
def Obligations.ReadOutsAreIdempotent : Prop :=
  ∀ (i : Instr) (s : State), isReadOut i = true →
    ∃ (st : Status) (r : Result), ∀ s' : State,
      s'.params = s.params → s'.enc = s.enc → s'.dec = s.dec → exec i s' = .next (s'.respond st r)

/-- R222, R80: a request is sent only by a command whose earlier checks passed. -/
def Obligations.RequestsComeAfterTheChecks : Prop :=
  ∀ (i : Instr) (s : State), requestsOf i s ≠ [] →
    legalityCell i s.enc.state s.dec.state = none ∧
    ((∃ e k, i = .encInit e k ∧ 1 ≤ e ∧ e ≤ 65536 ∧ 1 ≤ k ∧ k ≤ s.params.maxCodeBits ∧ e ≤ 2 ^ k ∧
        (requestsOf i s).length = 1) ∨
      (∃ m, i = .decInit m ∧ m ≤ 65535 ∧ (requestsOf i s).length = 1) ∨
      i = .encExit ∨ i = .decExit ∨ i = .decRdsym ∨ i = .decSync)

/-- The buffers an INIT asks for: five and three with their uses, each entry count a power of two (R72). That it is the least one, and the
order in which a request lists the buffers, are the model's reading (log 14, DEDUCED). -/
def Obligations.ArenaRequestsArePowersOfTwo : Prop :=
  (∀ n, 1 ≤ n → n ≤ roundPow2 n ∧ roundPow2 n < 2 * n ∧ ∃ j, roundPow2 n = 2 ^ j) ∧
  (∀ (p : Params) (e : Nat), (encBuffers p e).length = 5 ∧
    (encBuffers p e).map Buffer.use = [.freqCode, .codeSize, .work, .eCount, .eNextCode] ∧
    (encBuffers p e).map Buffer.entries =
      [roundPow2 e, roundPow2 e, roundPow2 e, roundPow2 (p.maxCodeBits + 1), roundPow2 (p.maxCodeBits + 1)]) ∧
  (∀ (p : Params) (m : Nat), (decBuffers p m).length = 3 ∧
    (decBuffers p m).map Buffer.use = [.dLenCode, .sortedSym, .stepTable] ∧
    (decBuffers p m).map Buffer.entries =
      [roundPow2 (m + 1), roundPow2 (m + 1), roundPow2 (p.maxCodeBits + 1)])

/-- R99: what the two pseudo-commands expand to. -/
def Obligations.PseudoCommandsExpand : Prop :=
  (∀ f fs, spelled "ENC.COUNTS" (f :: fs) = some (encCountsFrom 0 (f :: fs))) ∧
  (∀ l ls, spelled "DEC.SETLENS" (l :: ls) = some (decSetlensFrom 0 (l :: ls))) ∧
  (∀ fs : List Nat, encCountsFrom 0 fs =
    ((List.range fs.length).filter (fun i => fs.getD i 0 != 0)).map (fun i => .encCount i (fs.getD i 0))) ∧
  (∀ ls : List Nat, decSetlensFrom 0 ls =
    (List.range ls.length).map (fun i => .decSetlen i (ls.getD i 0)))

/-- R98: a line never spells a command with an operand that does not fit its field. -/
def Obligations.AssembledLinesFitTheirFields : Prop :=
  ∀ (line : String) (is : List Instr), assembleLine line = .commands is →
    ∀ i ∈ is, i.wellFormed = true ∧ decode (encode i) = .ok i

/-- R6: what is "fixed per block instance" is changed by no step, and a system keeps its instances, each with its own parameters. That they
are data of State, with the model's own label of the block, is log 2 and log 16. -/
def Obligations.ParametersAreFixedPerInstance : Prop :=
  (∀ s t : State, step s = .next t → t.params = s.params) ∧
  (∀ (n : Nat) (sys sys' : System), sys.stepAt n = .next sys' →
    sys'.blocks.map State.params = sys.blocks.map State.params ∧ 1 ≤ sys'.blocks.length)
end

