-- ==== Sys2Proof/Laws/State.lean ====
section
/-! SUPPORT. One lemma per field per update of State, each true by rfl, so that no later proof unfolds a record update. -/

namespace Sys2Proof.Machine

open Sys2Proof

/-! ### s.setEnc u -/

@[simp] theorem State.setEnc_params (u : Encoder) (s : State) : (s.setEnc u).params = s.params := rfl
@[simp] theorem State.setEnc_enc (u : Encoder) (s : State) : (s.setEnc u).enc = u := rfl
@[simp] theorem State.setEnc_dec (u : Encoder) (s : State) : (s.setEnc u).dec = s.dec := rfl
@[simp] theorem State.setEnc_host (u : Encoder) (s : State) : (s.setEnc u).host = s.host := rfl
@[simp] theorem State.setEnc_arena (u : Encoder) (s : State) : (s.setEnc u).arena = s.arena := rfl
@[simp] theorem State.setEnc_bitIO (u : Encoder) (s : State) : (s.setEnc u).bitIO = s.bitIO := rfl
@[simp] theorem State.setEnc_trace (u : Encoder) (s : State) : (s.setEnc u).trace = s.trace := rfl
@[simp] theorem State.setEnc_draws (u : Encoder) (s : State) : (s.setEnc u).draws = s.draws := rfl

/-! ### s.setDec u -/

@[simp] theorem State.setDec_params (u : Decoder) (s : State) : (s.setDec u).params = s.params := rfl
@[simp] theorem State.setDec_enc (u : Decoder) (s : State) : (s.setDec u).enc = s.enc := rfl
@[simp] theorem State.setDec_dec (u : Decoder) (s : State) : (s.setDec u).dec = u := rfl
@[simp] theorem State.setDec_host (u : Decoder) (s : State) : (s.setDec u).host = s.host := rfl
@[simp] theorem State.setDec_arena (u : Decoder) (s : State) : (s.setDec u).arena = s.arena := rfl
@[simp] theorem State.setDec_bitIO (u : Decoder) (s : State) : (s.setDec u).bitIO = s.bitIO := rfl
@[simp] theorem State.setDec_trace (u : Decoder) (s : State) : (s.setDec u).trace = s.trace := rfl
@[simp] theorem State.setDec_draws (u : Decoder) (s : State) : (s.setDec u).draws = s.draws := rfl

/-! ### s.drawn -/

@[simp] theorem State.drawn_params (s : State) : (s.drawn).params = s.params := rfl
@[simp] theorem State.drawn_enc (s : State) : (s.drawn).enc = s.enc := rfl
@[simp] theorem State.drawn_dec (s : State) : (s.drawn).dec = s.dec := rfl
@[simp] theorem State.drawn_host (s : State) : (s.drawn).host = s.host := rfl
@[simp] theorem State.drawn_arena (s : State) : (s.drawn).arena = s.arena := rfl
@[simp] theorem State.drawn_bitIO (s : State) : (s.drawn).bitIO = s.bitIO := rfl
@[simp] theorem State.drawn_trace (s : State) : (s.drawn).trace = s.trace := rfl
@[simp] theorem State.drawn_draws (s : State) : (s.drawn).draws = s.draws + 1 := rfl

/-! ### s.emit ev -/

@[simp] theorem State.emit_params (ev : PortEvent) (s : State) : (s.emit ev).params = s.params := rfl
@[simp] theorem State.emit_enc (ev : PortEvent) (s : State) : (s.emit ev).enc = s.enc := rfl
@[simp] theorem State.emit_dec (ev : PortEvent) (s : State) : (s.emit ev).dec = s.dec := rfl
@[simp] theorem State.emit_host (ev : PortEvent) (s : State) : (s.emit ev).host = s.host := rfl
@[simp] theorem State.emit_arena (ev : PortEvent) (s : State) : (s.emit ev).arena = s.arena := rfl
@[simp] theorem State.emit_bitIO (ev : PortEvent) (s : State) : (s.emit ev).bitIO = s.bitIO := rfl
@[simp] theorem State.emit_trace (ev : PortEvent) (s : State) : (s.emit ev).trace = s.trace ++ [ev] := rfl
@[simp] theorem State.emit_draws (ev : PortEvent) (s : State) : (s.emit ev).draws = s.draws := rfl

/-! ### s.respond st r -/

@[simp] theorem State.respond_params (st : Status) (r : Result) (s : State) : (s.respond st r).params = s.params := rfl
@[simp] theorem State.respond_enc (st : Status) (r : Result) (s : State) : (s.respond st r).enc = s.enc := rfl
@[simp] theorem State.respond_dec (st : Status) (r : Result) (s : State) : (s.respond st r).dec = s.dec := rfl
@[simp] theorem State.respond_host (st : Status) (r : Result) (s : State) : (s.respond st r).host = s.host := rfl
@[simp] theorem State.respond_arena (st : Status) (r : Result) (s : State) : (s.respond st r).arena = s.arena := rfl
@[simp] theorem State.respond_bitIO (st : Status) (r : Result) (s : State) : (s.respond st r).bitIO = s.bitIO := rfl
@[simp] theorem State.respond_trace (st : Status) (r : Result) (s : State) : (s.respond st r).trace = s.trace ++ [.response (rspWord st r)] := rfl
@[simp] theorem State.respond_draws (st : Status) (r : Result) (s : State) : (s.respond st r).draws = s.draws := rfl

/-! ### s.raise st -/

@[simp] theorem State.raise_params (st : Status) (s : State) : (s.raise st).params = s.params := rfl
@[simp] theorem State.raise_enc (st : Status) (s : State) : (s.raise st).enc = s.enc := rfl
@[simp] theorem State.raise_dec (st : Status) (s : State) : (s.raise st).dec = s.dec := rfl
@[simp] theorem State.raise_host (st : Status) (s : State) : (s.raise st).host = s.host := rfl
@[simp] theorem State.raise_arena (st : Status) (s : State) : (s.raise st).arena = s.arena := rfl
@[simp] theorem State.raise_bitIO (st : Status) (s : State) : (s.raise st).bitIO = s.bitIO := rfl
@[simp] theorem State.raise_trace (st : Status) (s : State) : (s.raise st).trace = s.trace ++ [.response (rspWord st 0)] := rfl
@[simp] theorem State.raise_draws (st : Status) (s : State) : (s.raise st).draws = s.draws := rfl

/-! ### s.exchange (.arenaRequest u b g) -/

@[simp] theorem State.exchange_request_params (u : UnitId) (b : List Buffer) (g : Bool) (s : State) : (s.exchange (.arenaRequest u b g)).params = s.params := rfl
@[simp] theorem State.exchange_request_enc (u : UnitId) (b : List Buffer) (g : Bool) (s : State) : (s.exchange (.arenaRequest u b g)).enc = s.enc := rfl
@[simp] theorem State.exchange_request_dec (u : UnitId) (b : List Buffer) (g : Bool) (s : State) : (s.exchange (.arenaRequest u b g)).dec = s.dec := rfl
@[simp] theorem State.exchange_request_host (u : UnitId) (b : List Buffer) (g : Bool) (s : State) : (s.exchange (.arenaRequest u b g)).host = s.host := rfl
@[simp] theorem State.exchange_request_arena (u : UnitId) (b : List Buffer) (g : Bool) (s : State) : (s.exchange (.arenaRequest u b g)).arena = s.arena.advance := rfl
@[simp] theorem State.exchange_request_bitIO (u : UnitId) (b : List Buffer) (g : Bool) (s : State) : (s.exchange (.arenaRequest u b g)).bitIO = s.bitIO := rfl
@[simp] theorem State.exchange_request_trace (u : UnitId) (b : List Buffer) (g : Bool) (s : State) : (s.exchange (.arenaRequest u b g)).trace = s.trace ++ [.arenaRequest u b g] := rfl
@[simp] theorem State.exchange_request_draws (u : UnitId) (b : List Buffer) (g : Bool) (s : State) : (s.exchange (.arenaRequest u b g)).draws = s.draws := rfl

/-! ### s.exchange (.arenaRelease u b) -/

@[simp] theorem State.exchange_release_params (u : UnitId) (b : List Buffer) (s : State) : (s.exchange (.arenaRelease u b)).params = s.params := rfl
@[simp] theorem State.exchange_release_enc (u : UnitId) (b : List Buffer) (s : State) : (s.exchange (.arenaRelease u b)).enc = s.enc := rfl
@[simp] theorem State.exchange_release_dec (u : UnitId) (b : List Buffer) (s : State) : (s.exchange (.arenaRelease u b)).dec = s.dec := rfl
@[simp] theorem State.exchange_release_host (u : UnitId) (b : List Buffer) (s : State) : (s.exchange (.arenaRelease u b)).host = s.host := rfl
@[simp] theorem State.exchange_release_arena (u : UnitId) (b : List Buffer) (s : State) : (s.exchange (.arenaRelease u b)).arena = s.arena := rfl
@[simp] theorem State.exchange_release_bitIO (u : UnitId) (b : List Buffer) (s : State) : (s.exchange (.arenaRelease u b)).bitIO = s.bitIO := rfl
@[simp] theorem State.exchange_release_trace (u : UnitId) (b : List Buffer) (s : State) : (s.exchange (.arenaRelease u b)).trace = s.trace ++ [.arenaRelease u b] := rfl
@[simp] theorem State.exchange_release_draws (u : UnitId) (b : List Buffer) (s : State) : (s.exchange (.arenaRelease u b)).draws = s.draws := rfl

/-! ### s.exchange (.bitRead a) -/

@[simp] theorem State.exchange_read_params (a : BitAnswer) (s : State) : (s.exchange (.bitRead a)).params = s.params := rfl
@[simp] theorem State.exchange_read_enc (a : BitAnswer) (s : State) : (s.exchange (.bitRead a)).enc = s.enc := rfl
@[simp] theorem State.exchange_read_dec (a : BitAnswer) (s : State) : (s.exchange (.bitRead a)).dec = s.dec := rfl
@[simp] theorem State.exchange_read_host (a : BitAnswer) (s : State) : (s.exchange (.bitRead a)).host = s.host := rfl
@[simp] theorem State.exchange_read_arena (a : BitAnswer) (s : State) : (s.exchange (.bitRead a)).arena = s.arena := rfl
@[simp] theorem State.exchange_read_bitIO (a : BitAnswer) (s : State) : (s.exchange (.bitRead a)).bitIO = BitSource.advance a s.bitIO := rfl
@[simp] theorem State.exchange_read_trace (a : BitAnswer) (s : State) : (s.exchange (.bitRead a)).trace = s.trace ++ [.bitRead a] := rfl
@[simp] theorem State.exchange_read_draws (a : BitAnswer) (s : State) : (s.exchange (.bitRead a)).draws = s.draws := rfl

/-! ### s.exchange .bitAlign -/

@[simp] theorem State.exchange_align_params (s : State) : (s.exchange .bitAlign).params = s.params := rfl
@[simp] theorem State.exchange_align_enc (s : State) : (s.exchange .bitAlign).enc = s.enc := rfl
@[simp] theorem State.exchange_align_dec (s : State) : (s.exchange .bitAlign).dec = s.dec := rfl
@[simp] theorem State.exchange_align_host (s : State) : (s.exchange .bitAlign).host = s.host := rfl
@[simp] theorem State.exchange_align_arena (s : State) : (s.exchange .bitAlign).arena = s.arena := rfl
@[simp] theorem State.exchange_align_bitIO (s : State) : (s.exchange .bitAlign).bitIO = Config.align s.params.inst s.bitIO := rfl
@[simp] theorem State.exchange_align_trace (s : State) : (s.exchange .bitAlign).trace = s.trace ++ [.bitAlign] := rfl
@[simp] theorem State.exchange_align_draws (s : State) : (s.exchange .bitAlign).draws = s.draws := rfl

/-! ### s.blockReset -/

@[simp] theorem State.blockReset_params (s : State) : (s.blockReset).params = s.params := rfl
@[simp] theorem State.blockReset_enc (s : State) : (s.blockReset).enc = freedEncoder s.params s.draws := rfl
@[simp] theorem State.blockReset_dec (s : State) : (s.blockReset).dec = freedDecoder s.params s.draws := rfl
@[simp] theorem State.blockReset_host (s : State) : (s.blockReset).host = s.host := rfl
@[simp] theorem State.blockReset_arena (s : State) : (s.blockReset).arena = s.arena := rfl
@[simp] theorem State.blockReset_bitIO (s : State) : (s.blockReset).bitIO = s.bitIO := rfl
@[simp] theorem State.blockReset_trace (s : State) : (s.blockReset).trace = s.trace := rfl
@[simp] theorem State.blockReset_draws (s : State) : (s.blockReset).draws = s.draws + 1 := rfl

/-! ### s.popHost -/

@[simp] theorem State.popHost_params (s : State) : (s.popHost).params = s.params := rfl
@[simp] theorem State.popHost_enc (s : State) : (s.popHost).enc = s.enc := rfl
@[simp] theorem State.popHost_dec (s : State) : (s.popHost).dec = s.dec := rfl
@[simp] theorem State.popHost_host (s : State) : (s.popHost).host = s.host.tail := rfl
@[simp] theorem State.popHost_arena (s : State) : (s.popHost).arena = s.arena := rfl
@[simp] theorem State.popHost_bitIO (s : State) : (s.popHost).bitIO = s.bitIO := rfl
@[simp] theorem State.popHost_trace (s : State) : (s.popHost).trace = s.trace := rfl
@[simp] theorem State.popHost_draws (s : State) : (s.popHost).draws = s.draws := rfl

/-! ### s.issue w -/

@[simp] theorem State.issue_params (w : CmdWord) (s : State) : (s.issue w).params = s.params := rfl
@[simp] theorem State.issue_enc (w : CmdWord) (s : State) : (s.issue w).enc = s.enc := rfl
@[simp] theorem State.issue_dec (w : CmdWord) (s : State) : (s.issue w).dec = s.dec := rfl
@[simp] theorem State.issue_host (w : CmdWord) (s : State) : (s.issue w).host = .command w :: s.host := rfl
@[simp] theorem State.issue_arena (w : CmdWord) (s : State) : (s.issue w).arena = s.arena := rfl
@[simp] theorem State.issue_bitIO (w : CmdWord) (s : State) : (s.issue w).bitIO = s.bitIO := rfl
@[simp] theorem State.issue_trace (w : CmdWord) (s : State) : (s.issue w).trace = s.trace := rfl
@[simp] theorem State.issue_draws (w : CmdWord) (s : State) : (s.issue w).draws = s.draws := rfl

/-! ### s.consumed n -/

@[simp] theorem State.consumed_params (n : Nat) (s : State) : (s.consumed n).params = s.params := rfl
@[simp] theorem State.consumed_enc (n : Nat) (s : State) : (s.consumed n).enc = s.enc := rfl
@[simp] theorem State.consumed_dec (n : Nat) (s : State) : (s.consumed n).dec = s.dec := rfl
@[simp] theorem State.consumed_host (n : Nat) (s : State) : (s.consumed n).host = s.host := rfl
@[simp] theorem State.consumed_arena (n : Nat) (s : State) : (s.consumed n).arena = s.arena := rfl
@[simp] theorem State.consumed_bitIO (n : Nat) (s : State) : (s.consumed n).bitIO = { s.bitIO with consumed := s.bitIO.consumed + n, bits := s.bitIO.bits.drop n } := rfl
@[simp] theorem State.consumed_trace (n : Nat) (s : State) : (s.consumed n).trace = s.trace ++ (s.bitIO.bits.take n).map (fun b => .bitRead (.bit b)) := rfl
@[simp] theorem State.consumed_draws (n : Nat) (s : State) : (s.consumed n).draws = s.draws := rfl

/-! ### s.deliver accesses -/

@[simp] theorem State.deliver_params (l : List BusAccess) (s : State) : (s.deliver l).params = s.params := rfl
@[simp] theorem State.deliver_enc (l : List BusAccess) (s : State) : (s.deliver l).enc = s.enc := rfl
@[simp] theorem State.deliver_dec (l : List BusAccess) (s : State) : (s.deliver l).dec = s.dec := rfl
@[simp] theorem State.deliver_host (l : List BusAccess) (s : State) : (s.deliver l).host = s.host ++ (Config.busCommands s.params.inst l).map .command := rfl
@[simp] theorem State.deliver_arena (l : List BusAccess) (s : State) : (s.deliver l).arena = s.arena := rfl
@[simp] theorem State.deliver_bitIO (l : List BusAccess) (s : State) : (s.deliver l).bitIO = s.bitIO := rfl
@[simp] theorem State.deliver_trace (l : List BusAccess) (s : State) : (s.deliver l).trace = s.trace := rfl
@[simp] theorem State.deliver_draws (l : List BusAccess) (s : State) : (s.deliver l).draws = s.draws := rfl

end Sys2Proof.Machine
end

