-- ==== Sys2Proof/Laws/Ops.lean ====
section
/-! SUPPORT. What each shared operation does, said once: responses, exchanges with the collaborators, and table access. -/

namespace Sys2Proof.Machine

open Sys2Proof

/-! ### Responses -/

theorem respond_eq (st : Status) (r : Result) (s : State) :
    s.respond st r = { s with trace := s.trace ++ [.response (rspWord st r)] } := rfl

theorem raise_eq (st : Status) (s : State) : s.raise st = s.respond st 0 := rfl

theorem rspWord_toNat (st : Status) (r : Result) :
    (rspWord st r).toNat = st.code.toNat * 2 ^ 32 + r.toNat := by
  have hr := r.isLt
  rw [rspWord, BitVec.toNat_append, BitVec.toNat_append, ← Nat.shiftLeft_add_eq_or_of_lt hr]
  simp [Nat.shiftLeft_eq]

@[simp] theorem rspStatus_rspWord (st : Status) (r : Result) : rspStatus (rspWord st r) = st.code := by
  apply BitVec.eq_of_toNat_eq
  have hr := r.isLt
  have hc := st.code.isLt
  simp only [rspStatus, BitVec.extractLsb'_toNat, rspWord_toNat, Nat.shiftRight_eq_div_pow]
  omega

@[simp] theorem rspResult_rspWord (st : Status) (r : Result) : rspResult (rspWord st r) = r := by
  apply BitVec.eq_of_toNat_eq
  have hr := r.isLt
  have hc := st.code.isLt
  simp only [rspResult, BitVec.extractLsb'_toNat, rspWord_toNat, Nat.shiftRight_eq_div_pow]
  omega

theorem rspWord_lt (st : Status) (r : Result) : (rspWord st r).toNat < 2 ^ 36 := by
  have hr := r.isLt
  have hc := st.code.isLt
  rw [rspWord_toNat]
  omega

@[simp] theorem Status.code_eq_zero (st : Status) : st.code = 0 ↔ st = .ok := by
  cases st <;> decide

@[simp] theorem lastStatus_respond (st : Status) (r : Result) (s : State) :
    lastStatus (s.respond st r) = some st.code := by
  simp [lastStatus]

@[simp] theorem lastStatus_raise (st : Status) (s : State) : lastStatus (s.raise st) = some st.code :=
  lastStatus_respond st 0 s

/-! ### Exchanges -/

@[simp] theorem exchange_trace (ev : PortEvent) (s : State) : (s.exchange ev).trace = s.trace ++ [ev] := by
  cases ev <;> rfl

@[simp] theorem exchange_enc (ev : PortEvent) (s : State) : (s.exchange ev).enc = s.enc := by
  cases ev <;> rfl

@[simp] theorem exchange_dec (ev : PortEvent) (s : State) : (s.exchange ev).dec = s.dec := by
  cases ev <;> rfl

@[simp] theorem exchange_params (ev : PortEvent) (s : State) : (s.exchange ev).params = s.params := by
  cases ev <;> rfl

@[simp] theorem exchange_host (ev : PortEvent) (s : State) : (s.exchange ev).host = s.host := by
  cases ev <;> rfl

@[simp] theorem exchange_draws (ev : PortEvent) (s : State) : (s.exchange ev).draws = s.draws := by
  cases ev <;> rfl

@[simp] theorem exchanges_nil (s : State) : s.exchanges [] = s := rfl

@[simp] theorem exchanges_cons (ev : PortEvent) (evs : List PortEvent) (s : State) :
    s.exchanges (ev :: evs) = (s.exchange ev).exchanges evs := rfl

theorem exchanges_append (as bs : List PortEvent) (s : State) :
    s.exchanges (as ++ bs) = (s.exchanges as).exchanges bs := by
  simp [State.exchanges]

@[simp] theorem exchanges_trace (evs : List PortEvent) (s : State) : (s.exchanges evs).trace = s.trace ++ evs := by
  induction evs generalizing s with
  | nil => simp
  | cons ev evs ih => simp [ih]

@[simp] theorem exchanges_enc (evs : List PortEvent) (s : State) : (s.exchanges evs).enc = s.enc := by
  induction evs generalizing s with
  | nil => rfl
  | cons ev evs ih => simp [ih]

@[simp] theorem exchanges_dec (evs : List PortEvent) (s : State) : (s.exchanges evs).dec = s.dec := by
  induction evs generalizing s with
  | nil => rfl
  | cons ev evs ih => simp [ih]

@[simp] theorem exchanges_params (evs : List PortEvent) (s : State) : (s.exchanges evs).params = s.params := by
  induction evs generalizing s with
  | nil => rfl
  | cons ev evs ih => simp [ih]

@[simp] theorem exchanges_host (evs : List PortEvent) (s : State) : (s.exchanges evs).host = s.host := by
  induction evs generalizing s with
  | nil => rfl
  | cons ev evs ih => simp [ih]

@[simp] theorem exchanges_draws (evs : List PortEvent) (s : State) : (s.exchanges evs).draws = s.draws := by
  induction evs generalizing s with
  | nil => rfl
  | cons ev evs ih => simp [ih]

@[simp] theorem consumed_zero (s : State) : s.consumed 0 = s := by
  simp [State.consumed]

/-- One bit read, and then `n` more, are `n + 1` bits read. -/
theorem consumed_succ (s : State) (b : Bool) (bits : List Bool) (h : s.bitIO.bits = b :: bits) (n : Nat) :
    (s.exchange (.bitRead (.bit b))).consumed n = s.consumed (n + 1) := by
  simp [State.consumed, State.exchange, State.emit, BitSource.advance, h]
  omega

/-- Reading the first `n` bits of the source, one exchange each, consumes them. -/
theorem exchanges_reads (n : Nat) (s : State) (h : n ≤ s.bitIO.bits.length) :
    s.exchanges ((s.bitIO.bits.take n).map (fun b => .bitRead (.bit b))) = s.consumed n := by
  induction n generalizing s with
  | zero => simp
  | succ n ih =>
    cases hb : s.bitIO.bits with
    | nil => simp [hb] at h
    | cons b bits =>
      have hs : (s.exchange (.bitRead (.bit b))).bitIO.bits = bits := by simp [BitSource.advance, hb]
      rw [← consumed_succ s b bits hb, ← ih _ (by rw [hs]; simpa [hb] using h), hs]
      simp

/-! ### Tables -/

@[simp] theorem nats_length {w : Nat} (t : List (BitVec w)) : (nats t).length = t.length := by simp [nats]

@[simp] theorem narrow_length (w : Nat) (ns : List Nat) : (narrow w ns).length = ns.length := by simp [narrow]

theorem nats_getD {w : Nat} (t : List (BitVec w)) (s : Nat) : (nats t).getD s 0 = (symEntry t s).toNat := by
  simp only [nats, symEntry, List.getD_eq_getElem?_getD, List.getElem?_map]
  cases t[s]? <;> simp

theorem lenEntry_succ {w : Nat} (t : List (BitVec w)) (l : Nat) : lenEntry t (l + 1) = symEntry t l := rfl

theorem symEntry_narrow (w : Nat) (ns : List Nat) (s : Nat) :
    symEntry (narrow w ns) s = BitVec.ofNat w (ns.getD s 0) := by
  simp only [narrow, symEntry, List.getD_eq_getElem?_getD, List.getElem?_map]
  cases ns[s]? <;> simp

/-- A stored natural that fits its field reads back as itself (R10). -/
theorem nats_narrow (w : Nat) (ns : List Nat) (h : ∀ n ∈ ns, n < 2 ^ w) : nats (narrow w ns) = ns := by
  simp only [nats, narrow, List.map_map]
  conv_rhs => rw [← List.map_id ns]
  apply List.map_congr_left
  intro n hn
  simpa using Nat.mod_eq_of_lt (h n hn)

theorem symEntry_set {w : Nat} (t : List (BitVec w)) (s : Nat) (v : BitVec w) (x : Nat) (h : s < t.length) :
    symEntry (t.set s v) x = if x = s then v else symEntry t x := by
  by_cases hx : x = s
  · subst hx; simp [symEntry, h]
  · rw [if_neg hx]; simp [symEntry, List.getD_eq_getElem?_getD, List.getElem?_set_ne (Ne.symm hx)]

theorem symEntry_of_length_le {w : Nat} (t : List (BitVec w)) (s : Nat) (h : t.length ≤ s) : symEntry t s = 0 := by
  simp [symEntry, List.getD_eq_getElem?_getD, List.getElem?_eq_none h]

@[simp] theorem nats_replicate_zero (n w : Nat) : nats (List.replicate n (0 : BitVec w)) = List.replicate n 0 := by
  simp [nats]

end Sys2Proof.Machine
end

