-- ==== Sys2Proof/Laws/Canonical.lean ====
section
/-! SUPPORT. The canonical-code arithmetic: the start codes, offsets and assigned codes of the model against their defining equations (R131,
R172), and the Kraft sum counted by length. -/

namespace Sys2Proof.Machine

open Sys2Proof

/-! ### Start codes and offsets -/

@[simp] theorem lengthCounts_length (n : Nat) (lens : List Nat) : (lengthCounts n lens).length = n := by
  simp [lengthCounts]

theorem lengthCounts_getD (n : Nat) (lens : List Nat) (l : Nat) (h : l < n) :
    (lengthCounts n lens).getD l 0 = lens.count (l + 1) := by
  simp [lengthCounts, List.getD_eq_getElem?_getD, h, Nat.add_comm]

@[simp] theorem startCodesFrom_length (c : Nat) (ns : List Nat) : (startCodesFrom c ns).length = ns.length := by
  induction ns generalizing c with
  | nil => rfl
  | cons n ns ih => simp [startCodesFrom, ih]

@[simp] theorem offsetsFrom_length (o : Nat) (ns : List Nat) : (offsetsFrom o ns).length = ns.length := by
  induction ns generalizing o with
  | nil => rfl
  | cons n ns ih => simp [offsetsFrom, ih]

@[simp] theorem startOf_one (lens : List Nat) : startOf lens 1 = 0 := by simp [startOf]

theorem startOf_succ (lens : List Nat) (l : Nat) (h : l ≠ 0) :
    startOf lens (l + 1) = (startOf lens l + lens.count l) * 2 := by
  simp [startOf, h]

/-- Started at length `a` with that length's start code, the recurrence lists the start codes from there on. -/
theorem startCodesFrom_getD (lens : List Nat) (n a j : Nat) (ha : a ≠ 0) (hj : j < n) :
    (startCodesFrom (startOf lens a) ((List.range' a n).map (fun l => lens.count l))).getD j 0 =
      startOf lens (a + j) := by
  induction n generalizing a j with
  | zero => omega
  | succ n ih =>
    rw [List.range'_succ, List.map_cons, startCodesFrom]
    cases j with
    | zero => simp
    | succ j =>
      have hs : (startOf lens a + lens.count a) <<< 1 = startOf lens (a + 1) := by
        rw [startOf_succ lens a ha, Nat.shiftLeft_eq]
      rw [List.getD_cons_succ, hs, ih (a + 1) j (by omega) (by omega)]
      congr 1
      omega

theorem startCodes_getD (n : Nat) (lens : List Nat) (l : Nat) (h : l < n) :
    (startCodes (lengthCounts n lens)).getD l 0 = startOf lens (l + 1) := by
  have := startCodesFrom_getD lens n 1 l (by omega) h
  rw [startOf_one] at this
  rw [startCodes, lengthCounts, this, Nat.add_comm]

theorem offsetsFrom_getD (lens : List Nat) (n a o j : Nat) (hj : j < n) :
    (offsetsFrom o ((List.range' a n).map (fun l => lens.count l))).getD j 0 =
      o + ∑ i ∈ Finset.Ico a (a + j), lens.count i := by
  induction n generalizing a o j with
  | zero => omega
  | succ n ih =>
    rw [List.range'_succ, List.map_cons, offsetsFrom]
    cases j with
    | zero => simp
    | succ j =>
      rw [List.getD_cons_succ, ih (a + 1) _ j (by omega),
        Finset.sum_eq_sum_Ico_succ_bot (show a < a + (j + 1) by omega)]
      have : a + 1 + j = a + (j + 1) := by omega
      rw [this, Nat.add_assoc]

theorem offsets_getD (n : Nat) (lens : List Nat) (l : Nat) (h : l < n) :
    (offsets (lengthCounts n lens)).getD l 0 = ∑ i ∈ Finset.Ico 1 (l + 1), lens.count i := by
  rw [offsets, lengthCounts, offsetsFrom_getD lens n 1 0 l h, Nat.zero_add, Nat.add_comm 1 l]

/-! ### The walk that assigns codes -/

@[simp] theorem assignCodes_length (next : List Nat) (ps : List (Nat × Nat)) :
    (assignCodes next ps).1.length = ps.length := by
  induction ps generalizing next with
  | nil => rfl
  | cons p ps ih =>
    obtain ⟨l, o⟩ := p
    cases l <;> simp [assignCodes, ih]

@[simp] theorem assignCodes_next_length (next : List Nat) (ps : List (Nat × Nat)) :
    (assignCodes next ps).2.length = next.length := by
  induction ps generalizing next with
  | nil => rfl
  | cons p ps ih =>
    obtain ⟨l, o⟩ := p
    cases l <;> simp [assignCodes, ih]

/-- The next code of a length, once the walk is over: one more for each symbol of that length (R131). -/
theorem assignCodes_next (next : List Nat) (ps : List (Nat × Nat)) (l : Nat) (hl : l < next.length) :
    (assignCodes next ps).2.getD l 0 = next.getD l 0 + (ps.map Prod.fst).count (l + 1) := by
  induction ps generalizing next with
  | nil => simp [assignCodes]
  | cons p ps ih =>
    obtain ⟨m, o⟩ := p
    cases m with
    | zero => rw [assignCodes, ih next hl]; simp
    | succ m =>
      simp only [assignCodes, List.map_cons, List.count_cons]
      rw [ih _ (by simpa using hl)]
      by_cases hm : m = l
      · subst hm; simp [List.getD_eq_getElem?_getD, hl]; omega
      · simp [List.getD_eq_getElem?_getD, hm]

/-- The code field of each symbol, once the walk is over (R131): its length's first code and one more for each earlier symbol of that length;
unchanged where the length is 0. -/
theorem assignCodes_code (next : List Nat) (ps : List (Nat × Nat)) (i : Nat) (hi : i < ps.length)
    (hl : ∀ p ∈ ps, p.1 ≤ next.length) :
    (assignCodes next ps).1.getD i 0 =
      if (ps[i]).1 = 0 then (ps[i]).2
      else next.getD ((ps[i]).1 - 1) 0 + ((ps.take i).map Prod.fst).count (ps[i]).1 := by
  induction ps generalizing next i with
  | nil => simp at hi
  | cons p ps ih =>
    obtain ⟨m, o⟩ := p
    have hp : ∀ q ∈ ps, q.1 ≤ next.length := fun q hq => hl q (List.mem_cons_of_mem _ hq)
    have hm : m ≤ next.length := hl (m, o) (List.mem_cons_self ..)
    cases i with
    | zero => cases m <;> simp [assignCodes]
    | succ i =>
      have hi' : i < ps.length := by simpa using hi
      cases m with
      | zero =>
        simp only [assignCodes, List.getD_cons_succ, List.getElem_cons_succ, List.take_succ_cons, List.map_cons]
        rw [ih next i hi' hp]
        by_cases h0 : (ps[i]).1 = 0
        · simp [h0]
        · simp [h0, Ne.symm h0]
      | succ m =>
        simp only [assignCodes, List.getD_cons_succ, List.getElem_cons_succ, List.take_succ_cons, List.map_cons]
        rw [ih _ i hi' (by simpa using hp)]
        by_cases h0 : (ps[i]).1 = 0
        · simp [h0]
        · simp only [h0, if_false, List.count_cons]
          by_cases hq : m = (ps[i]).1 - 1
          · have hq' : m + 1 = (ps[i]).1 := by omega
            have hlt : (ps[i]).1 - 1 < next.length := by omega
            have hq2 : (ps[i]).1 - 1 + 1 = (ps[i]).1 := by omega
            simp [List.getD_eq_getElem?_getD, hq, hq2, hlt]; omega
          · have hq' : m + 1 ≠ (ps[i]).1 := by omega
            simp [List.getD_eq_getElem?_getD, hq, hq']

/-! ### The Kraft sum, counted by length -/

/-- Each used symbol of length `l` adds `2^(n - l)`, so the sum runs over the lengths (R8). -/
theorem kraftSum_eq_sum_counts (n : Nat) (lens : List Nat) (h : ∀ l ∈ lens, l ≤ n) :
    kraftSum n lens = ∑ l ∈ Finset.Ico 1 (n + 1), lens.count l * 2 ^ (n - l) := by
  induction lens with
  | nil => simp [kraftSum]
  | cons m ms ih =>
    have hm : m ≤ n := h m (List.mem_cons_self ..)
    have ih' := ih (fun l hl => h l (List.mem_cons_of_mem _ hl))
    have step : kraftSum n (m :: ms) = (if m = 0 then 0 else 2 ^ (n - m)) + kraftSum n ms := by simp [kraftSum]
    rw [step, ih']
    simp only [List.count_cons, Nat.add_mul, Finset.sum_add_distrib]
    rw [Nat.add_comm]
    congr 1
    by_cases h0 : m = 0
    · subst h0
      rw [if_pos rfl, eq_comm]
      apply Finset.sum_eq_zero
      intro l hl
      have : l ≠ 0 := by have := (Finset.mem_Ico.mp hl).1; omega
      simp [Ne.symm this]
    · rw [if_neg h0, Finset.sum_eq_single m]
      · simp
      · intro l _ hl; simp [Ne.symm hl]
      · intro hm'; exact absurd (Finset.mem_Ico.mpr ⟨by omega, by omega⟩) hm'

/-- The start code of a length, in units of the longest: what the shorter codes have used up. -/
theorem startOf_scaled (lens : List Nat) (n l : Nat) (h1 : 1 ≤ l) (hl : l ≤ n) :
    startOf lens l * 2 ^ (n - l) = ∑ j ∈ Finset.Ico 1 l, lens.count j * 2 ^ (n - j) := by
  induction l, h1 using Nat.le_induction with
  | base => simp
  | succ l h1 ih =>
    rw [startOf_succ lens l (by omega), Finset.sum_Ico_succ_top h1, ← ih (by omega)]
    have : 2 ^ (n - l) = 2 * 2 ^ (n - (l + 1)) := by rw [← Nat.pow_succ']; congr 1; omega
    rw [this]
    ring

/-- "For `1 <= L`, `First[L] + DCount[L] <= 2^L`" (R172), for every length up to the longest representable, of a set that is not
oversubscribed. -/
theorem startOf_add_count_le (lens : List Nat) (n l : Nat) (h : ∀ m ∈ lens, m ≤ n) (hk : kraftSum n lens ≤ 2 ^ n)
    (h1 : 1 ≤ l) (hl : l ≤ n) : startOf lens l + lens.count l ≤ 2 ^ l := by
  rw [kraftSum_eq_sum_counts n lens h] at hk
  have hsub : ∑ j ∈ Finset.Ico 1 (l + 1), lens.count j * 2 ^ (n - j) ≤ 2 ^ n :=
    le_trans (Finset.sum_le_sum_of_subset (Finset.Ico_subset_Ico_right (by omega))) hk
  rw [Finset.sum_Ico_succ_top h1, ← startOf_scaled lens n l h1 hl, ← Nat.add_mul] at hsub
  have hp : 2 ^ n = 2 ^ l * 2 ^ (n - l) := by rw [← Nat.pow_add]; congr 1; omega
  rw [hp] at hsub
  exact Nat.le_of_mul_le_mul_right hsub (by positivity)

end Sys2Proof.Machine
end

