-- ==== Sys2Proof/Laws/Encoding.lean ====
section
/-! SUPPORT. The fields of an assembled word, and a word from its fields (R91). -/

namespace Sys2Proof

@[simp] theorem fieldOp_cmdWord (op : BitVec 8) (a b : Nat) : fieldOp (cmdWord op a b) = op := by
  apply BitVec.eq_of_toNat_eq
  have ho := op.isLt
  simp only [fieldOp, cmdWord, BitVec.extractLsb'_toNat, BitVec.toNat_append, BitVec.toNat_ofNat]
  rw [← Nat.shiftLeft_add_eq_or_of_lt ho, ← Nat.shiftLeft_add_eq_or_of_lt (by simp only [Nat.shiftLeft_eq]; omega)]
  simp only [Nat.shiftLeft_eq, Nat.shiftRight_eq_div_pow]
  omega

theorem fieldA_cmdWord (op : BitVec 8) (a b : Nat) (h : a < 2 ^ 24) : (fieldA (cmdWord op a b)).toNat = a := by
  have ho := op.isLt
  simp only [fieldA, cmdWord, BitVec.extractLsb'_toNat, BitVec.toNat_append, BitVec.toNat_ofNat]
  rw [← Nat.shiftLeft_add_eq_or_of_lt ho, ← Nat.shiftLeft_add_eq_or_of_lt (by simp only [Nat.shiftLeft_eq]; omega)]
  simp only [Nat.shiftLeft_eq, Nat.shiftRight_eq_div_pow]
  omega

theorem fieldB_cmdWord (op : BitVec 8) (a b : Nat) (h : b < 2 ^ 32) : (fieldB (cmdWord op a b)).toNat = b := by
  have ho := op.isLt
  simp only [fieldB, cmdWord, BitVec.extractLsb'_toNat, BitVec.toNat_append, BitVec.toNat_ofNat]
  rw [← Nat.shiftLeft_add_eq_or_of_lt ho, ← Nat.shiftLeft_add_eq_or_of_lt (by simp only [Nat.shiftLeft_eq]; omega)]
  simp only [Nat.shiftLeft_eq, Nat.shiftRight_eq_div_pow]
  omega

/-- A word is its three fields at their places (R91). -/
theorem word_toNat (w : CmdWord) :
    w.toNat = (fieldOp w).toNat + (fieldA w).toNat * 2 ^ 8 + (fieldB w).toNat * 2 ^ 32 := by
  have := w.isLt
  simp only [fieldOp, fieldA, fieldB, BitVec.extractLsb'_toNat, Nat.shiftRight_eq_div_pow]
  omega

theorem cmdWord_fields (w : CmdWord) : cmdWord (fieldOp w) (fieldA w).toNat (fieldB w).toNat = w := by
  apply BitVec.eq_of_toNat_eq
  rw [word_toNat, fieldOp_cmdWord, fieldA_cmdWord _ _ _ (fieldA w).isLt, fieldB_cmdWord _ _ _ (fieldB w).isLt,
    ← word_toNat]

end Sys2Proof
end

