-- ==== Sys2Proof/Laws/Exec.lean ====
section
/-! SUPPORT. What a command can do, said once: every next state of `exec` is one of these cases, with what its rule checked before it. Later
proofs take a next state apart with `exec_cases` and never unfold a meaning. -/

namespace Sys2Proof.Machine

open Sys2Proof

/-- The next states of each command in state `s`. -/
inductive ExecCase (s : State) : Instr → State → Prop where
  /-- A failure before any request: the legality tables' (R120, R169), or an argument check's (R222). -/
  | failed (i : Instr) (st : Status)
      (why : legalityCell i s.enc.state s.dec.state = some st ∨
        (legalityCell i s.enc.state s.dec.state = none ∧
          (st = .invalidConfiguration ∨ st = .invalidArgument ∨ st = .invalidCodeLengths)))
      (notOk : st ≠ .ok) : ExecCase s i (s.raise st)
  /-- A read-out (R125 to R129, R178 to R183). -/
  | readOut (i : Instr) (r : Result) (legal : legalityCell i s.enc.state s.dec.state = none)
      (reads : isReadOut i = true) : ExecCase s i (s.respond .ok r)
  | encDenied (e k : Nat) (checked : encInitCheck s e k = none) (answer : s.arenaAnswer = false) :
      ExecCase s (.encInit e k) ((s.exchange (encRequest s e)).raise .outOfMemory)
  | encOpened (e k : Nat) (checked : encInitCheck s e k = none) (answer : s.arenaAnswer = true) :
      ExecCase s (.encInit e k)
        (((s.exchange (encRequest s e)).setEnc (openedEncoder s.enc s.params e k)).respond .ok 0)
  | counted (sym n : Nat) (counting : s.enc.state = .counting) (inRange : sym < s.enc.e.toNat) :
      ExecCase s (.encCount sym n) ((s.setEnc { s.enc with
        freqCode := s.enc.freqCode.set sym (symEntry s.enc.freqCode sym + BitVec.ofNat 32 n) }).respond .ok 0)
  | created (counting : s.enc.state = .counting) :
      ExecCase s .encCreate (((s.setEnc (createdEncoder s.enc s.params s.draws)).drawn).respond .ok 0)
  | encIdle (released : s.enc.state = .released) : ExecCase s .encExit (s.respond .ok 0)
  | encExited (open_ : s.enc.state ≠ .released) :
      ExecCase s .encExit
        ((((s.exchange (.arenaRelease .henc s.enc.buffers)).setEnc (freedEncoder s.params s.draws)).drawn).respond .ok 0)
  | decDenied (m : Nat) (checked : decInitCheck s m = none) (answer : s.arenaAnswer = false) :
      ExecCase s (.decInit m) ((s.exchange (decRequest s m)).raise .outOfMemory)
  | decOpened (m : Nat) (checked : decInitCheck s m = none) (answer : s.arenaAnswer = true) :
      ExecCase s (.decInit m)
        (((s.exchange (decRequest s m)).setDec (openedDecoder s.dec s.params m)).respond .ok 0)
  | lengthSet (sym len : Nat) (lengths : s.dec.state = .lengths) (inRange : sym ≤ s.dec.m.toNat)
      (short : len ≤ s.params.maxCodeBits) :
      ExecCase s (.decSetlen sym len)
        ((s.setDec { s.dec with dLen := s.dec.dLen.set sym (BitVec.ofNat 6 len) }).respond .ok 0)
  | rebuilt (lengths : s.dec.state = .lengths) (fits : oversubscribed s.params s.dec = false) :
      ExecCase s .decRecon ((s.setDec (reconstructedDecoder s.dec s.params)).respond .ok 0)
  | decoded (x : BitVec 16) (ready : s.dec.state = .ready)
      (found : (decodeSymbol s.dec s.bitIO).outcome = .symbol x) :
      ExecCase s .decRdsym
        ((s.exchanges ((decodeSymbol s.dec s.bitIO).reads.map .bitRead)).respond .ok (x.setWidth 32))
  | corrupted (ready : s.dec.state = .ready)
      (why : (decodeSymbol s.dec s.bitIO).outcome = .endOfStream ∨ (decodeSymbol s.dec s.bitIO).outcome = .noMatch) :
      ExecCase s .decRdsym (s.exchanges ((decodeSymbol s.dec s.bitIO).reads.map .bitRead)).failStream
  | synced (ready : s.dec.state = .ready) : ExecCase s .decSync ((s.exchange .bitAlign).respond .ok 0)
  | decIdle (released : s.dec.state = .released) : ExecCase s .decExit (s.respond .ok 0)
  | decExited (open_ : s.dec.state ≠ .released) :
      ExecCase s .decExit
        ((((s.exchange (.arenaRelease .hdec s.dec.buffers)).setDec (freedDecoder s.params s.draws)).drawn).respond .ok 0)

/-- A failing `ENC.INIT` check is the state check, or a configuration check after it (R121, R222). -/
theorem encInitCheck_some {s : State} {e k : Nat} {st : Status} (h : encInitCheck s e k = some st) :
    (s.enc.state ≠ .released ∧ st = .sequenceError) ∨ (s.enc.state = .released ∧ st = .invalidConfiguration) := by
  unfold encInitCheck at h
  by_cases h1 : s.enc.state ≠ .released
  · rw [if_pos h1] at h
    exact .inl ⟨h1, by cases h; rfl⟩
  · rw [if_neg h1] at h
    refine .inr ⟨by simpa using h1, ?_⟩
    repeat' split at h
    all_goals cases h
    all_goals rfl

/-- The checks of `ENC.INIT` pass exactly when the unit is RELEASED and the geometry is legal (R121). -/
theorem encInitCheck_none {s : State} {e k : Nat} :
    encInitCheck s e k = none ↔ s.enc.state = .released ∧ 1 ≤ e ∧ e ≤ 65536 ∧ 1 ≤ k ∧ k ≤ s.params.maxCodeBits ∧
      e ≤ 2 ^ k := by
  unfold encInitCheck Config.maxEntryCnt
  repeat' split
  all_goals simp_all
  all_goals omega

/-- A failing `DEC.INIT` check is the state check, or the bound on `maxSymbol` after it (R170, R222). -/
theorem decInitCheck_some {s : State} {m : Nat} {st : Status} (h : decInitCheck s m = some st) :
    (s.dec.state ≠ .released ∧ st = .sequenceError) ∨ (s.dec.state = .released ∧ st = .invalidConfiguration) := by
  unfold decInitCheck at h
  by_cases h1 : s.dec.state ≠ .released
  · rw [if_pos h1] at h
    exact .inl ⟨h1, by cases h; rfl⟩
  · rw [if_neg h1] at h
    refine .inr ⟨by simpa using h1, ?_⟩
    split at h
    all_goals cases h
    all_goals rfl

/-- The checks of `DEC.INIT` pass exactly when the unit is RELEASED and `maxSymbol` is a 16-bit index (R170). -/
theorem decInitCheck_none {s : State} {m : Nat} :
    decInitCheck s m = none ↔ s.dec.state = .released ∧ m ≤ 65535 := by
  unfold decInitCheck Config.maxEntryCnt
  repeat' split
  all_goals simp_all

/-- Every next state of a command is one of the cases. -/
theorem exec_cases {i : Instr} {s t : State} (h : exec i s = .next t) : ExecCase s i t := by
  cases i with
  | encInit e k =>
    simp only [exec, execEncInit, Host.Outcome.next.injEq] at h
    cases hc : encInitCheck s e k with
    | some st =>
      simp only [hc] at h
      subst h
      rcases encInitCheck_some hc with ⟨hs, rfl⟩ | ⟨hs, rfl⟩
      · exact .failed _ _ (.inl (by simp [legalityCell, hs])) (by simp)
      · exact .failed _ _ (.inr ⟨by simp [legalityCell, hs], .inl rfl⟩) (by simp)
    | none =>
      cases hg : s.arenaAnswer <;> simp only [hc, hg] at h <;> subst h
      · exact .encDenied e k hc hg
      · exact .encOpened e k hc hg
  | decInit m =>
    simp only [exec, execDecInit, Host.Outcome.next.injEq] at h
    cases hc : decInitCheck s m with
    | some st =>
      simp only [hc] at h
      subst h
      rcases decInitCheck_some hc with ⟨hs, rfl⟩ | ⟨hs, rfl⟩
      · exact .failed _ _ (.inl (by simp [legalityCell, hs])) (by simp)
      · exact .failed _ _ (.inr ⟨by simp [legalityCell, hs], .inl rfl⟩) (by simp)
    | none =>
      cases hg : s.arenaAnswer <;> simp only [hc, hg] at h <;> subst h
      · exact .decDenied m hc hg
      · exact .decOpened m hc hg
  | encCount sym n =>
    simp only [exec, execEncCount, Host.Outcome.next.injEq] at h
    by_cases h1 : s.enc.state = .counting
    · by_cases h2 : sym < s.enc.e.toNat
      · rw [if_neg (by simp [h1]), if_neg (by simp [encSymbolOk, h2])] at h
        subst h
        exact .counted sym n h1 h2
      · simp [h1, encSymbolOk, h2] at h
        subst h
        exact .failed _ _ (.inr ⟨by simp [legalityCell, h1], .inr (.inl rfl)⟩) (by simp)
    · simp [h1] at h
      subst h
      exact .failed _ _ (.inl (by simp [legalityCell, h1])) (by simp)
  | encCreate =>
    simp only [exec, execEncCreate, Host.Outcome.next.injEq] at h
    by_cases h1 : s.enc.state = .counting <;> simp [h1] at h <;> subst h
    · exact .created h1
    · exact .failed _ _ (.inl (by simp [legalityCell, h1])) (by simp)
  | encExit =>
    simp only [exec, execEncExit, Host.Outcome.next.injEq] at h
    by_cases h1 : s.enc.state = .released <;> simp [h1] at h <;> subst h
    · exact .encIdle h1
    · exact .encExited h1
  | encRdfc sym =>
    simp only [exec, execEncRdfc, Host.Outcome.next.injEq] at h
    by_cases h1 : s.enc.state = .released
    · simp [h1] at h; subst h
      exact .failed _ _ (.inl (by simp [legalityCell, h1])) (by simp)
    · cases h2 : encSymbolOk s.enc sym <;> simp [h1, h2] at h <;> subst h
      · exact .failed _ _ (.inr ⟨by simp [legalityCell, h1], .inr (.inl rfl)⟩) (by simp)
      · exact .readOut _ _ (by simp [legalityCell, h1]) rfl
  | encRdlen sym =>
    simp only [exec, execEncRdlen, Host.Outcome.next.injEq] at h
    by_cases h1 : s.enc.state = .coded
    · cases h2 : encSymbolOk s.enc sym <;> simp [h1, h2] at h <;> subst h
      · exact .failed _ _ (.inr ⟨by simp [legalityCell, h1], .inr (.inl rfl)⟩) (by simp)
      · exact .readOut _ _ (by simp [legalityCell, h1]) rfl
    · simp [h1] at h; subst h
      exact .failed _ _ (.inl (by simp [legalityCell, h1])) (by simp)
  | encRdcnt len =>
    simp only [exec, execEncRdcnt, Host.Outcome.next.injEq] at h
    by_cases h1 : s.enc.state = .coded
    · cases h2 : countLenOk s.params len <;> simp [h1, h2] at h <;> subst h
      · exact .failed _ _ (.inr ⟨by simp [legalityCell, h1], .inr (.inl rfl)⟩) (by simp)
      · exact .readOut _ _ (by simp [legalityCell, h1]) rfl
    · simp [h1] at h; subst h
      exact .failed _ _ (.inl (by simp [legalityCell, h1])) (by simp)
  | encRdmaxlen =>
    simp only [exec, execEncRdmaxlen, Host.Outcome.next.injEq] at h
    by_cases h1 : s.enc.state = .coded <;> simp [h1] at h <;> subst h
    · exact .readOut _ _ (by simp [legalityCell, h1]) rfl
    · exact .failed _ _ (.inl (by simp [legalityCell, h1])) (by simp)
  | encRdnz =>
    simp only [exec, execEncRdnz, Host.Outcome.next.injEq] at h
    by_cases h1 : s.enc.state = .coded <;> simp [h1] at h <;> subst h
    · exact .readOut _ _ (by simp [legalityCell, h1]) rfl
    · exact .failed _ _ (.inl (by simp [legalityCell, h1])) (by simp)
  | decSetlen sym len =>
    simp only [exec, execDecSetlen, Host.Outcome.next.injEq] at h
    by_cases h1 : s.dec.state = .lengths
    · by_cases h2 : sym ≤ s.dec.m.toNat
      · by_cases h3 : len ≤ s.params.maxCodeBits
        · rw [if_neg (by simp [h1]), if_neg (by simp [decSymbolOk, h2]), if_neg (by omega)] at h
          subst h
          exact .lengthSet sym len h1 h2 h3
        · simp [h1, decSymbolOk, h2, Nat.lt_of_not_le h3] at h
          subst h
          exact .failed _ _ (.inr ⟨by simp [legalityCell, h1], .inr (.inr rfl)⟩) (by simp)
      · simp [h1, decSymbolOk, h2] at h
        subst h
        exact .failed _ _ (.inr ⟨by simp [legalityCell, h1], .inr (.inl rfl)⟩) (by simp)
    · simp [h1] at h
      subst h
      exact .failed _ _ (.inl (by simp [legalityCell, h1])) (by simp)
  | decRecon =>
    simp only [exec, execDecRecon, Host.Outcome.next.injEq] at h
    by_cases h1 : s.dec.state = .lengths
    · cases h2 : oversubscribed s.params s.dec <;> simp [h1, h2] at h <;> subst h
      · exact .rebuilt h1 h2
      · exact .failed _ _ (.inr ⟨by simp [legalityCell, h1], .inr (.inr rfl)⟩) (by simp)
    · simp [h1] at h
      subst h
      exact .failed _ _ (.inl (by simp [legalityCell, h1])) (by simp)
  | decRdsym =>
    simp only [exec, execDecRdsym] at h
    by_cases h1 : s.dec.state = .failed
    · simp [h1] at h; subst h
      exact .failed _ _ (.inl (by simp [legalityCell, h1])) (by simp)
    · by_cases h2 : s.dec.state = .ready
      · simp only [h2, ne_eq, not_true_eq_false, if_false] at h
        cases ho : (decodeSymbol s.dec s.bitIO).outcome <;> simp only [ho] at h <;> cases h
        · exact .decoded _ h2 ho
        · exact .corrupted h2 (.inl ho)
        · exact .corrupted h2 (.inr ho)
      · simp [h1, h2] at h; subst h
        exact .failed _ _ (.inl (by simp [legalityCell, h1, h2])) (by simp)
  | decSync =>
    simp only [exec, execDecSync, Host.Outcome.next.injEq] at h
    by_cases h1 : s.dec.state = .failed
    · simp [h1] at h; subst h
      exact .failed _ _ (.inl (by simp [legalityCell, h1])) (by simp)
    · by_cases h2 : s.dec.state = .ready <;> simp [h1, h2] at h <;> subst h
      · exact .synced h2
      · exact .failed _ _ (.inl (by simp [legalityCell, h1, h2])) (by simp)
  | decExit =>
    simp only [exec, execDecExit, Host.Outcome.next.injEq] at h
    by_cases h1 : s.dec.state = .released <;> simp [h1] at h <;> subst h
    · exact .decIdle h1
    · exact .decExited h1
  | decRdlen sym =>
    simp only [exec, execDecRdlen, Host.Outcome.next.injEq] at h
    by_cases h1 : s.dec.state = .released
    · simp [h1] at h; subst h
      exact .failed _ _ (.inl (by simp [legalityCell, h1])) (by simp)
    · cases h2 : decSymbolOk s.dec sym <;> simp [h1, h2] at h <;> subst h
      · exact .failed _ _ (.inr ⟨by simp [legalityCell, h1], .inr (.inl rfl)⟩) (by simp)
      · exact .readOut _ _ (by simp [legalityCell, h1]) rfl
  | decRdcode sym =>
    simp only [exec, execDecRdcode, Host.Outcome.next.injEq] at h
    by_cases h1 : s.dec.state = .ready ∨ s.dec.state = .failed
    · have hr : reconstructed s.dec = true := by simpa [reconstructed] using h1
      cases h2 : decSymbolOk s.dec sym <;> simp [hr, h2] at h <;> subst h
      · exact .failed _ _ (.inr ⟨by simp [legalityCell, h1], .inr (.inl rfl)⟩) (by simp)
      · exact .readOut _ _ (by simp [legalityCell, h1]) rfl
    · have hr : reconstructed s.dec = false := by simpa [reconstructed] using h1
      simp [hr] at h; subst h
      exact .failed _ _ (.inl (by simp [legalityCell, h1])) (by simp)
  | decRdcnt len =>
    simp only [exec, execDecRdcnt, Host.Outcome.next.injEq] at h
    by_cases h1 : s.dec.state = .ready ∨ s.dec.state = .failed
    · have hr : reconstructed s.dec = true := by simpa [reconstructed] using h1
      cases h2 : countLenOk s.params len <;> simp [hr, h2] at h <;> subst h
      · exact .failed _ _ (.inr ⟨by simp [legalityCell, h1], .inr (.inl rfl)⟩) (by simp)
      · exact .readOut _ _ (by simp [legalityCell, h1]) rfl
    · have hr : reconstructed s.dec = false := by simpa [reconstructed] using h1
      simp [hr] at h; subst h
      exact .failed _ _ (.inl (by simp [legalityCell, h1])) (by simp)
  | decRdmaxlen =>
    simp only [exec, execDecRdmaxlen, Host.Outcome.next.injEq] at h
    by_cases h1 : s.dec.state = .ready ∨ s.dec.state = .failed
    · have hr : reconstructed s.dec = true := by simpa [reconstructed] using h1
      simp [hr] at h; subst h
      exact .readOut _ _ (by simp [legalityCell, h1]) rfl
    · have hr : reconstructed s.dec = false := by simpa [reconstructed] using h1
      simp [hr] at h; subst h
      exact .failed _ _ (.inl (by simp [legalityCell, h1])) (by simp)
  | decRdfirst len =>
    simp only [exec, execDecRdfirst, Host.Outcome.next.injEq] at h
    by_cases h1 : s.dec.state = .ready ∨ s.dec.state = .failed
    · have hr : reconstructed s.dec = true := by simpa [reconstructed] using h1
      cases h2 : stepLenOk s.dec len <;> simp [hr, h2] at h <;> subst h
      · exact .failed _ _ (.inr ⟨by simp [legalityCell, h1], .inr (.inl rfl)⟩) (by simp)
      · exact .readOut _ _ (by simp [legalityCell, h1]) rfl
    · have hr : reconstructed s.dec = false := by simpa [reconstructed] using h1
      simp [hr] at h; subst h
      exact .failed _ _ (.inl (by simp [legalityCell, h1])) (by simp)
  | decRdoffset len =>
    simp only [exec, execDecRdoffset, Host.Outcome.next.injEq] at h
    by_cases h1 : s.dec.state = .ready ∨ s.dec.state = .failed
    · have hr : reconstructed s.dec = true := by simpa [reconstructed] using h1
      cases h2 : stepLenOk s.dec len <;> simp [hr, h2] at h <;> subst h
      · exact .failed _ _ (.inr ⟨by simp [legalityCell, h1], .inr (.inl rfl)⟩) (by simp)
      · exact .readOut _ _ (by simp [legalityCell, h1]) rfl
    · have hr : reconstructed s.dec = false := by simpa [reconstructed] using h1
      simp [hr] at h; subst h
      exact .failed _ _ (.inl (by simp [legalityCell, h1])) (by simp)

/-! ### Steps -/

/-- What a step can do: wait, execute a legal word, refuse an illegal one, or reset between or inside commands (R32, R96, R250 to R253). -/
inductive StepCase (s : State) : State → Prop where
  | waits (empty : s.host = []) : StepCase s s
  | executes (w : CmdWord) (i : Instr) (t : State) (next : ∃ rest, s.host = .command w :: rest)
      (legal : decode w = .ok i) (case : ExecCase s.popHost i t) : StepCase s t
  | illegal (w : CmdWord) (why : IllegalWord) (next : ∃ rest, s.host = .command w :: rest)
      (notLegal : decode w = .error why) : StepCase s (s.popHost.raise .illegalCommand)
  | resets (next : ∃ rest, s.host = .reset :: rest) : StepCase s s.popHost.blockReset
  | resetsInside (w : CmdWord) (n : Nat) (next : ∃ rest, s.host = .resetDuring w n :: rest) :
      StepCase s (resetInside w n s.popHost)

/-- Every next state of a step is one of the cases. -/
theorem step_cases {s t : State} (h : step s = .next t) : StepCase s t := by
  unfold step at h
  cases hh : s.host with
  | nil =>
    simp only [hh, Host.Outcome.next.injEq] at h
    subst h
    exact .waits hh
  | cons ev rest =>
    simp only [hh] at h
    cases ev with
    | reset =>
      simp only [runEvent, Host.Outcome.next.injEq] at h
      subst h
      exact .resets ⟨rest, hh⟩
    | resetDuring w n =>
      simp only [runEvent, Host.Outcome.next.injEq] at h
      subst h
      exact .resetsInside w n ⟨rest, hh⟩
    | command w =>
      simp only [runEvent, runWord] at h
      cases hd : decode w with
      | ok i =>
        simp only [hd] at h
        exact .executes w i t ⟨rest, hh⟩ hd (exec_cases h)
      | error e =>
        simp only [hd, Host.Outcome.next.injEq] at h
        subst h
        exact .illegal w e ⟨rest, hh⟩ hd

/-! ### Systems -/

/-- What a step of block `n` of a system can do: there is no such block, or that block alone takes its step (R83, R232). -/
theorem System.stepAt_cases {n : Nat} {sys sys' : System} (h : sys.stepAt n = .next sys') :
    (sys.blocks[n]? = none ∧ sys' = sys) ∨
    ∃ s t, sys.blocks[n]? = some s ∧ step s = .next t ∧ sys'.blocks = sys.blocks.set n t := by
  unfold System.stepAt at h
  cases hb : sys.blocks[n]? with
  | none =>
    simp only [hb, Host.Outcome.next.injEq] at h
    exact .inl ⟨rfl, h.symm⟩
  | some s =>
    cases hs : step s with
    | next t =>
      simp only [hb, hs, Host.Outcome.next.injEq] at h
      exact .inr ⟨s, t, rfl, hs, by rw [← h]⟩
    | fault r => simp [hb, hs] at h
    | refused r => simp [hb, hs] at h

end Sys2Proof.Machine
end

