-- ==== Sys2Proof/Laws/PerInstr.lean ====
section
/-! SUPPORT. Per-instruction laws. Family `Fields`: the word of a command has its opcode in `OP` and, when the command is well formed, its
operands in `A` and `B` (R91, R94, R95). -/

namespace Sys2Proof.Laws.Fields

open Sys2Proof

/-- What family `Fields` says of one command. -/
def Statement (i : Instr) : Prop :=
  fieldOp (encode i) = i.opcode ∧
    (i.wellFormed = true → (fieldA (encode i)).toNat = i.operandA ∧ (fieldB (encode i)).toNat = i.operandB)

/-- A command whose operands fit their fields has them there. -/
theorem of_fits (i : Instr) (h : i.wellFormed = true → i.operandA < 2 ^ 24 ∧ i.operandB < 2 ^ 32) : Statement i :=
  ⟨fieldOp_cmdWord _ _ _, fun hw => ⟨fieldA_cmdWord _ _ _ (h hw).1, fieldB_cmdWord _ _ _ (h hw).2⟩⟩

theorem encInit (e k : Nat) : Statement (.encInit e k) :=
  of_fits _ (by simp [Instr.wellFormed, fitsA, fitsB, Instr.operandA, Instr.operandB])
theorem encCount (s n : Nat) : Statement (.encCount s n) :=
  of_fits _ (by simp [Instr.wellFormed, fitsA, fitsB, Instr.operandA, Instr.operandB])
theorem encCreate : Statement .encCreate := of_fits _ (by decide)
theorem encExit : Statement .encExit := of_fits _ (by decide)
theorem encRdfc (s : Nat) : Statement (.encRdfc s) :=
  of_fits _ (by simp [Instr.wellFormed, fitsA, Instr.operandA, Instr.operandB])
theorem encRdlen (s : Nat) : Statement (.encRdlen s) :=
  of_fits _ (by simp [Instr.wellFormed, fitsA, Instr.operandA, Instr.operandB])
theorem encRdcnt (l : Nat) : Statement (.encRdcnt l) :=
  of_fits _ (by simp [Instr.wellFormed, fitsA, Instr.operandA, Instr.operandB])
theorem encRdmaxlen : Statement .encRdmaxlen := of_fits _ (by decide)
theorem encRdnz : Statement .encRdnz := of_fits _ (by decide)
theorem decInit (m : Nat) : Statement (.decInit m) :=
  of_fits _ (by simp [Instr.wellFormed, fitsA, Instr.operandA, Instr.operandB])
theorem decSetlen (s l : Nat) : Statement (.decSetlen s l) :=
  of_fits _ (by simp [Instr.wellFormed, fitsA, fitsB, Instr.operandA, Instr.operandB])
theorem decRecon : Statement .decRecon := of_fits _ (by decide)
theorem decRdsym : Statement .decRdsym := of_fits _ (by decide)
theorem decSync : Statement .decSync := of_fits _ (by decide)
theorem decExit : Statement .decExit := of_fits _ (by decide)
theorem decRdlen (s : Nat) : Statement (.decRdlen s) :=
  of_fits _ (by simp [Instr.wellFormed, fitsA, Instr.operandA, Instr.operandB])
theorem decRdcode (s : Nat) : Statement (.decRdcode s) :=
  of_fits _ (by simp [Instr.wellFormed, fitsA, Instr.operandA, Instr.operandB])
theorem decRdcnt (l : Nat) : Statement (.decRdcnt l) :=
  of_fits _ (by simp [Instr.wellFormed, fitsA, Instr.operandA, Instr.operandB])
theorem decRdmaxlen : Statement .decRdmaxlen := of_fits _ (by decide)
theorem decRdfirst (l : Nat) : Statement (.decRdfirst l) :=
  of_fits _ (by simp [Instr.wellFormed, fitsA, Instr.operandA, Instr.operandB])
theorem decRdoffset (l : Nat) : Statement (.decRdoffset l) :=
  of_fits _ (by simp [Instr.wellFormed, fitsA, Instr.operandA, Instr.operandB])

end Sys2Proof.Laws.Fields
end

