-- ==== Sys2Proof/Laws/StepTable.lean ====
section
/-! SUPPORT. What the decode loop of R173 does, said once: it stops at the first length whose code range holds the bits read so far. -/

namespace Sys2Proof.Machine

open Sys2Proof

/-- The value of a bit list, read on from a running value (R76). -/
def bitsValueFrom (v : Nat) (bits : List Bool) : Nat := bits.foldl (fun v b => 2 * v + b.toNat) v

theorem bitsValueFrom_zero (bits : List Bool) : bitsValueFrom 0 bits = bitsValue bits := rfl

theorem shift_or_bit (v : Nat) (b : Bool) : v <<< 1 ||| b.toNat = 2 * v + b.toNat := by
  have hb : b.toNat < 2 ^ 1 := by cases b <;> decide
  rw [← Nat.shiftLeft_add_eq_or_of_lt hb, Nat.shiftLeft_eq]
  omega

/-- The match condition of R173 at length `len + k` after `k + 1` more bits. -/
theorem codeMatches_iff (u : Decoder) (len v : Nat) :
    codeMatches u len v = true ↔
      0 < (lenEntry u.dCount len).toNat ∧ (lenEntry u.first len).toNat ≤ v ∧
        v < (lenEntry u.first len).toNat + (lenEntry u.dCount len).toNat := by
  simp [codeMatches, and_assoc]

/-- The loop finds the first match: the bits up to it are read, and the symbol is its own. -/
theorem decodeFrom_match (u : Decoder) (ending : StreamEnd) (left len v : Nat) (bits : List Bool) (k : Nat)
    (hk : k < left) (hb : k < bits.length)
    (hm : codeMatches u (len + k) (bitsValueFrom v (bits.take (k + 1))) = true)
    (hn : ∀ j, j < k → codeMatches u (len + j) (bitsValueFrom v (bits.take (j + 1))) = false) :
    decodeFrom u ending left len v bits =
      ⟨(bits.take (k + 1)).map .bit, .symbol (matchedSymbol u (len + k) (bitsValueFrom v (bits.take (k + 1))))⟩ := by
  induction k generalizing left len v bits with
  | zero =>
    obtain ⟨left, rfl⟩ : ∃ n, left = n + 1 := ⟨left - 1, by omega⟩
    cases bits with
    | nil => simp at hb
    | cons b bits =>
      have hm' : codeMatches u len (v <<< 1 ||| b.toNat) = true := by
        simpa [bitsValueFrom, shift_or_bit] using hm
      rw [shift_or_bit] at hm'
      simp [decodeFrom, hm', bitsValueFrom, shift_or_bit]
  | succ k ih =>
    obtain ⟨left, rfl⟩ : ∃ n, left = n + 1 := ⟨left - 1, by omega⟩
    cases bits with
    | nil => simp at hb
    | cons b bits =>
      have h0 : codeMatches u len (v <<< 1 ||| b.toNat) = false := by
        simpa [bitsValueFrom, shift_or_bit] using hn 0 (by omega)
      have hadd : ∀ j, len + (j + 1) = len + 1 + j := by intro j; omega
      have hval : ∀ j, bitsValueFrom v ((b :: bits).take (j + 1 + 1)) =
          bitsValueFrom (v <<< 1 ||| b.toNat) (bits.take (j + 1)) := by
        intro j; simp [bitsValueFrom, shift_or_bit]
      have := ih left (len + 1) (v <<< 1 ||| b.toNat) bits (by omega) (by simpa using hb)
        (by rw [← hval, ← hadd]; exact hm)
        (fun j hj => by rw [← hval, ← hadd]; exact hn (j + 1) (by omega))
      rw [decodeFrom, hval]
      simp [h0, this, hadd k]

/-- No length matches and the bits suffice: all `left` bits are read, and there is no match. -/
theorem decodeFrom_noMatch (u : Decoder) (ending : StreamEnd) (left len v : Nat) (bits : List Bool)
    (hb : left ≤ bits.length)
    (hn : ∀ j, j < left → codeMatches u (len + j) (bitsValueFrom v (bits.take (j + 1))) = false) :
    decodeFrom u ending left len v bits = ⟨(bits.take left).map .bit, .noMatch⟩ := by
  induction left generalizing len v bits with
  | zero => simp [decodeFrom]
  | succ left ih =>
    cases bits with
    | nil => simp at hb
    | cons b bits =>
      have h0 : codeMatches u len (v <<< 1 ||| b.toNat) = false := by
        simpa [bitsValueFrom, shift_or_bit] using hn 0 (by omega)
      have hadd : ∀ j, len + (j + 1) = len + 1 + j := by intro j; omega
      have hval : ∀ j, bitsValueFrom v ((b :: bits).take (j + 1 + 1)) =
          bitsValueFrom (v <<< 1 ||| b.toNat) (bits.take (j + 1)) := by
        intro j; simp [bitsValueFrom, shift_or_bit]
      have := ih (len + 1) (v <<< 1 ||| b.toNat) bits (by simpa using hb)
        (fun j hj => by rw [← hval, ← hadd]; exact hn (j + 1) (by omega))
      rw [decodeFrom]
      simp [h0, this]

/-- No length matches and the bits run out: every bit is read, and then the source's end decides (R176). -/
theorem decodeFrom_end (u : Decoder) (ending : StreamEnd) (left len v : Nat) (bits : List Bool)
    (hb : bits.length < left)
    (hn : ∀ j, j < bits.length → codeMatches u (len + j) (bitsValueFrom v (bits.take (j + 1))) = false) :
    decodeFrom u ending left len v bits =
      match ending with
      | .eos => ⟨bits.map .bit ++ [.eos], .endOfStream⟩
      | .silent => ⟨bits.map .bit, .waiting⟩ := by
  induction bits generalizing left len v with
  | nil =>
    obtain ⟨left, rfl⟩ : ∃ n, left = n + 1 := ⟨left - 1, by simp at hb; omega⟩
    cases ending <;> simp [decodeFrom]
  | cons b bits ih =>
    obtain ⟨left, rfl⟩ : ∃ n, left = n + 1 := ⟨left - 1, by omega⟩
    have h0 : codeMatches u len (v <<< 1 ||| b.toNat) = false := by
      simpa [bitsValueFrom, shift_or_bit] using hn 0 (by simp)
    have hadd : ∀ j, len + (j + 1) = len + 1 + j := by intro j; omega
    have hval : ∀ j, bitsValueFrom v ((b :: bits).take (j + 1 + 1)) =
        bitsValueFrom (v <<< 1 ||| b.toNat) (bits.take (j + 1)) := by
      intro j; simp [bitsValueFrom, shift_or_bit]
    have := ih left (len + 1) (v <<< 1 ||| b.toNat) (by simpa using hb)
      (fun j hj => by rw [← hval, ← hadd]; exact hn (j + 1) (by simpa using hj))
    rw [decodeFrom]
    cases ending <;> simp [h0, this]

end Sys2Proof.Machine
end

