-- ==== Sys2Proof/Tests/Slice0.lean ====
section
/-! SUPPORT. Tests whose expected results are the spec's own (30_encoding.md R100, 95_test_vectors.md, the examples of the rules), then one
witness for each statement's hypotheses, clause by clause. -/

namespace Sys2Proof.Tests

open Sys2Proof Sys2Proof.Machine

/-! ### Helpers -/

/-- The state after a step that answers one. -/
def after (o : Host.Outcome State Fault Refusal) : State :=
  match o with
  | .next t => t
  | .fault _ => State.reset
  | .refused _ => State.reset

/-- The last word on the response port after a command. -/
def answer (i : Instr) (s : State) : Option RspWord :=
  match (after (exec i s)).trace.getLast? with
  | some (.response w) => some w
  | _ => none

/-- `MAX_CODE_BITS = 3`, to keep the tables small. -/
def p3 : Params := ⟨3, by decide, by decide, 0⟩

/-- `MAX_CODE_BITS = 4`. -/
def p4 : Params := ⟨4, by decide, by decide, 1⟩

/-- HENC in COUNTING with these frequencies and limit. -/
def counting (p : Params) (freqs : List Nat) (k : Nat) : Encoder :=
  { openedEncoder Encoder.reset p freqs.length k with freqCode := narrow 32 freqs }

/-- HDEC in LENGTHS with these lengths. -/
def lengths (p : Params) (lens : List Nat) : Decoder :=
  { openedDecoder Decoder.reset p (lens.length - 1) with dLen := narrow 6 lens }

/-- A block with these two units, the arena granting, and nothing else. -/
def block (p : Params) (u : Encoder) (d : Decoder) : State :=
  { State.reset with params := p, enc := u, dec := d, arena := ⟨[true, true], 0⟩ }

/-- The same with these bits in the source. -/
def withBits (s : State) (bits : List Bool) (ending : StreamEnd) : State := { s with bitIO := ⟨0, bits, ending⟩ }

/-- Frequencies of V1, limit 3. -/
def encV1 : Encoder := counting p3 [5, 9, 12, 13, 16] 3

/-- HENC in CODED, with the tables V1 lists. -/
def codedV1 : Encoder :=
  { encV1 with
    state := .coded
    freqCode := [6, 7, 0, 1, 2]
    codeSize := [3, 3, 2, 2, 2]
    eCount := [0, 3, 2]
    maxLen := 3
    nz := 5
    nextCode := [0, 3, 8] }

/-- HDEC in READY, with the tables V11 lists: a complete code. -/
def readyV11 : Decoder :=
  { lengths p3 [3, 3, 2, 2, 2] with
    state := .ready
    dCode := [6, 7, 0, 1, 2]
    dCount := [0, 3, 2]
    maxLen := 3
    first := [0, 0, 6]
    offset := [0, 0, 3]
    sortedSym := [2, 3, 4, 0, 1] }

/-- HDEC in READY, with the tables V16 lists: an underfull code with a gap. -/
def readyV16 : Decoder :=
  { lengths p3 [1, 0, 3, 3] with
    state := .ready
    dCode := [0, 0, 4, 5]
    dCount := [1, 0, 2]
    maxLen := 3
    first := [0, 2, 4]
    offset := [0, 1, 1]
    sortedSym := [0, 2, 3] }

/-- HDEC in FAILED. -/
def failedV11 : Decoder := { readyV11 with state := .failed }

/-- From reset, the arena granting or denying the first request. -/
def fresh (grant : Bool) : State := { State.reset with arena := ⟨[grant], 0⟩ }

def atCounting : State := block p3 encV1 Decoder.reset
def atCoded : State := block p3 codedV1 Decoder.reset
def atLengths : State := block p3 Encoder.reset (lengths p3 [3, 3, 2, 2, 2])
def atReady : State := block p3 Encoder.reset readyV11
def atFailed : State := block p3 Encoder.reset failedV11

/-! ### WellFormed: an ill-formed term for each check (R98) -/

theorem test_wellFormed_refuses_wide_A :
    [Instr.encInit (2 ^ 24) 1, .encCount (2 ^ 24) 0, .encRdfc (2 ^ 24), .encRdlen (2 ^ 24), .encRdcnt (2 ^ 24),
      .decInit (2 ^ 24), .decSetlen (2 ^ 24) 0, .decRdlen (2 ^ 24), .decRdcode (2 ^ 24), .decRdcnt (2 ^ 24),
      .decRdfirst (2 ^ 24), .decRdoffset (2 ^ 24)].any Instr.wellFormed = false := by decide

theorem test_wellFormed_refuses_wide_B :
    [Instr.encInit 1 (2 ^ 32), .encCount 0 (2 ^ 32), .decSetlen 0 (2 ^ 32)].any Instr.wellFormed = false := by decide

/-! ### Decoding: words of R100, V26 and the programs P1 to P4 -/

theorem test_decode_encoder :
    [0x0000000800000510, 0x0000002001000010, 0x0000000C00000211, 0xFFFFFFFF00000011, 0x0000000000000012,
      0x0000000000000013, 0x0000000000000414, 0x0000000000000415, 0x0000000000000216, 0x0000000000000017,
      0x0000000000000018].map (decodeTableWord 64) =
    [some (.encInit 5 8), some (.encInit 65536 32), some (.encCount 2 12), some (.encCount 0 0xFFFFFFFF),
      some .encCreate, some .encExit, some (.encRdfc 4), some (.encRdlen 4), some (.encRdcnt 2), some .encRdmaxlen,
      some .encRdnz] := by decide

theorem test_decode_decoder :
    [0x0000000000FFFF20, 0x0000000300000021, 0x0000000000000022, 0x0000000000000023, 0x0000000000000024,
      0x0000000000000025, 0x0000000000000226, 0x0000000000000127, 0x0000000000000028,
      0x0000000000000029, 0x000000000000032A, 0x000000000000032B].map (decodeTableWord 64) =
    [some (.decInit 65535), some (.decSetlen 0 3), some .decRecon, some .decRdsym, some .decSync, some .decExit,
      some (.decRdlen 2), some (.decRdcode 1), some (.decRdcnt 0), some .decRdmaxlen, some (.decRdfirst 3),
      some (.decRdoffset 3)] := by decide

/-- V27, and the edges of R96's ranges. -/
theorem test_illegal_words :
    [0x00, 0x0F, 0x19, 0x1F, 0x2C, 0xFF, 0x112, 0x100000014, 0x100000023].map (decodeTableWord 64) =
      List.replicate 9 none := by decide

/-- R97: no two rows of the match and mask listing share a word (on the mask both check, the patterns differ). -/
theorem test_opcode_rows_disjoint :
    opcodeTable.Pairwise (fun r q => r.pattern &&& q.mask ≠ q.pattern &&& r.mask) := by decide

/-! ### Response words and unit states -/

/-- V28. -/
theorem test_response_words :
    rspWord .ok 6 = 0x0000000000000006 ∧ rspWord .sequenceError 0 = 0x0000000500000000 ∧
    rspWord .ok 0xFFFFFFFF = 0x00000000FFFFFFFF ∧ rspWord .illegalCommand 0 = 0x0000000700000000 := by decide

theorem test_status_codes :
    [Status.ok, .outOfMemory, .invalidConfiguration, .streamCorruption, .invalidCodeLengths, .sequenceError,
      .invalidArgument, .illegalCommand].map Status.code = [0, 1, 2, 3, 4, 5, 6, 7] := by decide

/-- V27: a decoder in FAILED answers an illegal DEC.RDSYM with IllegalCommand. -/
theorem test_illegal_before_failed :
    (after (step (atFailed.withFetchWord 64 0x0000000100000023))).trace = [.response 0x0000000700000000] := by decide

/-! ### One step per command -/

/-- V24: the rows from RELEASED. -/
theorem test_V24_released :
    [Instr.encInit 0 8, .encInit 65537 32, .encInit 65536 32, .encInit 3 0, .encInit 3 33, .encInit 257 8,
      .encInit 256 8, .encCount 0 1, .encRdfc 0, .encExit].map (fun i => answer i (fresh true)) =
    [some 0x200000000, some 0x200000000, some 0, some 0x200000000, some 0x200000000, some 0x200000000, some 0,
      some 0x500000000, some 0x500000000, some 0] := by decide

/-- V24: OutOfMemory, with the request on the arena port; the unit stays RELEASED (R121). -/
theorem test_init_denied :
    (after (exec (.encInit 3 2) (fresh false))).trace =
      [.arenaRequest .henc [⟨.freqCode, 4⟩, ⟨.codeSize, 4⟩, ⟨.work, 4⟩, ⟨.eCount, 64⟩, ⟨.eNextCode, 64⟩] false,
        .response 0x0000000100000000] ∧
    (after (exec (.encInit 3 2) (fresh false))).enc = Encoder.reset := by decide

/-- V24: the rows from COUNTING (here E = 5). -/
theorem test_V24_counting :
    [Instr.encInit 3 2, .encCount 5 1, .encCount 4 0, .encRdlen 0, .encRdmaxlen, .encRdfc 0].map
      (fun i => answer i atCounting) =
    [some 0x500000000, some 0x600000000, some 0, some 0x500000000, some 0x500000000, some 5] := by decide

/-- V24: the rows from CODED, with `MAX_CODE_BITS = 3` and E = 5; the values are P1's. -/
theorem test_V24_coded :
    [Instr.encCount 0 1, .encCreate, .encRdlen 5, .encRdcnt 0, .encRdcnt 4, .encRdcnt 2, .encRdlen 0, .encRdfc 0,
      .encRdmaxlen, .encRdnz, .encExit].map (fun i => answer i atCoded) =
    [some 0x500000000, some 0x500000000, some 0x600000000, some 0x600000000, some 0x600000000, some 3, some 3,
      some 6, some 3, some 5, some 0] := by decide

/-- R122: the example with the wrap. -/
theorem test_count_wraps :
    (after (exec (.encCount 2 0x20) (block p3 (counting p3 [0, 0, 0xFFFFFFF0] 3) Decoder.reset))).enc.freqCode =
      [0, 0, 0x10] := by decide

/-- V1: lengths, codes, counts. -/
theorem test_create_V1 :
    let u := (after (exec .encCreate (block Params.default (counting Params.default [5, 9, 12, 13, 16] 8) Decoder.reset))).enc
    u.codeSize = [3, 3, 2, 2, 2] ∧ u.freqCode = [6, 7, 0, 1, 2] ∧ u.eCount = [0, 3, 2] ++ List.replicate 29 0 ∧
    u.maxLen = 3 ∧ u.nz = 5 := by decide

/-- V2 (ties), V4 (the limit), V5 (one symbol), V8 (none), V10 (tie order) and V22 (exact weights): the lengths. -/
theorem test_create_lengths :
    [([1, 1, 2, 2], 8), ([1, 1, 2, 3, 5, 8, 13, 21], 4), ([0, 0, 7, 0], 4), ([0, 0, 0], 3), ([1, 1, 1], 8),
      ([1, 1, 0xFFFFFFFF], 3), ([1, 1, 0xFFFFFFFF, 0xFFFFFFFF], 3)].map
      (fun c => (after (exec .encCreate
        (block Params.default (counting Params.default c.1 c.2) Decoder.reset))).enc.codeSize) =
    [[2, 2, 2, 2], [4, 4, 4, 4, 3, 3, 2, 2], [0, 0, 1, 0], [0, 0, 0], [2, 2, 1], [2, 2, 1], [3, 3, 2, 1]] := by decide

/-- R124: the example. -/
theorem test_exit :
    (after (exec .encExit atCoded)).trace = [.arenaRelease .henc codedV1.buffers, .response 0] ∧
    (after (exec .encExit atCoded)).enc.state = .released ∧
    (after (exec .decExit atFailed)).trace = [.arenaRelease .hdec failedV11.buffers, .response 0] ∧
    (after (exec .encExit State.reset)).trace = [.response 0] ∧
    (after (exec .decExit State.reset)).trace = [.response 0] := by decide

/-- V25: the rows from RELEASED. -/
theorem test_V25_released :
    [Instr.decInit 65535, .decInit 65536, .decRdsym, .decSync, .decRdlen 0].map (fun i => answer i (fresh true)) =
      [some 0, some 0x200000000, some 0x500000000, some 0x500000000, some 0x500000000] ∧
    answer (.decInit 4) (fresh false) = some 0x100000000 := by decide

/-- V25: the rows from LENGTHS (here M = 4, `MAX_CODE_BITS = 3`). -/
theorem test_V25_lengths :
    [Instr.decInit 2, .decSetlen 5 1, .decSetlen 0 4, .decSetlen 5 4, .decSetlen 0 3, .decRdsym, .decRdcode 0,
      .decRdlen 0].map (fun i => answer i atLengths) =
    [some 0x500000000, some 0x600000000, some 0x400000000, some 0x600000000, some 0, some 0x500000000,
      some 0x500000000, some 3] := by decide

/-- R171: the write. -/
theorem test_setlen_writes : (after (exec (.decSetlen 1 2) atLengths)).dec.dLen = [3, 2, 2, 2, 2] := by decide

/-- V11: the tables of DEC.RECON. -/
theorem test_recon_V11 : (after (exec .decRecon atLengths)).dec = readyV11 := by decide

/-- V14 (oversubscribed) and V16 (a length gap). -/
theorem test_recon_V14_V16 :
    answer .decRecon (block p3 Encoder.reset (lengths p3 [1, 1, 1])) = some 0x400000000 ∧
    (after (exec .decRecon (block p3 Encoder.reset (lengths p3 [1, 0, 3, 3])))).dec = readyV16 := by decide

/-- V25: the rows from READY and FAILED, with the values of P2. -/
theorem test_V25_ready_failed :
    [Instr.decSetlen 0 1, .decRecon, .decRdcnt 0, .decRdcnt 4, .decRdcnt 3, .decRdoffset 4, .decRdoffset 3,
      .decRdfirst 3, .decRdmaxlen].map (fun i => answer i atReady) =
      [some 0x500000000, some 0x500000000, some 0x600000000, some 0x600000000, some 2, some 0x600000000, some 3,
        some 6, some 3] ∧
    [Instr.decRdsym, .decSync, .decSetlen 0 1, .decRdcode 1].map (fun i => answer i atFailed) =
      [some 0x300000000, some 0x300000000, some 0x500000000, some 7] := by decide

/-- V16: the stream `101`, then `110 1`: symbol 3 after three bits, then corruption with three bits consumed. -/
theorem test_rdsym_V16 :
    let s := block p3 Encoder.reset readyV16
    answer .decRdsym (withBits s [true, false, true] .eos) = some 3 ∧
    (after (exec .decRdsym (withBits s [true, true, false, true] .eos))).bitIO.bits = [true] ∧
    (after (exec .decRdsym (withBits s [true, true, false, true] .eos))).dec.state = .failed := by decide

/-- V13: the stream `11`, then the end. -/
theorem test_rdsym_V13 :
    (after (exec .decRdsym (withBits atReady [true, true] .eos))).trace =
      [.bitRead (.bit true), .bitRead (.bit true), .bitRead .eos, .response 0x0000000300000000] := by decide

/-- R174: one align request. -/
theorem test_sync : (after (exec .decSync atReady)).trace = [.bitAlign, .response 0] := by decide

/-! ### The assembler (R98, R99) -/

theorem test_asm_numbers :
    asmNumber ['0', 'x', '2', 'A'] = some 42 ∧ asmNumber ['1', '0'] = some 10 ∧ asmNumber ['0', 'x'] = none ∧
    asmNumber ['1', 'A'] = none ∧ asmNumber [] = none ∧
    asmOperands [' ', '5', ',', ' ', '8'] = some [5, 8] := by decide

/-- R98's examples. -/
theorem test_asm_lines :
    assembleLine "ENC.INIT 5, 8 ; V1" = .commands [.encInit 5 8] ∧ assembleLine "ENC.CREATE" = .commands [.encCreate] ∧
    assembleLine "DEC.INIT 16777216" = .error ∧ assembleLine "; a comment" = .blank := by decide

theorem test_asm_spelled :
    spelled "ENC.INIT" [5, 8] = some [.encInit 5 8] ∧ spelled "DEC.RDSYM" [1] = none ∧
    spelled "DEC.SETLENS" [1, 0] = some [.decSetlen 0 1, .decSetlen 1 0] ∧
    spelled "ENC.COUNTS" [0, 7] = some [.encCount 1 7] := by decide

/-! ### Invariants of the states used below -/

theorem encV1_shape : EncShape p3 encV1 where
  e_pos := by decide
  e_le := by decide
  k_pos := by decide
  k_le := by decide
  e_le_pow := by decide
  freq_size := by decide
  size_size := by decide
  count_size := by decide
  owns := by decide

theorem codedV1_shape : EncShape p3 codedV1 where
  e_pos := by decide
  e_le := by decide
  k_pos := by decide
  k_le := by decide
  e_le_pow := by decide
  freq_size := by decide
  size_size := by decide
  count_size := by decide
  owns := by decide

theorem encV1_session : EncSession p3 encV1 :=
  show EncShape p3 encV1 ∧ _ ∧ _ from ⟨encV1_shape, by decide, by decide⟩

theorem codedV1_session : EncSession p3 codedV1 :=
  show EncShape p3 codedV1 ∧ _ from ⟨codedV1_shape, by decide⟩

theorem codedV1_prefixFree : PrefixFree codedV1.e.toNat codedV1.lenOf codedV1.codeOf := by
  have h : ∀ a < 5, ∀ b < 5, a ≠ b → ¬ (codedV1.lenOf a ≤ codedV1.lenOf b ∧
      codedV1.codeOf b / 2 ^ (codedV1.lenOf b - codedV1.lenOf a) = codedV1.codeOf a) := by decide
  exact fun a b ha hb hab _ _ => h a ha b hb hab

theorem codedV1_laws : CodedLaws p3 codedV1 where
  len_le := by decide
  kraft_le := by decide
  kraft_eq := by decide
  codes := by decide
  code_lt := by decide
  prefix_free := codedV1_prefixFree
  unused := by decide
  counts l h₁ h₂ := by
    have h : ∀ l < 4, 1 ≤ l → (lenEntry codedV1.eCount l).toNat = (nats codedV1.codeSize).count l := by decide
    exact h l (Nat.lt_succ_of_le h₂) h₁
  longest := by decide
  used := by decide

theorem lengths_shape : DecShape p3 (lengths p3 [3, 3, 2, 2, 2]) where
  len_size := by decide
  code_size := by decide
  len_le := by decide
  owns := by decide

theorem lengths_session : DecSession p3 (lengths p3 [3, 3, 2, 2, 2]) :=
  show DecShape p3 (lengths p3 [3, 3, 2, 2, 2]) ∧ _ from ⟨lengths_shape, by decide⟩

/-- V14's lengths. -/
theorem oversubscribed_session : DecSession p3 (lengths p3 [1, 1, 1]) :=
  show DecShape p3 (lengths p3 [1, 1, 1]) ∧ _ from ⟨⟨by decide, by decide, by decide, by decide⟩, by decide⟩

theorem readyV11_shape : DecShape p3 readyV11 where
  len_size := by decide
  code_size := by decide
  len_le := by decide
  owns := by decide

theorem readyV11_tables : Reconstructed p3 readyV11 where
  kraft := by decide
  counts l h₁ h₂ := by
    have h : ∀ l < 4, 1 ≤ l → (lenEntry readyV11.dCount l).toNat = (nats readyV11.dLen).count l := by decide
    exact h l (Nat.lt_succ_of_le h₂) h₁
  starts l h₁ h₂ := by
    have h : ∀ l < 4, 1 ≤ l → (lenEntry readyV11.first l).toNat = startOf (nats readyV11.dLen) l := by decide
    exact h l (Nat.lt_succ_of_le h₂) h₁
  offs l h₁ h₂ := by
    have h : ∀ l < 4, 1 ≤ l →
        (lenEntry readyV11.offset l).toNat = ∑ j ∈ Finset.Ico 1 l, (nats readyV11.dLen).count j := by decide
    exact h l (Nat.lt_succ_of_le h₂) h₁
  longest := by decide
  codes s hs hl := by
    have h : ∀ s < 5, readyV11.codeOf s = canonCode (nats readyV11.dLen) s := by decide
    exact h s (Nat.lt_succ_of_le hs)
  unused s hs hl := by
    have h : ∀ s < 5, readyV11.lenOf s ≠ 0 := by decide
    exact absurd hl (h s (Nat.lt_succ_of_le hs))
  sorted := by decide

theorem readyV11_session : DecSession p3 readyV11 :=
  show DecShape p3 readyV11 ∧ Reconstructed p3 readyV11 from ⟨readyV11_shape, readyV11_tables⟩

theorem failedV11_session : DecSession p3 failedV11 :=
  show DecShape p3 failedV11 ∧ Reconstructed p3 failedV11 from
    ⟨⟨by decide, by decide, by decide, by decide⟩,
      ⟨readyV11_tables.kraft, readyV11_tables.counts, readyV11_tables.starts, readyV11_tables.offs,
        readyV11_tables.longest, readyV11_tables.codes, readyV11_tables.unused, readyV11_tables.sorted⟩⟩

/-- A block with both units open. -/
def atBoth : State := block p3 codedV1 readyV11

theorem atBoth_session : SessionInv atBoth := ⟨codedV1_session, readyV11_session⟩

theorem atBoth_coded : CodedInv atBoth := fun _ => codedV1_laws

/-! ### Witnesses: the hypotheses of each statement, clause by clause, at the edges of their ranges -/

theorem witness_DecodeOfEncodeIsIdentity :
    (Instr.encInit (2 ^ 24 - 1) (2 ^ 32 - 1)).wellFormed = true ∧ (Instr.decRdoffset 0).wellFormed = true := by decide

theorem witness_EncodeOfDecodeIsIdentity : decode 0xFFFFFFFFFFFFFF21 = .ok (.decSetlen (2 ^ 24 - 1) (2 ^ 32 - 1)) := by
  decide

theorem witness_AssembledWordHoldsItsFields : 2 ^ 8 - 1 < 2 ^ 8 ∧ 2 ^ 24 - 1 < 2 ^ 24 ∧ 2 ^ 32 - 1 < 2 ^ 32 := by decide

theorem witness_MatchAndMaskAgreeWithDecode :
    (⟨"ENC.RDFC", 0x14, maskA⟩ : OpRow) ∈ opcodeTable ∧
    (⟨"ENC.RDFC", 0x14, maskA⟩ : OpRow).matchesWord 0x414 = true ∧
    (⟨"ENC.RDFC", 0x14, maskA⟩ : OpRow).matchesWord 0x100000014 = false := by decide

theorem witness_IllegalWordsAreRefusedWhole :
    decode 0x2C = .error (.unknownOp 0x2C) ∧ decode 0x112 = .error .nonzeroA ∧ decode 0x100000014 = .error .nonzeroB := by
  decide

theorem witness_StepRunsTheDecodedCommand :
    (State.reset.withFetchWord 64 0x12).host = [.command 0x12] ∧ decode 0x12 = .ok .encCreate := by decide

theorem witness_StepWaitsForACommand : State.reset.host = [] := by decide

theorem witness_EveryCommandRespondsOnce : exec .encCreate State.reset = .next (State.reset.raise .sequenceError) :=
  rfl

/-- Each status of `StatusesOfEachCommand` that DEC.RDSYM may return. -/
theorem witness_StatusesOfEachCommand :
    answer .decRdsym (withBits atReady [false, false] .eos) = some 2 ∧ answer .decRdsym atReady = some 0x300000000 ∧
    answer .decRdsym State.reset = some 0x500000000 := by decide

theorem witness_EncInitFollowsItsRule :
    65536 < 2 ^ 24 ∧ 32 < 2 ^ 32 ∧ atCounting.enc.state ≠ .released ∧
    (fresh true).enc.state = .released ∧ (fresh true).params.maxCodeBits = 32 ∧
    (0 < 1 ∧ 65536 < 65537 ∧ 32 < 33 ∧ 2 ^ 8 < 257) ∧
    ((fresh false).arenaAnswer = false ∧ (fresh true).arenaAnswer = true) ∧ 65536 ≤ 2 ^ 32 ∧ 1 ≤ 2 ^ 1 := by decide

/-- The statement's conclusion at the largest alphabet. -/
theorem witness_EncInit_runs : answer (.encInit 65536 32) (fresh true) = some 0 ∧
    answer (.encInit 1 1) (fresh true) = some 0 := by decide

theorem witness_EncCountFollowsItsRule :
    State.reset.enc.state ≠ .counting ∧ atCounting.enc.state = .counting ∧ atCounting.enc.e.toNat ≤ 5 ∧
    4 < atCounting.enc.e.toNat ∧ atCounting.enc.freqCode.length = atCounting.enc.e.toNat := by decide

theorem witness_EncCreateFollowsItsRule :
    State.reset.enc.state ≠ .counting ∧ atCounting.enc.state = .counting ∧ EncSession atCounting.params atCounting.enc :=
  ⟨by decide, by decide, encV1_session⟩

theorem witness_EncExitFollowsItsRule : State.reset.enc.state = .released ∧ atCoded.enc.state ≠ .released := by decide

theorem witness_EncoderReadOutsFollowTheirRules :
    State.reset.enc.state = .released ∧ atCounting.enc.state ≠ .released ∧ atCounting.enc.state ≠ .coded ∧
    atCoded.enc.state = .coded ∧ atCoded.enc.e.toNat = 5 ∧ atCoded.params.maxCodeBits = 3 := by decide

theorem witness_LegalityTablesHold :
    legalityCell .decSync .released .failed = some .streamCorruption ∧
    legalityCell .encCreate .counting .released = none ∧
    exec .encCreate State.reset = .next (State.reset.raise .sequenceError) := ⟨by decide, by decide, rfl⟩

theorem witness_PackageMerge :
    [0, 1].Nodup ∧ 2 ≤ [0, 1].length ∧ [0, 1].length ≤ 2 ^ 1 ∧
    (∀ x ∈ [0, 1], 1 ≤ (fun _ : Nat => 1) x ∧ (fun _ : Nat => 1) x ≤ 1) ∧
    ([0, 1].map (fun x => 2 ^ (1 - (fun _ : Nat => 1) x))).sum ≤ 2 ^ 1 := by decide

theorem witness_CreateEstablishesTheCodedLaws :
    ∃ t, atCounting.enc.state = .counting ∧ EncSession atCounting.params atCounting.enc ∧
      exec .encCreate atCounting = .next t := ⟨_, rfl, encV1_session, rfl⟩

/-- Two values of `MAX_CODE_BITS`. -/
theorem witness_CreateIsAFunctionOfCountsAndLimit :
    EncSession p4 (counting p4 [5, 9, 12, 13, 16] 3) ∧ EncSession p3 encV1 ∧
    (counting p4 [5, 9, 12, 13, 16] 3).freqCode = encV1.freqCode ∧ (counting p4 [5, 9, 12, 13, 16] 3).k = encV1.k :=
  ⟨show EncShape p4 (counting p4 [5, 9, 12, 13, 16] 3) ∧ _ ∧ _ from
      ⟨⟨by decide, by decide, by decide, by decide, by decide, by decide, by decide, by decide, by decide⟩,
        by decide, by decide⟩,
    encV1_session, by decide, by decide⟩

theorem witness_DecInitFollowsItsRule :
    65535 < 2 ^ 24 ∧ atLengths.dec.state ≠ .released ∧ (fresh true).dec.state = .released ∧ 65535 < 65536 ∧
    (fresh false).arenaAnswer = false ∧ (fresh true).arenaAnswer = true ∧
    answer (.decInit 65535) (fresh true) = some 0 ∧ answer (.decInit 0) (fresh true) = some 0 := by decide

theorem witness_DecSetlenFollowsItsRule :
    State.reset.dec.state ≠ .lengths ∧ atLengths.dec.state = .lengths ∧ atLengths.dec.m.toNat = 4 ∧
    atLengths.params.maxCodeBits = 3 ∧ atLengths.dec.dLen.length = atLengths.dec.m.toNat + 1 := by decide

theorem witness_DecReconFollowsItsRule :
    (atLengths.dec.state = .lengths ∧ DecSession p3 atLengths.dec ∧ kraftUnits 3 5 atLengths.dec.lenOf = 2 ^ 3) ∧
    DecSession p3 (lengths p3 [1, 1, 1]) ∧ 2 ^ 3 < kraftUnits 3 3 (lengths p3 [1, 1, 1]).lenOf :=
  ⟨⟨by decide, lengths_session, by decide⟩, oversubscribed_session, by decide⟩

/-- A match at the longest length, no match, the end of the stream, and silence. -/
theorem witness_DecRdsymFollowsItsRule :
    atFailed.dec.state = .failed ∧ atLengths.dec.state = .lengths ∧ atReady.dec.state = .ready ∧
    (MatchesAt readyV11 [true, true, false] 3 ∧ ∀ j < 3, 1 ≤ j → ¬ MatchesAt readyV11 [true, true, false] j) ∧
    (readyV16.maxLen.toNat ≤ 3 ∧ ∀ j < 4, 1 ≤ j → ¬ MatchesAt readyV16 [true, true, false] j) ∧
    (2 < readyV11.maxLen.toNat ∧ ∀ j < 3, 1 ≤ j → ¬ MatchesAt readyV11 [true, true] j) ∧
    exec .decRdsym (withBits atReady [true, true] .silent) = .fault .bitReadNeverAnswered := by
  unfold MatchesAt
  exact ⟨by decide, by decide, by decide, by decide, by decide, by decide, rfl⟩

theorem witness_DecSyncFollowsItsRule :
    atFailed.dec.state = .failed ∧ State.reset.dec.state = .released ∧ atLengths.dec.state = .lengths ∧
    atReady.dec.state = .ready := by decide

theorem witness_DecExitFollowsItsRule : State.reset.dec.state = .released ∧ atFailed.dec.state ≠ .released := by decide

theorem witness_DecoderReadOutsFollowTheirRules :
    State.reset.dec.state = .released ∧ atLengths.dec.state = .lengths ∧ atReady.dec.state = .ready ∧
    atFailed.dec.state = .failed ∧ atReady.dec.m.toNat = 4 ∧ atReady.dec.maxLen.toNat = 3 ∧
    DecSession atReady.params atReady.dec :=
  ⟨by decide, by decide, by decide, by decide, by decide, by decide, readyV11_session⟩

theorem witness_ReconstructedCodesArePrefixFree :
    DecSession p3 readyV11 ∧ DecSession p3 failedV11 ∧ EncShape p3 codedV1 ∧ CodedLaws p3 codedV1 ∧
    codedV1.codeSize = readyV11.dLen :=
  ⟨readyV11_session, failedV11_session, codedV1_shape, codedV1_laws, by decide⟩

theorem witness_DecodingAgreesWithSearchingTheCodes :
    ∃ t, exec .decRdsym (withBits atReady [true, true, false] .eos) = .next t ∧ lastStatus t = some 0 ∧
      readyV11.lenOf 0 ≤ [true, true, false].length ∧
      readyV11.codeOf 0 = bitsValue ([true, true, false].take (readyV11.lenOf 0)) :=
  ⟨_, rfl, by decide, by decide, by decide⟩

theorem witness_EncoderAndDecoderRoundTrip :
    EncShape p3 codedV1 ∧ CodedLaws p3 codedV1 ∧ atLengths.dec.state = .lengths ∧ DecSession p3 atLengths.dec ∧
    atLengths.dec.m.toNat + 1 = codedV1.e.toNat ∧ codedV1.lenOf 1 ≠ 0 ∧
    bitsOfCode (codedV1.lenOf 1) (codedV1.codeOf 1) = [true, true, true] :=
  ⟨codedV1_shape, codedV1_laws, by decide, lengths_session, by decide, by decide, by decide⟩

theorem witness_RdsymReadsAtMostTheLongestLength :
    DecSession p3 readyV11 ∧ (requestsOf .decRdsym (withBits atReady [true, true] .eos)).length = 3 :=
  ⟨readyV11_session, by decide⟩

theorem witness_CompleteCodeAlwaysMatches :
    DecSession p3 readyV11 ∧ kraftUnits 3 5 readyV11.lenOf = 2 ^ 3 ∧
    lastStatus (after (exec .decRdsym (withBits atReady [true, true] .eos))) = some 3 :=
  ⟨readyV11_session, by decide, by decide⟩

theorem witness_StepKeepsTheInvariants :
    ∃ t, SessionInv (atBoth.issue 0x23) ∧ CodedInv (atBoth.issue 0x23) ∧ step (atBoth.issue 0x23) = .next t :=
  ⟨_, atBoth_session, atBoth_coded, rfl⟩

/-- Two states after reset that differ in `ENC_E` and in `DCount[]`. -/
theorem witness_UnspecifiedValuesAreUnobservable :
    SameObservable State.reset
      { State.reset with enc := { Encoder.reset with e := 7 }, dec := { Decoder.reset with dCount := [1] } } where
  params := rfl
  enc := ⟨rfl, rfl, fun h => absurd rfl h, fun h => nomatch h⟩
  dec := ⟨rfl, rfl, fun h => absurd rfl h, fun h => nomatch h⟩
  host := rfl
  arena := rfl
  bitIO := rfl
  trace := rfl

theorem witness_UnitsAndInstancesAreIsolated :
    exec .decRdmaxlen atBoth = .next (atBoth.respond .ok 3) ∧
    (⟨[atBoth.issue 0x29, State.reset], by decide⟩ : System).stepAt 0 =
      .next ⟨[atBoth.respond .ok 3, State.reset], by decide⟩ ∧
    (1 : Nat) ≠ 0 := ⟨rfl, rfl, by decide⟩

/-- The four ways of `FailuresArePrecise`. -/
theorem witness_FailuresArePrecise :
    [(.encCreate, State.reset), (.decRdsym, atReady), (.encInit 1 1, fresh false), (.decInit 0, fresh false)].map
      (fun c => lastStatus (after (exec c.1 c.2))) = [some 5, some 3, some 1, some 1] := by decide

theorem witness_UnitStateTransitions :
    exec .decRdmaxlen atBoth = .next (atBoth.respond .ok 3) := rfl

theorem witness_FailedIsLeftOnlyByExitOrReset :
    ∃ t, atFailed.dec.state = .failed ∧ step (atFailed.issue 0x25) = .next t ∧ t.dec.state = .released :=
  ⟨_, rfl, rfl, rfl⟩

theorem witness_OnlyAnUnansweredReadStops :
    step ((withBits atReady [] .silent).issue 0x23) = .fault .bitReadNeverAnswered := rfl

theorem witness_ResetReleasesBothUnits : ({ atBoth with host := [.reset] } : State).host = .reset :: [] := by decide

theorem witness_ResetInsideACommand :
    ({ atBoth with host := [.resetDuring 0x23 1] } : State).host = .resetDuring 0x23 1 :: [] ∧
    decode 0x23 = .ok .decRdsym ∧ atBoth.dec.state = .ready ∧
    decode 0x0000000800000510 = .ok (.encInit 5 8) ∧ encInitCheck (fresh true) 5 8 = none ∧ 1 ≤ 1 := by decide

theorem witness_ReadOutsAreIdempotent :
    isReadOut .encRdnz = true ∧ (atCoded.respond .ok 5).params = atCoded.params ∧
    (atCoded.respond .ok 5).enc = atCoded.enc ∧ (atCoded.respond .ok 5).dec = atCoded.dec := by decide

theorem witness_RequestsComeAfterTheChecks :
    requestsOf (.encInit 65536 32) (fresh true) ≠ [] ∧ requestsOf (.decInit 65535) (fresh false) ≠ [] ∧
    requestsOf .encExit atCoded ≠ [] ∧ requestsOf .decExit atReady ≠ [] ∧ requestsOf .decRdsym atReady ≠ [] ∧
    requestsOf .decSync atReady ≠ [] := by decide

/-- A size that is a power of two, and one above it. -/
theorem witness_ArenaRequestsArePowersOfTwo : 1 ≤ 1 ∧ roundPow2 1 = 1 ∧ roundPow2 4 = 4 ∧ roundPow2 5 = 8 := by decide

theorem witness_AssembledLinesFitTheirFields : assembleLine "DEC.RDSYM" = .commands [.decRdsym] := by decide

/-- A system of two blocks with different parameters, of which the first takes a step. -/
theorem witness_ParametersAreFixedPerInstance :
    step (atBoth.issue 0x29) = .next (atBoth.respond .ok 3) ∧
    (⟨[atBoth.issue 0x29, State.reset], by decide⟩ : System).stepAt 0 =
      .next ⟨[atBoth.respond .ok 3, State.reset], by decide⟩ ∧ p3 ≠ Params.default := ⟨rfl, rfl, by decide⟩

end Sys2Proof.Tests
end

section
/-! Canonical codes: the codes of one length fit it, and no code is a prefix of another (R8, R13, R131, R172). -/

namespace Sys2Proof.Machine

open Sys2Proof

/-- The Kraft sum over symbols is the Kraft sum over the list of their lengths (R8). -/
theorem kraftUnits_eq_kraftSum (k : Nat) (lens : List Nat) (len : Nat → Nat)
    (hlen : ∀ s, s < lens.length → len s = lenAt lens s) : kraftUnits k lens.length len = kraftSum k lens := by
  induction lens generalizing len with
  | nil => rfl
  | cons l ls ih =>
    have htail : kraftUnits k ls.length (fun s => len (s + 1)) = kraftSum k ls :=
      ih _ fun s hs => hlen (s + 1) (Nat.succ_lt_succ hs)
    have hhead : len 0 = l := hlen 0 (Nat.succ_pos _)
    rw [kraftUnits] at htail ⊢
    rw [List.length_cons, Finset.sum_range_succ', htail, hhead, Nat.add_comm]
    simp [kraftSum]

theorem lenAt_eq_getElem {lens : List Nat} {s : Nat} (hs : s < lens.length) : lenAt lens s = lens[s] := by
  simp [lenAt, hs]

theorem lenAt_mem {lens : List Nat} {s : Nat} (hs : s < lens.length) : lenAt lens s ∈ lens := by
  rw [lenAt_eq_getElem hs]
  exact List.getElem_mem hs

/-- Symbol `a` counts itself among the symbols of its length below any later bound. -/
theorem count_take_lt {lens : List Nat} {a b : Nat} (hab : a < b) (hb : b ≤ lens.length) :
    (lens.take a).count (lenAt lens a) < (lens.take b).count (lenAt lens a) := by
  have ha : a < lens.length := by omega
  have hsub : (lens.take (a + 1)).count (lenAt lens a) ≤ (lens.take b).count (lenAt lens a) :=
    (List.take_sublist_take_left (by omega)).count_le _
  rw [← List.take_concat_get' lens a ha, List.count_append, lenAt_eq_getElem ha] at hsub
  rw [lenAt_eq_getElem ha]
  simp at hsub
  omega

/-- A code stays below the end of its length's range. -/
theorem canonCode_lt_end {lens : List Nat} {s : Nat} (hs : s < lens.length) :
    canonCode lens s < startOf lens (lenAt lens s) + lens.count (lenAt lens s) := by
  have := count_take_lt hs le_rfl
  rw [List.take_length] at this
  simp only [canonCode]
  omega

/-- The range of a shorter length, continued to a longer one, ends before the longer length's range starts. -/
theorem startOf_end_mul_le (lens : List Nat) {l m : Nat} (hl : l ≠ 0) (hlm : l < m) :
    (startOf lens l + lens.count l) * 2 ^ (m - l) ≤ startOf lens m := by
  induction m, hlm using Nat.le_induction with
  | base => simp [startOf_succ lens l hl]
  | succ m hm ih =>
    rw [startOf_succ lens m (by omega), Nat.sub_add_comm (by omega : l ≤ m), Nat.pow_succ, ← Nat.mul_assoc]
    exact Nat.mul_le_mul_right 2 (Nat.le_add_right_of_le ih)

/-- R172: a code of a set that is not oversubscribed fits in its length. -/
theorem canonCode_lt_two_pow {lens : List Nat} {n s : Nat} (hle : ∀ l ∈ lens, l ≤ n) (hk : kraftSum n lens ≤ 2 ^ n)
    (hs : s < lens.length) (hused : lenAt lens s ≠ 0) : canonCode lens s < 2 ^ lenAt lens s :=
  (canonCode_lt_end hs).trans_le
    (startOf_add_count_le lens n _ hle hk (Nat.one_le_iff_ne_zero.mpr hused) (hle _ (lenAt_mem hs)))

/-- Two symbols of one length have two codes. -/
theorem canonCode_ne {lens : List Nat} {a b : Nat} (ha : a < lens.length) (hb : b < lens.length) (hne : a ≠ b)
    (hlen : lenAt lens a = lenAt lens b) : canonCode lens a ≠ canonCode lens b := by
  simp only [canonCode, ne_eq, hlen, Nat.add_left_cancel_iff]
  rcases Nat.lt_or_gt_of_ne hne with h | h
  · have := count_take_lt h hb.le
    rw [hlen] at this
    omega
  · have := count_take_lt h ha.le
    omega

/-- R52: canonical codes are prefix-free. A prefix of the same length is the same code; a shorter one lies in a range that ends before the
longer code. -/
theorem prefixFree_canonCode (lens : List Nat) : PrefixFree lens.length (lenAt lens) (canonCode lens) := by
  rintro a b ha hb hne hua - ⟨hle, hpre⟩
  rcases hle.eq_or_lt with heq | hlt
  · rw [heq, Nat.sub_self, Nat.pow_zero, Nat.div_one] at hpre
    exact canonCode_ne ha hb hne heq hpre.symm
  · have hstart : startOf lens (lenAt lens b) ≤ canonCode lens b := Nat.le_add_right ..
    have hend := (Nat.le_div_iff_mul_le (by positivity)).mpr ((startOf_end_mul_le lens hua hlt).trans hstart)
    have := canonCode_lt_end ha
    omega

theorem PrefixFree.congr {n : Nat} {len len' code code' : Nat → Nat} (h : PrefixFree n len code)
    (hlen : ∀ s, s < n → len' s = len s) (hcode : ∀ s, s < n → len' s ≠ 0 → code' s = code s) :
    PrefixFree n len' code' := by
  intro a b ha hb hne hua hub
  rw [hcode a ha hua, hcode b hb hub, hlen a ha, hlen b hb]
  exact h a b ha hb hne (hlen a ha ▸ hua) (hlen b hb ▸ hub)

/-! ### The codes of a reconstructed decoder (R53) -/

theorem Decoder.lenOf_eq (u : Decoder) (s : Nat) : u.lenOf s = lenAt (nats u.dLen) s := (nats_getD u.dLen s).symm

theorem Encoder.lenOf_eq (u : Encoder) (s : Nat) : u.lenOf s = lenAt (nats u.codeSize) s :=
  (nats_getD u.codeSize s).symm

/-- READY and FAILED have the same session invariant. -/
theorem DecSession.reconstructed {p : Params} {u : Decoder} (h : DecSession p u) (hst : u.state = .ready ∨ u.state = .failed) :
    DecShape p u ∧ Reconstructed p u := by
  rcases hst with hst | hst <;> simpa [DecSession, hst] using h

section
variable {p : Params} {u : Decoder}

theorem DecShape.nats_length (hs : DecShape p u) : (nats u.dLen).length = u.m.toNat + 1 := by
  rw [Machine.nats_length, hs.len_size]

theorem Reconstructed.kraftSum_le (hs : DecShape p u) (hr : Reconstructed p u) :
    kraftSum p.maxCodeBits (nats u.dLen) ≤ 2 ^ p.maxCodeBits := by
  have h := hr.kraft
  rwa [← hs.nats_length, kraftUnits_eq_kraftSum _ _ _ fun s _ => u.lenOf_eq s] at h

theorem Reconstructed.codeOf_lt (hs : DecShape p u) (hr : Reconstructed p u) (x : Nat) (hx : x ≤ u.m.toNat)
    (hused : u.lenOf x ≠ 0) : u.codeOf x < 2 ^ u.lenOf x := by
  rw [hr.codes x hx hused, u.lenOf_eq]
  exact canonCode_lt_two_pow hs.len_le (hr.kraftSum_le hs) (by rw [hs.nats_length]; omega) (u.lenOf_eq x ▸ hused)

theorem Reconstructed.prefixFree (hs : DecShape p u) (hr : Reconstructed p u) :
    PrefixFree (u.m.toNat + 1) u.lenOf u.codeOf := by
  have h := prefixFree_canonCode (nats u.dLen)
  rw [hs.nats_length] at h
  exact h.congr (fun s _ => u.lenOf_eq s) fun s hlt hused => hr.codes s (by omega) hused

/-- Both units give a length table its canonical codes, so equal tables have equal codes. -/
theorem Reconstructed.codeOf_eq_encoder (hs : DecShape p u) (hr : Reconstructed p u) {v : Encoder} (hv : EncShape p v)
    (hl : CodedLaws p v) (htab : v.codeSize = u.dLen) (x : Nat) (hx : x ≤ u.m.toNat) (hused : u.lenOf x ≠ 0) :
    u.codeOf x = v.codeOf x := by
  have hx' : x < v.e.toNat := by rw [← hv.size_size, htab, hs.len_size]; omega
  have hused' : v.lenOf x ≠ 0 := by rwa [v.lenOf_eq, htab, ← u.lenOf_eq]
  rw [hr.codes x hx hused, hl.codes x hx' hused', htab]

end

/-- Settles O28 from the tables of R172, which the session invariant holds in READY and FAILED. -/
theorem reconstructedCodesArePrefixFree : Obligations.ReconstructedCodesArePrefixFree := by
  intro s hinv hst
  obtain ⟨hs, hr⟩ := hinv.reconstructed hst
  exact ⟨hr.kraft, hr.codeOf_lt hs, hr.prefixFree hs, fun _ hv hl htab => hr.codeOf_eq_encoder hs hv hl htab⟩

end Sys2Proof.Machine
end

section
/-! Package-merge gives lengths within the limit and a complete code (R130, R132). The idea: a symbol in the first `c` items of a round also
stands there as a leaf, because an item that holds it weighs at least as much and a leaf goes first on equal weights. So a symbol chosen `l` times
is chosen at the `l` last rounds, and its coins are worth `1 - 2^-l`. -/

namespace Sys2Proof.Machine

open Sys2Proof

/-! ### Leaves, packages and how often a symbol occurs -/

/-- The leaf of a symbol (R130). -/
def leaf (f : Nat → Nat) (s : Nat) : PmItem := ⟨f s, [s]⟩

/-- How often a symbol occurs in a list of items: its length, when the items are the chosen ones (R130). -/
def occurrences (items : List PmItem) (s : Nat) : Nat := (items.flatMap PmItem.syms).count s

theorem lengthAssign_eq_occurrences (f : Nat → Nat) (syms : List Nat) (k s : Nat) :
    lengthAssign f syms k s = occurrences (chosenItems f syms k) s := rfl

theorem occurrences_append (xs ys : List PmItem) (s : Nat) :
    occurrences (xs ++ ys) s = occurrences xs s + occurrences ys s := by
  simp [occurrences]

theorem occurrences_perm {xs ys : List PmItem} (h : xs.Perm ys) (s : Nat) : occurrences xs s = occurrences ys s :=
  (h.flatMap_right _).count_eq s

theorem occurrences_leaves (f : Nat → Nat) (σ : List Nat) (s : Nat) : occurrences (σ.map (leaf f)) s = σ.count s := by
  simp [occurrences, List.flatMap_map, leaf]

theorem occurrences_ne_zero {items : List PmItem} {s : Nat} : occurrences items s ≠ 0 ↔ ∃ z ∈ items, s ∈ z.syms := by
  simp [occurrences, List.count_eq_zero]

/-- The symbols in the order of their leaves (R130). -/
def sortedSyms (f : Nat → Nat) (syms : List Nat) : List Nat := syms.insertionSort (f ⁻¹'o (· ≤ ·))

theorem insertLeaf_map_leaf (f : Nat → Nat) (s : Nat) (σ : List Nat) :
    insertLeaf (leaf f s) (σ.map (leaf f)) = (σ.orderedInsert (f ⁻¹'o (· ≤ ·)) s).map (leaf f) := by
  induction σ with
  | nil => rfl
  | cons t σ ih =>
    by_cases h : f s ≤ f t
    · simp [insertLeaf, leaf, h, Order.Preimage]
    · have hw : ¬(leaf f s).w ≤ (leaf f t).w := h
      rw [List.map_cons, insertLeaf, if_neg hw, ih, List.orderedInsert_of_not_le (f ⁻¹'o (· ≤ ·)) σ h, List.map_cons]

theorem sortedLeaves_eq_map (f : Nat → Nat) (syms : List Nat) :
    sortedLeaves f syms = (sortedSyms f syms).map (leaf f) := by
  induction syms with
  | nil => rfl
  | cons s syms ih => exact (congrArg (insertLeaf (leaf f s)) ih).trans (insertLeaf_map_leaf f s _)

theorem sortedSyms_perm (f : Nat → Nat) (syms : List Nat) : (sortedSyms f syms).Perm syms := List.perm_insertionSort _ _

theorem sortedSyms_pairwise (f : Nat → Nat) (syms : List Nat) :
    (sortedSyms f syms).Pairwise (fun s t => f s ≤ f t) := List.pairwise_insertionSort (f ⁻¹'o (· ≤ ·)) syms

@[simp] theorem pairUp_nil : pairUp [] = [] := by simp [pairUp]

@[simp] theorem pairUp_singleton (x : PmItem) : pairUp [x] = [] := by simp [pairUp]

@[simp] theorem pairUp_cons_cons (x y : PmItem) (rest : List PmItem) :
    pairUp (x :: y :: rest) = ⟨x.w + y.w, x.syms ++ y.syms⟩ :: pairUp rest := by simp [pairUp]

@[simp] theorem pairUp_length : ∀ cur : List PmItem, (pairUp cur).length = cur.length / 2
  | [] => by simp
  | [_] => by simp
  | _ :: _ :: rest => by
    have := pairUp_length rest
    simp
    omega

/-- The first `b` packages hold what the first `2b` items hold. -/
theorem pairUp_take_syms : ∀ (cur : List PmItem) (b : Nat), b ≤ (pairUp cur).length →
    ((pairUp cur).take b).flatMap PmItem.syms = (cur.take (2 * b)).flatMap PmItem.syms
  | _, 0, _ => rfl
  | [], b + 1, hb => by simp at hb
  | [_], b + 1, hb => by simp at hb
  | x :: y :: rest, b + 1, hb => by
    have := pairUp_take_syms rest b (by rw [pairUp_cons_cons] at hb; exact Nat.le_of_succ_le_succ hb)
    simp [Nat.mul_succ, this]

/-- An item of `cur` weighs at least as much as each symbol in it, and every symbol in it is one of `σ`. -/
def Heavy (f : Nat → Nat) (σ : List Nat) (cur : List PmItem) : Prop := ∀ z ∈ cur, ∀ s ∈ z.syms, s ∈ σ ∧ f s ≤ z.w

theorem Heavy.pairUp {f : Nat → Nat} {σ : List Nat} : ∀ {cur : List PmItem}, Heavy f σ cur → Heavy f σ (pairUp cur)
  | [], _ => by simp [Heavy]
  | [_], _ => by simp [Heavy]
  | x :: y :: rest, h => by
    intro z hz s hs
    rw [pairUp_cons_cons] at hz
    rcases List.mem_cons.mp hz with rfl | hz
    · rcases List.mem_append.mp hs with hs | hs
      · obtain ⟨hmem, hle⟩ := h x (by simp) s hs
        exact ⟨hmem, Nat.le_add_right_of_le hle⟩
      · obtain ⟨hmem, hle⟩ := h y (by simp) s hs
        exact ⟨hmem, Nat.le_add_left_of_le hle⟩
    · have hrest : Heavy f σ rest := fun z hz => h z (by simp [hz])
      exact hrest.pairUp z hz s hs

theorem heavy_leaves (f : Nat → Nat) (σ : List Nat) : Heavy f σ (σ.map (leaf f)) := by
  simp [Heavy, leaf]

/-! ### What the first items of a merge are -/

theorem mergeItems_cons_nil (x : PmItem) (xs : List PmItem) : mergeItems (x :: xs) [] = x :: mergeItems xs [] := rfl

theorem mergeItems_cons_cons (x y : PmItem) (xs ys : List PmItem) :
    mergeItems (x :: xs) (y :: ys) =
      if x.w ≤ y.w then x :: mergeItems xs (y :: ys) else y :: mergeItems (x :: xs) ys := rfl

/-- The model's merge is the library's. -/
theorem mergeItems_eq_merge (xs ys : List PmItem) : mergeItems xs ys = xs.merge ys (fun x y => x.w ≤ y.w) := by
  induction xs generalizing ys with
  | nil => simp [mergeItems]
  | cons x xs ihx =>
    induction ys with
    | nil => rw [mergeItems_cons_nil, ihx]; simp
    | cons y ys ihy => simp [mergeItems_cons_cons, List.cons_merge_cons, ihx, ihy]

@[simp] theorem mergeItems_length (xs ys : List PmItem) : (mergeItems xs ys).length = xs.length + ys.length := by
  rw [mergeItems_eq_merge, List.length_merge]

theorem mem_mergeItems {xs ys : List PmItem} {z : PmItem} : z ∈ mergeItems xs ys ↔ z ∈ xs ∨ z ∈ ys := by
  rw [mergeItems_eq_merge, List.mem_merge]

/-- `taken` is the first `a` of `xs` and the first `b` of `ys`, and these `b` are lighter than every item of `xs` left over. -/
structure MergeCut (xs ys taken : List PmItem) (a b : Nat) : Prop where
  left_le : a ≤ xs.length
  right_le : b ≤ ys.length
  perm : taken.Perm (xs.take a ++ ys.take b)
  lighter : ∀ x ∈ xs.drop a, ∀ y ∈ ys.take b, y.w < x.w

theorem MergeCut.zero (xs ys : List PmItem) : MergeCut xs ys [] 0 0 :=
  ⟨Nat.zero_le _, Nat.zero_le _, .refl _, by simp⟩

theorem MergeCut.cons_left {xs ys taken : List PmItem} {a b : Nat} (x : PmItem) (h : MergeCut xs ys taken a b) :
    MergeCut (x :: xs) ys (x :: taken) (a + 1) b :=
  ⟨Nat.succ_le_succ h.left_le, h.right_le, h.perm.cons x, h.lighter⟩

theorem MergeCut.cons_right {xs ys taken : List PmItem} {a b : Nat} {y : PmItem} (hy : ∀ x ∈ xs, y.w < x.w)
    (h : MergeCut xs ys taken a b) : MergeCut xs (y :: ys) (y :: taken) a (b + 1) where
  left_le := h.left_le
  right_le := Nat.succ_le_succ h.right_le
  perm := (h.perm.cons y).trans List.perm_middle.symm
  lighter x hx z hz := by
    rcases List.mem_cons.mp hz with rfl | hz
    · exact hy x (List.mem_of_mem_drop hx)
    · exact h.lighter x hx z hz

/-- The first `c` items of a merge cut both lists: "on equal w, the leaf first" (R130). -/
theorem mergeItems_take_cut {xs : List PmItem} (hxs : xs.Pairwise (fun x y => x.w ≤ y.w)) (ys : List PmItem) (c : Nat)
    (hc : c ≤ (mergeItems xs ys).length) : ∃ a b, MergeCut xs ys ((mergeItems xs ys).take c) a b := by
  induction c generalizing xs ys with
  | zero => exact ⟨0, 0, .zero xs ys⟩
  | succ c ih =>
    match xs, ys with
    | [], [] => simp [mergeItems] at hc
    | x :: xs, [] =>
      obtain ⟨a, b, h⟩ := ih hxs.of_cons [] (by simpa using hc)
      exact ⟨a + 1, b, h.cons_left x⟩
    | [], y :: ys =>
      obtain ⟨a, b, h⟩ := ih hxs ys (by simpa using hc)
      exact ⟨a, b + 1, h.cons_right (by simp)⟩
    | x :: xs, y :: ys =>
      rw [mergeItems_length, List.length_cons, List.length_cons] at hc
      rw [mergeItems_cons_cons]
      split
      · obtain ⟨a, b, h⟩ := ih hxs.of_cons (y :: ys) (by simp; omega)
        exact ⟨a + 1, b, h.cons_left x⟩
      next hlt =>
        obtain ⟨a, b, h⟩ := ih hxs ys (by simp; omega)
        refine ⟨a, b + 1, h.cons_right fun z hz => ?_⟩
        rcases List.mem_cons.mp hz with rfl | hz
        · omega
        · have := List.rel_of_pairwise_cons hxs hz
          omega

theorem MergeCut.length_eq {xs ys taken : List PmItem} {a b : Nat} (h : MergeCut xs ys taken a b) :
    taken.length = a + b := by
  rw [h.perm.length_eq, List.length_append, List.length_take_of_le h.left_le, List.length_take_of_le h.right_le]

/-! ### The rounds -/

/-- The invariant of the rounds, for every number `c` of first items: no symbol occurs in them more than `d` times, and `c` items of worth `1/2` make
`c / 2 = Σ (1 - 2^-occurrences)`. The latter stands in units of `2^-(d+1)`, with the sum of the powers moved to the other side. -/
structure Packed (f : Nat → Nat) (σ : List Nat) (d : Nat) (cur : List PmItem) : Prop where
  heavy : Heavy f σ cur
  depth : ∀ c, c ≤ cur.length → ∀ s, occurrences (cur.take c) s ≤ d
  worth : ∀ c, c ≤ cur.length →
    2 * ∑ s ∈ σ.toFinset, 2 ^ (d - occurrences (cur.take c) s) + c * 2 ^ d = 2 * σ.length * 2 ^ d

section
variable {f : Nat → Nat} {σ : List Nat} {d a b : Nat} {cur taken : List PmItem}

/-- Before the first round there is nothing to choose from. -/
theorem packed_nil (hnd : σ.Nodup) : Packed f σ 0 [] where
  heavy := by simp [Heavy]
  depth := by simp [occurrences]
  worth c hc := by
    have : c = 0 := by simpa using hc
    simp [this, List.toFinset_card_of_nodup hnd]

/-- `b` chosen packages are made of `2b` items of the round before. -/
theorem MergeCut.two_mul_le {xs : List PmItem} (hcut : MergeCut xs (pairUp cur) taken a b) : 2 * b ≤ cur.length := by
  have := hcut.right_le
  rw [pairUp_length] at this
  omega

theorem occurrences_of_cut (hcut : MergeCut (σ.map (leaf f)) (pairUp cur) taken a b) (s : Nat) :
    occurrences taken s = (σ.take a).count s + occurrences (cur.take (2 * b)) s := by
  have hpairs : occurrences ((pairUp cur).take b) s = occurrences (cur.take (2 * b)) s :=
    congrArg (List.count s) (pairUp_take_syms cur b hcut.right_le)
  rw [occurrences_perm hcut.perm, occurrences_append, ← List.map_take, occurrences_leaves, hpairs]

/-- A symbol inside a chosen package is chosen as a leaf too: its leaf is not heavier than the package. -/
theorem mem_take_of_occurs (hheavy : Heavy f σ cur) (hcut : MergeCut (σ.map (leaf f)) (pairUp cur) taken a b) {s : Nat}
    (hs : occurrences (cur.take (2 * b)) s ≠ 0) : s ∈ σ.take a := by
  have hpairs : occurrences ((pairUp cur).take b) s ≠ 0 := by
    rwa [occurrences, pairUp_take_syms cur b hcut.right_le]
  obtain ⟨z, hz, hsz⟩ := occurrences_ne_zero.mp hpairs
  obtain ⟨hmem, hle⟩ := hheavy.pairUp z (List.mem_of_mem_take hz) s hsz
  rw [← List.take_append_drop a σ, List.mem_append] at hmem
  refine hmem.resolve_right fun hdrop => ?_
  have hleaf : leaf f s ∈ (σ.map (leaf f)).drop a := by rw [← List.map_drop]; exact List.mem_map_of_mem hdrop
  exact absurd (hcut.lighter _ hleaf z hz) (Nat.not_lt.mpr hle)

/-- What one more round adds to a symbol's worth: its leaf, if that is chosen. -/
theorem two_pow_missing (hnd : σ.Nodup) (hp : Packed f σ d cur)
    (hcut : MergeCut (σ.map (leaf f)) (pairUp cur) taken a b) (s : Nat) :
    2 ^ (d + 1 - occurrences taken s) + (σ.take a).count s * 2 ^ d =
      2 ^ (d - occurrences (cur.take (2 * b)) s) + 2 ^ d := by
  rw [occurrences_of_cut hcut]
  by_cases hs : s ∈ σ.take a
  · have hone : (σ.take a).count s = 1 := List.count_eq_one_of_mem (hnd.sublist (List.take_sublist ..)) hs
    have hd := hp.depth _ hcut.two_mul_le s
    rw [hone, Nat.one_mul]
    congr 2
    omega
  · have hzero : occurrences (cur.take (2 * b)) s = 0 := by
      by_contra hne
      exact hs (mem_take_of_occurs hp.heavy hcut hne)
    rw [List.count_eq_zero_of_not_mem hs, hzero]
    simp [Nat.pow_succ, Nat.mul_two]

theorem sum_count_take (ha : a ≤ σ.length) : ∑ s ∈ σ.toFinset, (σ.take a).count s = a := by
  have hsub : ∀ s ∈ (σ.take a : Multiset Nat), s ∈ σ.toFinset := fun s hs =>
    List.mem_toFinset.mpr (List.mem_of_mem_take hs)
  simpa [ha] using Multiset.sum_count_eq_card hsub

/-- Each round keeps the invariant, one level deeper. -/
theorem Packed.round (hnd : σ.Nodup) (hsort : σ.Pairwise (fun s t => f s ≤ f t)) (hp : Packed f σ d cur) :
    Packed f σ (d + 1) (mergeItems (σ.map (leaf f)) (pairUp cur)) := by
  have hleaves : (σ.map (leaf f)).Pairwise (fun x y => x.w ≤ y.w) := List.pairwise_map.mpr hsort
  refine ⟨?_, ?_, ?_⟩
  · intro z hz
    rcases mem_mergeItems.mp hz with hz | hz
    · exact heavy_leaves f σ z hz
    · exact hp.heavy.pairUp z hz
  · intro c hc s
    obtain ⟨a, b, hcut⟩ := mergeItems_take_cut hleaves _ c hc
    have hone := List.nodup_iff_count_le_one.mp (hnd.sublist (List.take_sublist a σ)) s
    have hd := hp.depth _ hcut.two_mul_le s
    rw [occurrences_of_cut hcut]
    omega
  · intro c hc
    obtain ⟨a, b, hcut⟩ := mergeItems_take_cut hleaves _ c hc
    have hab : c = a + b := by rw [← hcut.length_eq, List.length_take_of_le hc]
    have hsum := Finset.sum_congr (rfl : σ.toFinset = σ.toFinset) fun s _ => two_pow_missing hnd hp hcut s
    simp only [Finset.sum_add_distrib, ← Finset.sum_mul, Finset.sum_const, smul_eq_mul,
      sum_count_take (by simpa using hcut.left_le), List.toFinset_card_of_nodup hnd] at hsum
    have hw := hp.worth _ hcut.two_mul_le
    rw [Nat.pow_succ]
    subst hab
    linarith

theorem packed_packageRounds (hnd : σ.Nodup) (hsort : σ.Pairwise (fun s t => f s ≤ f t)) (r : Nat) :
    Packed f σ (r + 1) (packageRounds (σ.map (leaf f)) r) := by
  induction r with
  | zero => simpa [packageRounds, mergeItems_eq_merge] using (packed_nil (f := f) hnd).round hnd hsort
  | succ r ih => exact ih.round hnd hsort

end

/-- From `n` leaves, the number of items comes within `n / 2^r`, rounded up, of `2n` in `r` rounds. -/
theorem packageRounds_length (leaves : List PmItem) (r m : Nat) (h : leaves.length ≤ m * 2 ^ r) :
    2 * leaves.length ≤ (packageRounds leaves r).length + m := by
  induction r generalizing m with
  | zero => simp [packageRounds] at h ⊢; omega
  | succ r ih =>
    have := ih (2 * m) (by rw [Nat.pow_succ] at h; linarith)
    simp only [packageRounds, mergeItems_length, pairUp_length]
    omega

/-! ### The lengths (R132) -/

section
variable {f : Nat → Nat} {syms : List Nat} {k : Nat}

/-- There are at least `2n - 2` items to choose from (R130). -/
theorem two_mul_le_packageRounds_length (h2 : 2 ≤ syms.length) (hk : syms.length ≤ 2 ^ k) :
    2 * syms.length - 2 ≤ (packageRounds ((sortedSyms f syms).map (leaf f)) (k - 1)).length := by
  have hlen : ((sortedSyms f syms).map (leaf f)).length = syms.length := by
    rw [List.length_map, (sortedSyms_perm f syms).length_eq]
  have hpow : 2 ^ k = 2 * 2 ^ (k - 1) := by
    cases k with
    | zero => omega
    | succ k => simp [Nat.pow_succ, Nat.mul_comm]
  have := packageRounds_length _ (k - 1) 2 (by rwa [hlen, ← hpow])
  omega

theorem packed_chosen (hnd : syms.Nodup) (hk : 1 ≤ k) :
    Packed f (sortedSyms f syms) k (packageRounds ((sortedSyms f syms).map (leaf f)) (k - 1)) := by
  have := packed_packageRounds ((sortedSyms_perm f syms).nodup_iff.mpr hnd) (sortedSyms_pairwise f syms) (k - 1)
  rwa [Nat.sub_add_cancel hk] at this

theorem one_le_of_length_le_two_pow (h2 : 2 ≤ syms.length) (hk : syms.length ≤ 2 ^ k) : 1 ≤ k := by
  rcases k with _ | k <;> simp at hk ⊢; omega

/-- R132 (a): no length is above the limit. -/
theorem lengthAssign_le (hnd : syms.Nodup) (h2 : 2 ≤ syms.length) (hk : syms.length ≤ 2 ^ k) (s : Nat) :
    lengthAssign f syms k s ≤ k := by
  rw [lengthAssign_eq_occurrences, chosenItems, sortedLeaves_eq_map]
  exact (packed_chosen hnd (one_le_of_length_le_two_pow h2 hk)).depth _ (two_mul_le_packageRounds_length h2 hk) s

/-- R132 (b): the code is complete. -/
theorem sum_two_pow_lengthAssign (hnd : syms.Nodup) (h2 : 2 ≤ syms.length) (hk : syms.length ≤ 2 ^ k) :
    ∑ s ∈ syms.toFinset, 2 ^ (k - lengthAssign f syms k s) = 2 ^ k := by
  have hw := (packed_chosen (f := f) hnd (one_le_of_length_le_two_pow h2 hk)).worth _ (two_mul_le_packageRounds_length h2 hk)
  have hperm := sortedSyms_perm f syms
  rw [List.toFinset_eq_of_perm _ _ hperm, hperm.length_eq, ← sortedLeaves_eq_map] at hw
  have hn : (2 * syms.length - 2) * 2 ^ k + 2 * 2 ^ k = 2 * syms.length * 2 ^ k := by
    rw [← Nat.add_mul, Nat.sub_add_cancel (by omega)]
  simp only [lengthAssign_eq_occurrences, chosenItems]
  linarith

/-- R132 (a): every symbol has a length. One without would fill the code space alone. -/
theorem one_le_lengthAssign (hnd : syms.Nodup) (h2 : 2 ≤ syms.length) (hk : syms.length ≤ 2 ^ k) {s : Nat} (hs : s ∈ syms) :
    1 ≤ lengthAssign f syms k s := by
  by_contra hzero
  obtain ⟨t, ht, hne⟩ : ∃ t ∈ syms.toFinset, t ≠ s :=
    Finset.exists_mem_ne (by rw [List.toFinset_card_of_nodup hnd]; omega) s
  have hlt := Finset.single_lt_sum (f := fun x => 2 ^ (k - lengthAssign f syms k x)) hne (List.mem_toFinset.mpr hs) ht
    (by positivity) (fun _ _ _ => Nat.zero_le _)
  rw [sum_two_pow_lengthAssign hnd h2 hk] at hlt
  simp [show lengthAssign f syms k s = 0 by omega] at hlt

end

end Sys2Proof.Machine
end

section
/-! What ENC.CREATE leaves in CODED (R52, R123): its lengths as functions of the frequencies, then the tables they give. -/

namespace Sys2Proof.Machine

open Sys2Proof

/-! ### The lengths -/

theorem usedSymbols_nodup (freqs : List Nat) : (usedSymbols freqs).Nodup := List.nodup_range.filter _

theorem usedSymbols_length_le (freqs : List Nat) : (usedSymbols freqs).length ≤ freqs.length := by
  simpa [usedSymbols] using List.length_filter_le (fun s => freqs.getD s 0 != 0) (List.range freqs.length)

theorem mem_usedSymbols {freqs : List Nat} {s : Nat} : s ∈ usedSymbols freqs ↔ s < freqs.length ∧ freqs.getD s 0 ≠ 0 := by
  simp [usedSymbols]

theorem lt_length_of_getD_ne_zero {xs : List Nat} {s : Nat} (h : xs.getD s 0 ≠ 0) : s < xs.length := by
  by_contra hs
  exact h (by simp [Nat.le_of_not_lt hs])

@[simp] theorem createdLengths_length (freqs old : List Nat) (k : Nat) :
    (createdLengths freqs old k).length = freqs.length := by
  simp [createdLengths]

section
variable {freqs old : List Nat} {k : Nat}

/-- Each used symbol gets a length from 1 to the limit, package-merge or not (R123). -/
theorem usedLength_bounds (hk : 1 ≤ k) (hn : freqs.length ≤ 2 ^ k) {s : Nat} (hs : s ∈ usedSymbols freqs) :
    1 ≤ usedLength freqs k s ∧ usedLength freqs k s ≤ k := by
  have hpos := List.length_pos_of_mem hs
  have hle := (usedSymbols_length_le freqs).trans hn
  by_cases h1 : (usedSymbols freqs).length = 1
  · simp [usedLength, h1, hk]
  · simp only [usedLength, h1, if_false]
    exact ⟨one_le_lengthAssign (usedSymbols_nodup freqs) (by omega) hle hs,
      lengthAssign_le (usedSymbols_nodup freqs) (by omega) hle s⟩

/-- From two used symbols on the code is complete (R132 (b)). -/
theorem sum_usedLength_eq (hn : freqs.length ≤ 2 ^ k) (h2 : 2 ≤ (usedSymbols freqs).length) :
    ∑ s ∈ (usedSymbols freqs).toFinset, 2 ^ (k - usedLength freqs k s) = 2 ^ k := by
  simp only [usedLength, show (usedSymbols freqs).length ≠ 1 by omega, if_false]
  exact sum_two_pow_lengthAssign (usedSymbols_nodup freqs) h2 ((usedSymbols_length_le freqs).trans hn)

/-- The used symbols fit in the code space, of which a single one takes half and none takes nothing. -/
theorem sum_usedLength_le (hn : freqs.length ≤ 2 ^ k) :
    ∑ s ∈ (usedSymbols freqs).toFinset, 2 ^ (k - usedLength freqs k s) ≤ 2 ^ k := by
  by_cases h2 : 2 ≤ (usedSymbols freqs).length
  · exact (sum_usedLength_eq hn h2).le
  · have hcard : (usedSymbols freqs).toFinset.card ≤ 1 := by
      rw [List.toFinset_card_of_nodup (usedSymbols_nodup freqs)]
      omega
    have hterm := Finset.sum_le_card_nsmul (usedSymbols freqs).toFinset (fun s => 2 ^ (k - usedLength freqs k s)) (2 ^ k)
      fun s _ => Nat.pow_le_pow_right (by omega) (Nat.sub_le ..)
    exact hterm.trans (by simpa using Nat.mul_le_mul_right (2 ^ k) hcard)

/-- From cleared lengths, only the used symbols have one. -/
theorem lenAt_createdLengths (hold : ∀ l ∈ old, l = 0) (s : Nat) :
    lenAt (createdLengths freqs old k) s = if freqs.getD s 0 = 0 then 0 else usedLength freqs k s := by
  by_cases hs : s < freqs.length
  · have hzero : old.getD s 0 = 0 := by
      by_contra h
      exact h (hold _ (by simp [lt_length_of_getD_ne_zero h]))
    rw [lenAt_eq_getElem (by simpa using hs)]
    simp only [createdLengths, List.getElem_map, List.getElem_range, hzero]
  · have hle := Nat.le_of_not_lt hs
    simp [lenAt, hle]

/-- R52: a length of 0 exactly for the symbols of frequency 0. -/
theorem lenAt_createdLengths_ne_zero (hk : 1 ≤ k) (hn : freqs.length ≤ 2 ^ k) (hold : ∀ l ∈ old, l = 0) (s : Nat) :
    lenAt (createdLengths freqs old k) s ≠ 0 ↔ freqs.getD s 0 ≠ 0 := by
  rw [lenAt_createdLengths hold]
  by_cases h : freqs.getD s 0 = 0
  · simp only [h, if_true, ne_eq, not_true_eq_false]
  · have := (usedLength_bounds hk hn (mem_usedSymbols.mpr ⟨lt_length_of_getD_ne_zero h, h⟩)).1
    simp only [h, if_false, ne_eq, not_false_eq_true, iff_true]
    omega

/-- R52: no length is above the limit. -/
theorem createdLengths_le (hk : 1 ≤ k) (hn : freqs.length ≤ 2 ^ k) (hold : ∀ l ∈ old, l = 0) :
    ∀ l ∈ createdLengths freqs old k, l ≤ k := by
  intro l hl
  obtain ⟨s, hs, rfl⟩ := List.getElem_of_mem hl
  rw [← lenAt_eq_getElem hs, lenAt_createdLengths hold]
  split
  · exact Nat.zero_le _
  next h => exact (usedLength_bounds hk hn (mem_usedSymbols.mpr ⟨by simpa using hs, h⟩)).2

/-- The Kraft sum of the lengths runs over the used symbols. -/
theorem kraftSum_createdLengths (hk : 1 ≤ k) (hn : freqs.length ≤ 2 ^ k) (hold : ∀ l ∈ old, l = 0) :
    kraftSum k (createdLengths freqs old k) = ∑ s ∈ (usedSymbols freqs).toFinset, 2 ^ (k - usedLength freqs k s) := by
  rw [← kraftUnits_eq_kraftSum k _ _ fun _ _ => rfl, kraftUnits, createdLengths_length]
  symm
  apply Finset.sum_subset_zero_on_sdiff
  · intro s hs
    exact Finset.mem_range.mpr (mem_usedSymbols.mp (List.mem_toFinset.mp hs)).1
  · intro s hs
    rw [Finset.mem_sdiff, Finset.mem_range, List.mem_toFinset, mem_usedSymbols] at hs
    exact if_pos (not_ne_iff.mp fun h => hs.2 ⟨hs.1, (lenAt_createdLengths_ne_zero hk hn hold s).mp h⟩)
  · intro s hs
    have hf := (mem_usedSymbols.mp (List.mem_toFinset.mp hs)).2
    rw [if_neg ((lenAt_createdLengths_ne_zero hk hn hold s).mpr hf), lenAt_createdLengths hold, if_neg hf]

/-- As many lengths are nonzero as symbols are used. -/
theorem filter_createdLengths_length (hk : 1 ≤ k) (hn : freqs.length ≤ 2 ^ k) (hold : ∀ l ∈ old, l = 0) :
    ((createdLengths freqs old k).filter (fun l => l != 0)).length = (usedSymbols freqs).length := by
  have hmap : createdLengths freqs old k = (List.range freqs.length).map (lenAt (createdLengths freqs old k)) := by
    apply List.ext_getElem (by simp)
    intro s hs _
    simp [lenAt_eq_getElem hs]
  rw [hmap, List.filter_map, List.length_map, usedSymbols]
  congr 1
  apply List.filter_congr
  intro s _
  rw [Bool.eq_iff_iff, Function.comp_apply, bne_iff_ne, bne_iff_ne]
  exact lenAt_createdLengths_ne_zero hk hn hold s

end

/-! ### The codes the walk assigns -/

/-- The walk of R131, started at the start codes, gives each symbol with a length its canonical code and leaves the others their field. -/
theorem assignCodes_startCodes (n : Nat) (lens old : List Nat) (hold : old.length = lens.length) (hle : ∀ l ∈ lens, l ≤ n)
    {s : Nat} (hs : s < lens.length) :
    (assignCodes (startCodes (lengthCounts n lens)) (lens.zip old)).1.getD s 0 =
      if lenAt lens s = 0 then old.getD s 0 else canonCode lens s := by
  have hzip : s < (lens.zip old).length := by simp [hold, hs]
  have hfst : (lens.zip old).map Prod.fst = lens := List.map_fst_zip hold.ge
  have hbound : ∀ q ∈ lens.zip old, q.1 ≤ (startCodes (lengthCounts n lens)).length := fun q hq => by
    simpa [startCodes] using hle q.1 (List.of_mem_zip hq).1
  have hlast : lens[s] ≤ n := hle _ (List.getElem_mem hs)
  rw [assignCodes_code _ _ s hzip hbound, List.map_take, hfst, List.getElem_zip, lenAt_eq_getElem hs]
  split
  · simp [hold, hs]
  next h =>
    rw [startCodes_getD n lens _ (by omega), Nat.sub_add_cancel (by omega), canonCode, lenAt_eq_getElem hs]

/-! ### The encoder -/

section
variable {p : Params} {u : Encoder}

/-- The lengths ENC.CREATE gives in a session (R123). -/
def Encoder.newLengths (u : Encoder) : List Nat := createdLengths (nats u.freqCode) (nats u.codeSize) u.k.toNat

/-- What the encoder laws of R52 start from: an open session whose lengths are still cleared. -/
structure CountingSession (p : Params) (u : Encoder) : Prop where
  shape : EncShape p u
  cleared : ∀ l ∈ nats u.codeSize, l = 0

theorem EncSession.countingSession (h : EncSession p u) (hst : u.state = .counting) : CountingSession p u := by
  rw [EncSession, hst] at h
  obtain ⟨hshape, hlens, -⟩ := h
  exact ⟨hshape, hlens⟩

namespace CountingSession
variable (h : CountingSession p u)
include h

theorem freqs_length : (nats u.freqCode).length = u.e.toNat := by rw [nats_length, h.shape.freq_size]

theorem freqs_length_le : (nats u.freqCode).length ≤ 2 ^ u.k.toNat := by
  rw [h.freqs_length]
  exact h.shape.e_le_pow

theorem newLengths_length : u.newLengths.length = u.e.toNat := by
  rw [Encoder.newLengths, createdLengths_length, h.freqs_length]

theorem newLengths_le : ∀ l ∈ u.newLengths, l ≤ u.k.toNat :=
  createdLengths_le h.shape.k_pos h.freqs_length_le h.cleared

theorem k_le_32 : u.k.toNat ≤ 32 := h.shape.k_le.trans p.le32

theorem newLengths_ne_zero (x : Nat) : lenAt u.newLengths x ≠ 0 ↔ (nats u.freqCode).getD x 0 ≠ 0 :=
  lenAt_createdLengths_ne_zero h.shape.k_pos h.freqs_length_le h.cleared x

theorem kraftSum_newLengths :
    kraftSum u.k.toNat u.newLengths =
      ∑ s ∈ (usedSymbols (nats u.freqCode)).toFinset, 2 ^ (u.k.toNat - usedLength (nats u.freqCode) u.k.toNat s) :=
  kraftSum_createdLengths h.shape.k_pos h.freqs_length_le h.cleared

theorem kraftSum_newLengths_le : kraftSum u.k.toNat u.newLengths ≤ 2 ^ u.k.toNat := by
  rw [h.kraftSum_newLengths]
  exact sum_usedLength_le h.freqs_length_le

theorem canonCode_newLengths_lt {x : Nat} (hx : x < u.e.toNat) (hused : lenAt u.newLengths x ≠ 0) :
    canonCode u.newLengths x < 2 ^ lenAt u.newLengths x :=
  canonCode_lt_two_pow h.newLengths_le h.kraftSum_newLengths_le (h.newLengths_length ▸ hx) hused

/-! What the created encoder holds. -/

variable (d : Nat)

theorem nats_codeSize_created : nats (createdEncoder u p d).codeSize = u.newLengths :=
  nats_narrow 6 u.newLengths fun l hl => by have := h.newLengths_le l hl; have := h.k_le_32; omega

theorem lenOf_created (x : Nat) : (createdEncoder u p d).lenOf x = lenAt u.newLengths x := by
  rw [Encoder.lenOf_eq, h.nats_codeSize_created]

/-- Every code fits its field: it is below `2^32` as it is below two to its length. -/
theorem codeOf_created {x : Nat} (hx : x < u.e.toNat) :
    (createdEncoder u p d).codeOf x = if lenAt u.newLengths x = 0 then 0 else canonCode u.newLengths x := by
  have hle : ∀ l ∈ u.newLengths, l ≤ p.maxCodeBits := fun l hl => (h.newLengths_le l hl).trans h.shape.k_le
  have hlen := h.newLengths_length
  have hcode := assignCodes_startCodes p.maxCodeBits u.newLengths (nats u.freqCode) (by rw [h.freqs_length, hlen]) hle
    (hlen ▸ hx)
  have hstored : (createdEncoder u p d).codeOf x =
      (assignCodes (startCodes (lengthCounts p.maxCodeBits u.newLengths)) (u.newLengths.zip (nats u.freqCode))).1.getD x 0 %
        2 ^ 32 := by
    rw [Encoder.codeOf, createdEncoder, symEntry_narrow, BitVec.toNat_ofNat, Encoder.newLengths]
  rw [hstored, hcode]
  split
  next hz =>
    rw [not_ne_iff.mp (mt (h.newLengths_ne_zero x).mpr (not_not.mpr hz)), Nat.zero_mod]
  next hnz =>
    have hfits : lenAt u.newLengths x ≤ 32 := (h.newLengths_le _ (lenAt_mem (hlen ▸ hx))).trans h.k_le_32
    exact Nat.mod_eq_of_lt ((h.canonCode_newLengths_lt hx hnz).trans_le (Nat.pow_le_pow_right (by omega) hfits))

theorem nz_created : (createdEncoder u p d).nz.toNat = (usedSymbols (nats u.freqCode)).length := by
  have hle := usedSymbols_length_le (nats u.freqCode)
  have he := h.shape.e_le
  rw [h.freqs_length] at hle
  exact (BitVec.toNat_ofNat ..).trans (Nat.mod_eq_of_lt (by omega))

theorem eCount_created {l : Nat} (h1 : 1 ≤ l) (hl : l ≤ p.maxCodeBits) :
    (lenEntry (createdEncoder u p d).eCount l).toNat = u.newLengths.count l := by
  obtain ⟨l, rfl⟩ := Nat.exists_eq_add_of_le' h1
  have hcount : u.newLengths.count (l + 1) ≤ u.e.toNat := h.newLengths_length ▸ List.count_le_length
  have he := h.shape.e_le
  have hstored : (lenEntry (createdEncoder u p d).eCount (l + 1)).toNat =
      (lengthCounts p.maxCodeBits u.newLengths).getD l 0 % 2 ^ 17 := by
    rw [lenEntry_succ, createdEncoder, symEntry_narrow, BitVec.toNat_ofNat, Encoder.newLengths]
  rw [hstored, lengthCounts_getD _ _ _ hl]
  exact Nat.mod_eq_of_lt (by omega)

theorem maxLen_created : (createdEncoder u p d).maxLen.toNat = maxLength u.newLengths := by
  have hle : maxLength u.newLengths ≤ u.k.toNat := List.max_le_of_forall_le _ _ h.newLengths_le
  have hlt : maxLength u.newLengths < 2 ^ 6 := by have := h.k_le_32; omega
  exact (BitVec.toNat_ofNat ..).trans (Nat.mod_eq_of_lt hlt)

theorem kraftUnits_created :
    kraftUnits u.k.toNat u.e.toNat (createdEncoder u p d).lenOf = kraftSum u.k.toNat u.newLengths := by
  rw [← h.newLengths_length]
  exact kraftUnits_eq_kraftSum _ _ _ fun s _ => h.lenOf_created d s

/-- R52, from every state of COUNTING. -/
theorem codedLaws_created : CodedLaws p (createdEncoder u p d) := by
  have hcode : ∀ x, x < u.e.toNat → (createdEncoder u p d).lenOf x ≠ 0 →
      (createdEncoder u p d).codeOf x = canonCode u.newLengths x := fun x hx hused => by
    rw [h.codeOf_created d hx, if_neg (h.lenOf_created d x ▸ hused)]
  refine
    { len_le := fun x hx => ?_
      kraft_le := (h.kraftUnits_created d).trans_le h.kraftSum_newLengths_le
      kraft_eq := fun hnz => ?_
      codes := fun x hx hused => by rw [h.nats_codeSize_created, hcode x hx hused]
      code_lt := fun x hx hused => ?_
      prefix_free := ?_
      unused := fun x hx hz => by rw [h.codeOf_created d hx, if_pos (h.lenOf_created d x ▸ hz)]
      counts := fun l h1 hl => by rw [h.nats_codeSize_created, h.eCount_created d h1 hl]
      longest := by rw [h.nats_codeSize_created, h.maxLen_created]; rfl
      used := ?_ }
  · rw [h.lenOf_created]
    exact h.newLengths_le _ (lenAt_mem (h.newLengths_length ▸ hx))
  · rw [h.nz_created] at hnz
    exact (h.kraftUnits_created d).trans (h.kraftSum_newLengths.trans (sum_usedLength_eq h.freqs_length_le hnz))
  · rw [hcode x hx hused, h.lenOf_created]
    exact h.canonCode_newLengths_lt hx (h.lenOf_created d x ▸ hused)
  · have hfree := prefixFree_canonCode u.newLengths
    rw [h.newLengths_length] at hfree
    exact hfree.congr (fun x _ => h.lenOf_created d x) hcode
  · rw [h.nats_codeSize_created, h.nz_created]
    exact (filter_createdLengths_length h.shape.k_pos h.freqs_length_le h.cleared).symm

end CountingSession
end

theorem exec_encCreate_of_counting {s : State} (hst : s.enc.state = .counting) :
    exec .encCreate s = .next (((s.setEnc (createdEncoder s.enc s.params s.draws)).drawn).respond .ok 0) := by
  simp [exec, execEncCreate, hst]

/-- Settles O19: package-merge is limited and complete, and the canonical codes of such lengths fit and are prefix-free. -/
theorem createEstablishesTheCodedLaws : Obligations.CreateEstablishesTheCodedLaws := by
  intro s t hst hinv hexec
  have h := hinv.countingSession hst
  rw [exec_encCreate_of_counting hst] at hexec
  obtain rfl := Host.Outcome.next.inj hexec
  refine ⟨rfl, h.codedLaws_created s.draws, fun x _ => ?_⟩
  have hlen := h.lenOf_created s.draws x
  simp only [State.respond_enc, State.drawn_enc, State.setEnc_enc, hlen, h.newLengths_ne_zero, nats_getD]
  simp [← BitVec.toNat_inj]

end Sys2Proof.Machine
end

section
/-! The encoding: which words are illegal and what one does (R96), the worked encodings (R100), and the two pseudo-commands (R99). -/

namespace Sys2Proof

/-! ### A word's fields as remainder and quotients -/

theorem fieldOp_toNat (w : CmdWord) : (fieldOp w).toNat = w.toNat % 256 := by
  simp [fieldOp]

theorem fieldB_toNat (w : CmdWord) : (fieldB w).toNat = w.toNat / 2 ^ 32 := by
  have := word_toNat w
  have := (fieldOp w).isLt
  have := (fieldA w).isLt
  omega

/-- Both operand fields are zero in a word exactly when nothing stands above `OP` (R91). -/
theorem word_div_256_ne_zero (w : CmdWord) : w.toNat / 256 ≠ 0 ↔ (fieldA w).toNat ≠ 0 ∨ (fieldB w).toNat ≠ 0 := by
  have := word_toNat w
  have := (fieldOp w).isLt
  omega

/-! ### Illegal words -/

theorem noOperands_error_iff (a b : Nat) (i : Instr) : (∃ e, noOperands a b i = .error e) ↔ a ≠ 0 ∨ b ≠ 0 := by
  by_cases ha : a = 0 <;> by_cases hb : b = 0 <;> simp [noOperands, ha, hb]

theorem onlyA_error_iff (b : Nat) (i : Instr) : (∃ e, onlyA b i = .error e) ↔ b ≠ 0 := by
  by_cases hb : b = 0 <;> simp [onlyA, hb]

/-- R96 on the three fields: no row of R95 has the opcode, or a field that R94 marks MBZ in the row is nonzero. One case per row. -/
theorem decode_error_iff (w : CmdWord) :
    (∃ e, decode w = .error e) ↔
      ((fieldOp w).toNat ≤ 0x0F ∨ (0x19 ≤ (fieldOp w).toNat ∧ (fieldOp w).toNat ≤ 0x1F) ∨ 0x2C ≤ (fieldOp w).toNat) ∨
      ((fieldOp w).toNat ∈ [0x12, 0x13, 0x17, 0x18, 0x22, 0x23, 0x24, 0x25, 0x29] ∧
        ((fieldA w).toNat ≠ 0 ∨ (fieldB w).toNat ≠ 0)) ∨
      ((fieldOp w).toNat ∈ [0x14, 0x15, 0x16, 0x20, 0x26, 0x27, 0x28, 0x2A, 0x2B] ∧ (fieldB w).toNat ≠ 0) := by
  unfold decode
  split
  case h_22 => -- the opcode of no row
    have hop : (fieldOp w).toNat ≤ 0x0F ∨ (0x19 ≤ (fieldOp w).toNat ∧ (fieldOp w).toNat ≤ 0x1F) ∨
        0x2C ≤ (fieldOp w).toNat := by
      simp only [imp_false] at *
      omega
    simp [hop]
  all_goals next hop => simp [hop, noOperands_error_iff, onlyA_error_iff]

end Sys2Proof

namespace Sys2Proof.Machine

open Sys2Proof

theorem runWord_of_error {w : CmdWord} {e : IllegalWord} (h : decode w = .error e) (s : State) :
    runWord w s = .next (s.raise .illegalCommand) := by
  rw [runWord, h]

theorem rspWord_illegalCommand : rspWord .illegalCommand 0 = 0x0000000700000000 := by decide

/-- Settles O5: R96 field by field, and the one response of an illegal word. -/
theorem illegalWordsAreRefusedWhole : Obligations.IllegalWordsAreRefusedWhole := by
  intro w
  constructor
  · rw [← fieldOp_toNat, ← fieldB_toNat, word_div_256_ne_zero]
    exact decode_error_iff w
  · intro e s h
    rw [runWord_of_error h, raise_eq, respond_eq, rspWord_illegalCommand]

/-- Settles O6: each of the eight words is evaluated. -/
theorem workedEncodingsDecode : Obligations.WorkedEncodingsDecode := by
  unfold Obligations.WorkedEncodingsDecode
  decide

/-! ### Pseudo-commands -/

/-- `ENC.COUNTS` from symbol `i` on, by index: one ENC.COUNT per number that is not 0. -/
theorem encCountsFrom_eq_map (i : Nat) (fs : List Nat) :
    encCountsFrom i fs =
      ((List.range fs.length).filter fun j => fs.getD j 0 != 0).map fun j => .encCount (i + j) (fs.getD j 0) := by
  induction fs generalizing i with
  | nil => rfl
  | cons f fs ih =>
    have htail := ih (i + 1)
    simp only [Nat.add_assoc, Nat.add_comm 1] at htail
    rw [encCountsFrom, htail, List.length_cons, List.range_succ_eq_map, List.filter_cons, List.filter_map,
      apply_ite (List.map _)]
    by_cases hf : f = 0 <;> simp [hf, Function.comp_def]

/-- `DEC.SETLENS` from symbol `i` on, by index: one DEC.SETLEN per number, zeros included. -/
theorem decSetlensFrom_eq_map (i : Nat) (ls : List Nat) :
    decSetlensFrom i ls = (List.range ls.length).map fun j => .decSetlen (i + j) (ls.getD j 0) := by
  induction ls generalizing i with
  | nil => rfl
  | cons l ls ih =>
    simp [decSetlensFrom, ih, List.range_succ_eq_map, Nat.add_assoc, Nat.add_comm 1]

/-- Settles O47: the two expansions from symbol 0. -/
theorem pseudoCommandsExpand : Obligations.PseudoCommandsExpand := by
  refine ⟨fun f fs => rfl, fun l ls => rfl, fun fs => ?_, fun ls => ?_⟩
  · simpa using encCountsFrom_eq_map 0 fs
  · simpa using decSetlensFrom_eq_map 0 ls

end Sys2Proof.Machine
end

section
/-! The encoder's commands (R121 to R129, R133): each assembled word decodes to its command, and what the command
does in each of its cases. -/

namespace Sys2Proof

/-! ### From an assembled word to its command (R91, R95) -/

/-- The word of the assembly formula is the three fields laid side by side (R91). -/
theorem assembledWord_eq_cmdWord (op : BitVec 8) {a b : Nat} (ha : a < 2 ^ 24) (hb : b < 2 ^ 32) :
    Machine.assembledWord op.toNat a b = cmdWord op a b := by
  have hlow : a <<< 8 + op.toNat < 2 ^ 32 := by
    have := op.isLt
    rw [Nat.shiftLeft_eq]
    omega
  apply BitVec.eq_of_toNat_eq
  rw [Machine.assembledWord, Nat.or_assoc, ← Nat.shiftLeft_add_eq_or_of_lt op.isLt,
    ← Nat.shiftLeft_add_eq_or_of_lt hlow, word_toNat (cmdWord op a b), fieldOp_cmdWord, fieldA_cmdWord op a b ha,
    fieldB_cmdWord op a b hb, BitVec.toNat_ofNat, Nat.shiftLeft_eq, Nat.shiftLeft_eq]
  have := op.isLt
  omega

/-- A word whose fields are a command's opcode and operands decodes to that command: one case per row of R95. -/
theorem decode_of_fields {w : CmdWord} {i : Instr} (hop : fieldOp w = i.opcode)
    (ha : (fieldA w).toNat = i.operandA) (hb : (fieldB w).toNat = i.operandB) : decode w = .ok i := by
  cases i <;> simp [decode, hop, ha, hb, Instr.opcode, Instr.operandA, Instr.operandB, noOperands, onlyA]

/-- Operands that fit their fields come back from the assembled word (R91, R94, R95). -/
theorem decode_assembledWord (i : Instr) (ha : i.operandA < 2 ^ 24) (hb : i.operandB < 2 ^ 32) :
    decode (Machine.assembledWord i.opcode.toNat i.operandA i.operandB) = .ok i := by
  rw [assembledWord_eq_cmdWord i.opcode ha hb]
  exact decode_of_fields (fieldOp_cmdWord _ _ _) (fieldA_cmdWord _ _ _ ha) (fieldB_cmdWord _ _ _ hb)

end Sys2Proof

namespace Sys2Proof.Machine

open Sys2Proof

/-! ### ENC.INIT (R121) -/

theorem exec_encInit_of_failed {s : State} {e k : Nat} {st : Status} (h : encInitCheck s e k = some st) :
    exec (.encInit e k) s = .next (s.raise st) := by
  simp [exec, execEncInit, h]

theorem exec_encInit_of_denied {s : State} {e k : Nat} (h : encInitCheck s e k = none) (hg : s.arenaAnswer = false) :
    exec (.encInit e k) s =
      .next ((s.exchange (.arenaRequest .henc (encBuffers s.params e) false)).raise .outOfMemory) := by
  simp [exec, execEncInit, h, encRequest, hg]

theorem exec_encInit_of_granted {s : State} {e k : Nat} (h : encInitCheck s e k = none) (hg : s.arenaAnswer = true) :
    exec (.encInit e k) s =
      .next (((s.exchange (.arenaRequest .henc (encBuffers s.params e) true)).setEnc
        (openedEncoder s.enc s.params e k)).respond .ok 0) := by
  simp [exec, execEncInit, h, encRequest, hg]

theorem encInitCheck_of_not_released {s : State} (h : s.enc.state ≠ .released) (e k : Nat) :
    encInitCheck s e k = some .sequenceError := by
  simp [encInitCheck, h]

/-- In RELEASED a geometry out of range fails one of the configuration checks, whichever comes first. -/
theorem encInitCheck_of_bad_geometry {s : State} {e k : Nat} (hst : s.enc.state = .released)
    (h : e < 1 ∨ 65536 < e ∨ k < 1 ∨ s.params.maxCodeBits < k ∨ 2 ^ k < e) :
    encInitCheck s e k = some .invalidConfiguration := by
  cases hc : encInitCheck s e k with
  | none =>
    obtain ⟨-, he, hle, hk, hkle, hpow⟩ := encInitCheck_none.mp hc
    omega
  | some st =>
    rcases encInitCheck_some hc with ⟨hne, -⟩ | ⟨-, rfl⟩
    · exact absurd hst hne
    · rfl

/-- Settles O11: the checks of R121 in order, then the arena's answer. `ENC_E` and `ENC_K` hold every value that passes the checks. -/
theorem encInitFollowsItsRule : Obligations.EncInitFollowsItsRule := by
  refine ⟨fun e k he hk => decode_assembledWord (.encInit e k) he hk, fun e k s => ⟨fun hst => ?_, fun hst hbad => ?_, ?_⟩⟩
  · exact exec_encInit_of_failed (encInitCheck_of_not_released hst e k)
  · exact exec_encInit_of_failed (encInitCheck_of_bad_geometry hst hbad)
  · intro hst he hle hk hkle hpow
    have hc : encInitCheck s e k = none := encInitCheck_none.mpr ⟨hst, he, hle, hk, hkle, hpow⟩
    have hk32 := s.params.le32
    refine ⟨exec_encInit_of_denied hc, fun hg => ⟨openedEncoder s.enc s.params e k, exec_encInit_of_granted hc hg, rfl, ?_, ?_,
      rfl, rfl, rfl, rfl, rfl, rfl, rfl, rfl⟩⟩
    · exact (BitVec.toNat_ofNat ..).trans (Nat.mod_eq_of_lt (by omega))
    · exact (BitVec.toNat_ofNat ..).trans (Nat.mod_eq_of_lt (by omega))

/-! ### ENC.COUNT (R122) -/

@[simp] theorem encSymbolOk_eq_false {u : Encoder} {x : Nat} : encSymbolOk u x = false ↔ u.e.toNat ≤ x := by
  simp [encSymbolOk]

/-- Settles O12: the state, then the symbol, and else one entry of `FreqCode` written. -/
theorem encCountFollowsItsRule : Obligations.EncCountFollowsItsRule := by
  refine ⟨fun sym n hs hn => decode_assembledWord (.encCount sym n) hs hn, fun sym n s => ⟨fun hst => ?_, fun hst hsym => ?_, ?_⟩⟩
  · simp [exec, execEncCount, hst]
  · simp [exec, execEncCount, hst, hsym]
  · intro hst hlen hsym
    have hset := symEntry_set s.enc.freqCode sym (symEntry s.enc.freqCode sym + BitVec.ofNat 32 n)
    refine ⟨s.enc.freqCode.set sym (symEntry s.enc.freqCode sym + BitVec.ofNat 32 n), ?_, List.length_set, ?_, fun x hx => ?_⟩
    · simp [exec, execEncCount, hst, Nat.not_le.mpr hsym]
    · rw [hset sym (hlen ▸ hsym), if_pos rfl, BitVec.toNat_add, BitVec.toNat_ofNat, Nat.add_mod_mod]
    · rw [hset x (hlen ▸ hsym), if_neg hx]

/-! ### ENC.CREATE (R123) -/

theorem exec_encCreate_of_not_counting {s : State} (hst : s.enc.state ≠ .counting) :
    exec .encCreate s = .next (s.raise .sequenceError) := by
  simp [exec, execEncCreate, hst]

/-- The used symbols, by the entries of the frequency table. -/
theorem usedSymbols_nats {w : Nat} (t : List (BitVec w)) :
    usedSymbols (nats t) = (List.range t.length).filter (fun x => (symEntry t x).toNat != 0) := by
  simp only [usedSymbols, nats_length, nats_getD]

theorem usedLength_of_single {freqs : List Nat} (h : (usedSymbols freqs).length = 1) (k x : Nat) :
    usedLength freqs k x = 1 := by
  simp [usedLength, h]

theorem usedLength_of_two_le {freqs : List Nat} (h : 2 ≤ (usedSymbols freqs).length) (k x : Nat) :
    usedLength freqs k x = lengthAssign (fun y => freqs.getD y 0) (usedSymbols freqs) k x := by
  simp [usedLength, show (usedSymbols freqs).length ≠ 1 by omega]

namespace CountingSession
variable {p : Params} {u : Encoder} (h : CountingSession p u) (d : Nat)
include h

theorem lenOf_created_of_unused {x : Nat} (hf : (symEntry u.freqCode x).toNat = 0) :
    (createdEncoder u p d).lenOf x = 0 := by
  rw [h.lenOf_created, Encoder.newLengths, lenAt_createdLengths h.cleared, nats_getD, if_pos hf]

theorem lenOf_created_of_used {x : Nat} (hx : x ∈ usedSymbols (nats u.freqCode)) :
    (createdEncoder u p d).lenOf x = usedLength (nats u.freqCode) u.k.toNat x := by
  rw [h.lenOf_created, Encoder.newLengths, lenAt_createdLengths h.cleared, if_neg (mem_usedSymbols.mp hx).2]

/-- The walk of R131 ends with each length's next code past all its codes. -/
theorem nextCode_created {l : Nat} (h1 : 1 ≤ l) (hl : l ≤ p.maxCodeBits) :
    lenEntry (createdEncoder u p d).nextCode l = BitVec.ofNat 33 (startOf u.newLengths l + u.newLengths.count l) := by
  obtain ⟨l, rfl⟩ := Nat.exists_eq_add_of_le' h1
  have hfst : (u.newLengths.zip (nats u.freqCode)).map Prod.fst = u.newLengths :=
    List.map_fst_zip (by rw [h.freqs_length, h.newLengths_length])
  have hstored : lenEntry (createdEncoder u p d).nextCode (l + 1) = BitVec.ofNat 33
      ((assignCodes (startCodes (lengthCounts p.maxCodeBits u.newLengths))
        (u.newLengths.zip (nats u.freqCode))).2.getD l 0) := by
    rw [lenEntry_succ, createdEncoder, symEntry_narrow, Encoder.newLengths]
  rw [hstored, assignCodes_next _ _ _ (by simpa [startCodes] using hl), hfst, startCodes_getD _ _ _ hl]

theorem freqCode_created_length : (createdEncoder u p d).freqCode.length = u.e.toNat := by
  have hlen := h.newLengths_length
  rw [Encoder.newLengths] at hlen
  simp [createdEncoder, hlen, h.freqs_length]

theorem codeSize_created_length : (createdEncoder u p d).codeSize.length = u.e.toNat := by
  rw [← nats_length, h.nats_codeSize_created, h.newLengths_length]

end CountingSession

/-- Settles O13: the tables of R123 from the laws of the created encoder. -/
theorem encCreateFollowsItsRule : Obligations.EncCreateFollowsItsRule := by
  refine ⟨decode_assembledWord .encCreate (by decide) (by decide), fun s =>
    ⟨exec_encCreate_of_not_counting, fun hst hinv => ?_⟩⟩
  have h := hinv.countingSession hst
  have hlaws := h.codedLaws_created s.draws
  have hused := usedSymbols_nats s.enc.freqCode
  rw [h.shape.freq_size] at hused
  refine ⟨createdEncoder s.enc s.params s.draws, exec_encCreate_of_counting hst, rfl, rfl, rfl, rfl,
    h.freqCode_created_length s.draws, h.codeSize_created_length s.draws, ?_, hlaws.longest, fun l h1 hl => ?_, fun x hx hlen => ?_⟩
  · intro f used
    refine ⟨?_, fun x hx hf => ?_, fun h1 x hx => ?_, fun h2 x hx => ?_⟩
    · rw [h.nz_created, hused]
    · have hlen := h.lenOf_created_of_unused s.draws hf
      exact ⟨hlen, hlaws.unused x hx hlen⟩
    · rw [h.lenOf_created_of_used _ (hused ▸ hx), usedLength_of_single (hused ▸ h1)]
    · rw [h.lenOf_created_of_used _ (hused ▸ hx), usedLength_of_two_le (hused ▸ h2), hused]
      simp only [nats_getD]
      rfl
  · exact ⟨hlaws.counts l h1 hl, by rw [h.nats_codeSize_created, h.nextCode_created s.draws h1 hl]⟩
  · rw [← hlaws.codes x hx hlen, Encoder.codeOf, BitVec.ofNat_toNat, BitVec.setWidth_eq]

/-! ### ENC.CREATE as a function of the counts and the limit (R133) -/

/-- Cleared lengths do not enter the new ones. -/
theorem createdLengths_of_cleared (freqs : List Nat) {old : List Nat} (hold : ∀ l ∈ old, l = 0) (k : Nat) :
    createdLengths freqs old k = createdLengths freqs [] k := by
  apply List.ext_getElem (by simp)
  intro x hx hx'
  rw [← lenAt_eq_getElem hx, ← lenAt_eq_getElem hx', lenAt_createdLengths hold, lenAt_createdLengths (by simp)]

/-- Two tables of one size with equal entries are equal. -/
theorem ext_symEntry {w : Nat} {t t' : List (BitVec w)} (hlen : t.length = t'.length)
    (h : ∀ x, x < t.length → symEntry t x = symEntry t' x) : t = t' := by
  apply List.ext_getElem hlen
  intro x hx hx'
  simpa [symEntry, hx, hx'] using h x hx

section
variable {p p' : Params} {u u' : Encoder} (h : CountingSession p u) (h' : CountingSession p' u')
  (hfreq : u.freqCode = u'.freqCode) (hk : u.k = u'.k)
include h h' hfreq

theorem CountingSession.e_toNat_eq : u.e.toNat = u'.e.toNat := by
  rw [← h.shape.freq_size, hfreq, h'.shape.freq_size]

include hk

theorem CountingSession.newLengths_eq : u.newLengths = u'.newLengths := by
  rw [Encoder.newLengths, Encoder.newLengths, createdLengths_of_cleared _ h.cleared, createdLengths_of_cleared _ h'.cleared,
    hfreq, hk]

/-- Every stored code fits its field, so no width or parameter shows in it. -/
theorem CountingSession.freqCode_created_eq (d d' : Nat) :
    (createdEncoder u p d).freqCode = (createdEncoder u' p' d').freqCode := by
  have he := h.e_toNat_eq h' hfreq
  have hlen := h.freqCode_created_length d
  apply ext_symEntry (by rw [hlen, h'.freqCode_created_length, he])
  intro x hx
  rw [hlen] at hx
  apply BitVec.eq_of_toNat_eq
  calc (createdEncoder u p d).codeOf x
      = if lenAt u.newLengths x = 0 then 0 else canonCode u.newLengths x := h.codeOf_created d hx
    _ = if lenAt u'.newLengths x = 0 then 0 else canonCode u'.newLengths x := by rw [h.newLengths_eq h' hfreq hk]
    _ = (createdEncoder u' p' d').codeOf x := (h'.codeOf_created d' (he ▸ hx)).symm

end

/-- Settles O20: the new lengths are a function of the frequencies and `ENC_K`, and the other tables are functions of the lengths. -/
theorem createIsAFunctionOfCountsAndLimit : Obligations.CreateIsAFunctionOfCountsAndLimit := by
  intro s s' t t' hst hst' hinv hinv' hfreq hk hexec hexec'
  have h := hinv.countingSession hst
  have h' := hinv'.countingSession hst'
  rw [exec_encCreate_of_counting hst] at hexec
  rw [exec_encCreate_of_counting hst'] at hexec'
  obtain rfl := Host.Outcome.next.inj hexec
  obtain rfl := Host.Outcome.next.inj hexec'
  have hlens := h.newLengths_eq h' hfreq hk
  refine ⟨congrArg (narrow 6) hlens, h.freqCode_created_eq h' hfreq hk _ _,
    congrArg (fun lens => BitVec.ofNat 6 (maxLength lens)) hlens,
    congrArg (fun t => BitVec.ofNat 17 (usedSymbols (nats t)).length) hfreq, fun l h1 hl hl' => BitVec.eq_of_toNat_eq ?_⟩
  exact (h.eCount_created s.draws h1 hl).trans (hlens ▸ (h'.eCount_created s'.draws h1 hl').symm)

/-! ### ENC.EXIT and the read-outs (R124 to R129) -/

/-- Settles O14: a no-op in RELEASED, else the release and the freed unit. -/
theorem encExitFollowsItsRule : Obligations.EncExitFollowsItsRule := by
  refine ⟨decode_assembledWord .encExit (by decide) (by decide), fun s => ⟨fun hst => ?_, fun hst => ?_⟩⟩
  · simp [exec, execEncExit, hst]
  · exact ⟨freedEncoder s.params s.draws, rfl, rfl, by simp [exec, execEncExit, hst]⟩

theorem countLenOk_eq_true {p : Params} {l : Nat} : countLenOk p l = true ↔ 1 ≤ l ∧ l ≤ p.maxCodeBits := by
  simp [countLenOk]

theorem countLenOk_eq_false {p : Params} {l : Nat} : countLenOk p l = false ↔ l < 1 ∨ p.maxCodeBits < l := by
  rw [← Bool.not_eq_true, countLenOk_eq_true]
  omega

/-- Settles O15: each read-out's state check, then its index check, then its entry. -/
theorem encoderReadOutsFollowTheirRules : Obligations.EncoderReadOutsFollowTheirRules := by
  have hb : 0 < 2 ^ 32 := by decide
  refine ⟨fun a ha => ⟨decode_assembledWord (.encRdfc a) ha hb, decode_assembledWord (.encRdlen a) ha hb,
      decode_assembledWord (.encRdcnt a) ha hb⟩, decode_assembledWord .encRdmaxlen (by decide) hb,
    decode_assembledWord .encRdnz (by decide) hb, fun a s => ⟨fun hst => ?_, fun hst ha => ?_, fun hst ha => ?_,
      fun hst => ⟨?_, ?_, ?_, ?_⟩, fun hst => ⟨fun ha => ?_, fun ha => ?_, fun ha => ?_, fun h1 ha => ?_, ?_, ?_⟩⟩⟩
  · simp [exec, execEncRdfc, hst]
  · simp [exec, execEncRdfc, hst, ha]
  · simp [exec, execEncRdfc, hst, Nat.not_le.mpr ha, Encoder.codeOf]
  · simp [exec, execEncRdlen, hst]
  · simp [exec, execEncRdcnt, hst]
  · simp [exec, execEncRdmaxlen, hst]
  · simp [exec, execEncRdnz, hst]
  · simp [exec, execEncRdlen, hst, ha]
  · simp [exec, execEncRdlen, hst, Nat.not_le.mpr ha, Encoder.lenOf]
  · simp [exec, execEncRdcnt, hst, countLenOk_eq_false.mpr ha]
  · simp [exec, execEncRdcnt, hst, countLenOk_eq_true.mpr ⟨h1, ha⟩]
  · simp [exec, execEncRdmaxlen, hst]
  · simp [exec, execEncRdnz, hst]

end Sys2Proof.Machine
end

section
/-! Looking up a code in a reconstructed decoder (R172, R173): the sorted symbol list holds each used symbol at its length's offset and its
rank among the symbols of that length, so the code ranges of the step table are the codes themselves. -/

namespace Sys2Proof.Machine

open Sys2Proof

/-! ### The sorted symbol list (R172) -/

/-- Among the first `n` symbols, those of length `l`, counted. -/
theorem filter_range_length (lens : List Nat) (l : Nat) {n : Nat} (hn : n ≤ lens.length) :
    ((List.range n).filter (fun s => lens.getD s 0 == l)).length = (lens.take n).count l := by
  induction n with
  | zero => simp
  | succ n ih =>
    rw [List.range_succ, List.filter_append, List.length_append, ih (by omega), ← List.take_concat_get' lens n hn,
      List.count_append]
    by_cases hl : lens[n] = l <;> simp [hl, show n < lens.length from hn]

@[simp] theorem symbolsOfLength_length (lens : List Nat) (l : Nat) : (symbolsOfLength lens l).length = lens.count l := by
  rw [symbolsOfLength, filter_range_length lens l le_rfl, List.take_length]

theorem mem_symbolsOfLength {lens : List Nat} {l x : Nat} :
    x ∈ symbolsOfLength lens l ↔ x < lens.length ∧ lenAt lens x = l := by
  simp [symbolsOfLength, lenAt]

/-- A symbol stands at its rank: the number of lower symbols of its length. -/
theorem symbolsOfLength_rank {lens : List Nat} {x : Nat} (hx : x < lens.length) :
    (symbolsOfLength lens (lenAt lens x))[(lens.take x).count (lenAt lens x)]? = some x := by
  suffices h : ∀ n, x < n → n ≤ lens.length →
      ((List.range n).filter (fun s => lens.getD s 0 == lenAt lens x))[(lens.take x).count (lenAt lens x)]? = some x from
    h lens.length hx le_rfl
  intro n hxn hn
  induction n, hxn using Nat.le_induction with
  | base =>
    have hlen := filter_range_length lens (lenAt lens x) (show x ≤ lens.length by omega)
    rw [List.range_succ, List.filter_append, List.getElem?_append_right hlen.le, hlen, Nat.sub_self]
    simp [lenAt]
  | succ n hxn ih =>
    rw [List.range_succ, List.filter_append, List.getElem?_append_left, ih (by omega)]
    rw [filter_range_length _ _ (by omega)]
    exact count_take_lt hxn (by omega)

/-- Every rank below the count of a length is some symbol's. -/
theorem exists_symbol_of_rank {lens : List Nat} {l i : Nat} (hi : i < lens.count l) :
    ∃ x, x < lens.length ∧ lenAt lens x = l ∧ (lens.take x).count l = i := by
  have hi' : i < (symbolsOfLength lens l).length := by rwa [symbolsOfLength_length]
  obtain ⟨hx, hlen⟩ := mem_symbolsOfLength.mp (List.getElem_mem hi')
  have hrank := symbolsOfLength_rank hx
  rw [hlen, ← List.getElem?_eq_getElem hi'] at hrank
  exact ⟨_, hx, hlen, ((List.getElem?_inj hi' (List.nodup_range.filter _)).mp hrank.symm).symm⟩

/-- An entry of a concatenation of blocks, found by its block and its place in it. -/
theorem flatMap_range'_getElem? (f : Nat → List Nat) (n : Nat) {a l i : Nat} (ha : a ≤ l) (hl : l < a + n)
    (hi : i < (f l).length) :
    ((List.range' a n).flatMap f)[∑ j ∈ Finset.Ico a l, (f j).length + i]? = (f l)[i]? := by
  induction n generalizing a with
  | zero => omega
  | succ n ih =>
    rw [List.range'_succ, List.flatMap_cons]
    rcases ha.eq_or_lt with rfl | hlt
    · rw [Finset.Ico_self, Finset.sum_empty, Nat.zero_add, List.getElem?_append_left hi]
    · rw [Finset.sum_eq_sum_Ico_succ_bot hlt, Nat.add_assoc, List.getElem?_append_right (Nat.le_add_right ..),
        Nat.add_sub_cancel_left]
      exact ih hlt (by omega)

/-! ### The bits read so far (R76) -/

theorem bitsValue_concat (bits : List Bool) (b : Bool) : bitsValue (bits ++ [b]) = 2 * bitsValue bits + b.toNat := by
  simp [bitsValue]

/-- The last bits read are the low ones. -/
theorem bitsValue_append_div (xs ys : List Bool) : bitsValue (xs ++ ys) / 2 ^ ys.length = bitsValue xs := by
  induction ys using List.reverseRecOn with
  | nil => simp
  | append_singleton ys b ih =>
    have hhalf : (2 * bitsValue (xs ++ ys) + b.toNat) / 2 = bitsValue (xs ++ ys) := by cases b <;> simp; omega
    rw [← List.append_assoc, bitsValue_concat, List.length_append, List.length_singleton, Nat.pow_succ',
      ← Nat.div_div_eq_div_mul, hhalf, ih]

theorem bitsValue_take_div (bits : List Bool) {j n : Nat} (hj : j ≤ n) (hn : n ≤ bits.length) :
    bitsValue (bits.take n) / 2 ^ (n - j) = bitsValue (bits.take j) := by
  have hsplit : bits.take j ++ (bits.take n).drop j = bits.take n := by
    conv_rhs => rw [← List.take_append_drop j (bits.take n), List.take_take, Nat.min_eq_left hj]
  have hlen : ((bits.take n).drop j).length = n - j := by simp [hn]
  rw [← hsplit, ← hlen, bitsValue_append_div]

/-! ### Codes and the step table (R173) -/

theorem DecShape.lenOf_le {p : Params} {u : Decoder} (hs : DecShape p u) {x : Nat} (hx : x ≤ u.m.toNat) :
    u.lenOf x ≤ p.maxCodeBits := by
  rw [u.lenOf_eq]
  exact hs.len_le _ (lenAt_mem (by rw [hs.nats_length]; omega))

section
variable {p : Params} {u : Decoder} (hs : DecShape p u) (hr : Reconstructed p u)
include hs hr

/-- No symbol is longer than `DEC_MAXLEN` (R172). -/
theorem Reconstructed.lenOf_le_maxLen {x : Nat} (hx : x ≤ u.m.toNat) : u.lenOf x ≤ u.maxLen.toNat := by
  rw [hr.longest, u.lenOf_eq]
  exact List.le_max_of_le (lenAt_mem (by rw [hs.nats_length]; omega)) le_rfl

/-- R186: `DEC_MAXLEN` is one of the lengths, or 0. -/
theorem Reconstructed.maxLen_le : u.maxLen.toNat ≤ p.maxCodeBits := by
  rw [hr.longest]
  exact List.max_le_of_forall_le _ _ hs.len_le

/-- The step table matches exactly the codes of the used symbols. -/
theorem Reconstructed.matchesAt_iff {bits : List Bool} {n : Nat} (h1 : 1 ≤ n) (hn : n ≤ p.maxCodeBits) :
    MatchesAt u bits n ↔ ∃ x, x ≤ u.m.toNat ∧ u.lenOf x = n ∧ u.codeOf x = bitsValue (bits.take n) := by
  rw [MatchesAt, hr.counts n h1 hn, hr.starts n h1 hn]
  constructor
  · rintro ⟨-, hlo, hhi⟩
    obtain ⟨x, hx, hlen, hrank⟩ := exists_symbol_of_rank (lens := nats u.dLen) (l := n)
      (i := bitsValue (bits.take n) - startOf (nats u.dLen) n) (by omega)
    have hxm : x ≤ u.m.toNat := by rw [hs.nats_length] at hx; omega
    have hlen' : u.lenOf x = n := by rw [u.lenOf_eq, hlen]
    refine ⟨x, hxm, hlen', ?_⟩
    rw [hr.codes x hxm (by omega), canonCode, hlen, hrank]
    omega
  · rintro ⟨x, hxm, hlen, hcode⟩
    have hend := canonCode_lt_end (lens := nats u.dLen) (s := x) (by rw [hs.nats_length]; omega)
    rw [← hr.codes x hxm (by omega), ← u.lenOf_eq, hlen, hcode] at hend
    have hstart : startOf (nats u.dLen) n ≤ bitsValue (bits.take n) := by
      rw [← hcode, hr.codes x hxm (by omega), canonCode, ← u.lenOf_eq, hlen]
      exact Nat.le_add_right ..
    omega

/-- What the step table finds for a used symbol's code is that symbol. -/
theorem Reconstructed.matchedSymbol_codeOf {x : Nat} (hx : x ≤ u.m.toNat) (hused : u.lenOf x ≠ 0) :
    matchedSymbol u (u.lenOf x) (u.codeOf x) = BitVec.ofNat 16 x := by
  have hlt : x < (nats u.dLen).length := by rw [hs.nats_length]; omega
  have h1 := Nat.one_le_iff_ne_zero.mpr hused
  have hl := hs.lenOf_le hx
  have hblock := flatMap_range'_getElem? (symbolsOfLength (nats u.dLen)) p.maxCodeBits h1 (by omega)
    (i := ((nats u.dLen).take x).count (u.lenOf x))
    (by
      rw [symbolsOfLength_length, u.lenOf_eq]
      exact (count_take_lt hlt le_rfl).trans_eq (by rw [List.take_length]))
  have hrank := symbolsOfLength_rank hlt
  rw [← u.lenOf_eq] at hrank
  simp only [symbolsOfLength_length] at hblock
  have hplace : (lenEntry u.offset (u.lenOf x)).toNat + (u.codeOf x - (lenEntry u.first (u.lenOf x)).toNat) =
      ∑ j ∈ Finset.Ico 1 (u.lenOf x), (nats u.dLen).count j + ((nats u.dLen).take x).count (u.lenOf x) := by
    rw [hr.offs _ h1 hl, hr.starts _ h1 hl, hr.codes x hx hused, canonCode, ← u.lenOf_eq, Nat.add_sub_cancel_left]
  apply BitVec.eq_of_toNat_eq
  have hm := u.m.isLt
  rw [matchedSymbol, hplace, ← nats_getD, hr.sorted, List.getD_eq_getElem?_getD, hblock, hrank, BitVec.toNat_ofNat,
    Nat.mod_eq_of_lt (by omega)]
  rfl

/-- Once the stream begins with a used symbol's code, no shorter length matches: the codes are prefix-free (R53). -/
theorem Reconstructed.not_matchesAt_of_lt {bits : List Bool} {x j : Nat} (hx : x ≤ u.m.toNat)
    (hlen : u.lenOf x ≤ bits.length) (hcode : u.codeOf x = bitsValue (bits.take (u.lenOf x))) (h1 : 1 ≤ j)
    (hj : j < u.lenOf x) : ¬ MatchesAt u bits j := by
  have hl := hs.lenOf_le hx
  rw [hr.matchesAt_iff hs h1 (by omega)]
  rintro ⟨y, hy, rfl, hy'⟩
  refine hr.prefixFree hs y x (by omega) (by omega) (by rintro rfl; omega) (by omega) (by omega) ⟨hj.le, ?_⟩
  rw [hcode, hy', bitsValue_take_div bits hj.le hlen]

end

end Sys2Proof.Machine
end

section
/-! DEC.RDSYM (R173, R184, R186): the decode loop over a source, what the command does at each of its ends, and its agreement with a search
of the codes. -/

namespace Sys2Proof.Machine

open Sys2Proof

/-! ### The loop over a bit source -/

theorem codeMatches_take_iff (u : Decoder) (bits : List Bool) (n : Nat) :
    codeMatches u n (bitsValueFrom 0 (bits.take n)) = true ↔ MatchesAt u bits n :=
  codeMatches_iff u n _

/-- No match up to length `n`, in the terms of the loop. -/
theorem codeMatches_eq_false_of_lt {u : Decoder} {bits : List Bool} {n : Nat} (h : ∀ j, 1 ≤ j → j ≤ n → ¬ MatchesAt u bits j)
    (j : Nat) (hj : j < n) : codeMatches u (1 + j) (bitsValueFrom 0 (bits.take (j + 1))) = false := by
  rw [Nat.add_comm 1 j, ← Bool.not_eq_true, codeMatches_take_iff]
  exact h (j + 1) (by omega) hj

section
variable {u : Decoder} {src : BitSource}

theorem decodeSymbol_of_firstMatch {n : Nat} (h1 : 1 ≤ n) (hn : n ≤ u.maxLen.toNat) (hb : n ≤ src.bits.length)
    (hm : MatchesAt u src.bits n) (hfirst : ∀ j, 1 ≤ j → j < n → ¬ MatchesAt u src.bits j) :
    decodeSymbol u src =
      ⟨(src.bits.take n).map .bit, .symbol (matchedSymbol u n (bitsValue (src.bits.take n)))⟩ := by
  obtain ⟨k, rfl⟩ := Nat.exists_eq_add_of_le h1
  have hm' := (codeMatches_take_iff u src.bits (1 + k)).mpr hm
  rw [Nat.add_comm 1 k] at hm' ⊢
  have hrun := decodeFrom_match u src.ending u.maxLen.toNat 1 0 src.bits k (by omega) (by omega)
    (by rwa [Nat.add_comm 1 k]) (codeMatches_eq_false_of_lt fun j h1 hj => hfirst j h1 (by omega))
  rwa [Nat.add_comm 1 k, bitsValueFrom_zero] at hrun

theorem decodeSymbol_of_noMatch (hb : u.maxLen.toNat ≤ src.bits.length)
    (hnone : ∀ j, 1 ≤ j → j ≤ u.maxLen.toNat → ¬ MatchesAt u src.bits j) :
    decodeSymbol u src = ⟨(src.bits.take u.maxLen.toNat).map .bit, .noMatch⟩ :=
  decodeFrom_noMatch u src.ending _ 1 0 src.bits hb (codeMatches_eq_false_of_lt hnone)

theorem decodeSymbol_of_eos (hb : src.bits.length < u.maxLen.toNat)
    (hnone : ∀ j, 1 ≤ j → j ≤ src.bits.length → ¬ MatchesAt u src.bits j) (hend : src.ending = .eos) :
    decodeSymbol u src = ⟨src.bits.map .bit ++ [.eos], .endOfStream⟩ := by
  have hrun := decodeFrom_end u src.ending _ 1 0 src.bits hb (codeMatches_eq_false_of_lt hnone)
  rw [decodeSymbol, hrun, hend]

theorem decodeSymbol_of_silent (hb : src.bits.length < u.maxLen.toNat)
    (hnone : ∀ j, 1 ≤ j → j ≤ src.bits.length → ¬ MatchesAt u src.bits j) (hend : src.ending = .silent) :
    decodeSymbol u src = ⟨src.bits.map .bit, .waiting⟩ := by
  have hrun := decodeFrom_end u src.ending _ 1 0 src.bits hb (codeMatches_eq_false_of_lt hnone)
  rw [decodeSymbol, hrun, hend]

end

/-- One read for each length tried, at most. -/
theorem decodeFrom_reads_length_le (u : Decoder) (ending : StreamEnd) (left len v : Nat) (bits : List Bool) :
    (decodeFrom u ending left len v bits).reads.length ≤ left := by
  induction left generalizing len v bits with
  | zero => simp [decodeFrom]
  | succ left ih =>
    cases bits with
    | nil => cases ending <;> simp [decodeFrom]
    | cons b bits =>
      rw [decodeFrom]
      split
      · simp
      · simpa using ih ..

/-! ### The command (R173) -/

section
variable {s : State} (hst : s.dec.state = .ready)
include hst

theorem exec_decRdsym_of_symbol {reads : List BitAnswer} {x : BitVec 16}
    (hrun : decodeSymbol s.dec s.bitIO = ⟨reads, .symbol x⟩) :
    exec .decRdsym s = .next ((s.exchanges (reads.map .bitRead)).respond .ok (x.setWidth 32)) := by
  simp [exec, execDecRdsym, hst, hrun]

theorem exec_decRdsym_of_corruption {run : DecodeRun} (hrun : decodeSymbol s.dec s.bitIO = run)
    (hout : run.outcome = .noMatch ∨ run.outcome = .endOfStream) :
    exec .decRdsym s = .next (s.exchanges (run.reads.map .bitRead)).failStream := by
  rcases hout with hout | hout <;> simp [exec, execDecRdsym, hst, hrun, hout]

theorem exec_decRdsym_of_waiting {reads : List BitAnswer} (hrun : decodeSymbol s.dec s.bitIO = ⟨reads, .waiting⟩) :
    exec .decRdsym s = .fault .bitReadNeverAnswered := by
  simp [exec, execDecRdsym, hst, hrun]

/-- R173: the first length that matches decides. -/
theorem exec_decRdsym_of_firstMatch {n : Nat} (h1 : 1 ≤ n) (hn : n ≤ s.dec.maxLen.toNat) (hb : n ≤ s.bitIO.bits.length)
    (hm : MatchesAt s.dec s.bitIO.bits n) (hfirst : ∀ j, 1 ≤ j → j < n → ¬ MatchesAt s.dec s.bitIO.bits j) :
    exec .decRdsym s = .next ((s.consumed n).respond .ok
      ((matchedSymbol s.dec n (bitsValue (s.bitIO.bits.take n))).setWidth 32)) := by
  rw [exec_decRdsym_of_symbol hst (decodeSymbol_of_firstMatch h1 hn hb hm hfirst), List.map_map, ← exchanges_reads n s hb]
  rfl

theorem exec_decRdsym_of_noMatch (hb : s.dec.maxLen.toNat ≤ s.bitIO.bits.length)
    (hnone : ∀ j, 1 ≤ j → j ≤ s.dec.maxLen.toNat → ¬ MatchesAt s.dec s.bitIO.bits j) :
    exec .decRdsym s = .next (s.consumed s.dec.maxLen.toNat).failStream := by
  rw [exec_decRdsym_of_corruption hst (decodeSymbol_of_noMatch hb hnone) (.inl rfl), List.map_map, ← exchanges_reads _ s hb]
  rfl

theorem exec_decRdsym_of_eos (hb : s.bitIO.bits.length < s.dec.maxLen.toNat)
    (hnone : ∀ j, 1 ≤ j → j ≤ s.bitIO.bits.length → ¬ MatchesAt s.dec s.bitIO.bits j) (hend : s.bitIO.ending = .eos) :
    exec .decRdsym s = .next ((s.consumed s.bitIO.bits.length).exchange (.bitRead .eos)).failStream := by
  have hreads := exchanges_reads _ s le_rfl
  rw [List.take_length] at hreads
  rw [exec_decRdsym_of_corruption hst (decodeSymbol_of_eos hb hnone hend) (.inr rfl), List.map_append, List.map_map,
    exchanges_append, ← hreads]
  rfl

end

/-- Settles O24: the loop's three ends, and the two states in which it is not entered. -/
theorem decRdsymFollowsItsRule : Obligations.DecRdsymFollowsItsRule := by
  refine ⟨decode_assembledWord .decRdsym (by decide) (by decide), fun s => ⟨fun hst => ?_, fun hst => ?_, fun hst =>
    ⟨fun n => exec_decRdsym_of_firstMatch hst, exec_decRdsym_of_noMatch hst, exec_decRdsym_of_eos hst⟩⟩⟩
  · simp [exec, execDecRdsym, hst]
  · rcases hst with hst | hst <;> simp [exec, execDecRdsym, hst]

/-- Settles O31: the loop tries `DEC_MAXLEN` lengths, and outside READY it is not entered. -/
theorem rdsymReadsAtMostTheLongestLength : Obligations.RdsymReadsAtMostTheLongestLength := by
  intro s hinv
  refine ⟨?_, fun hst => ?_⟩
  · rw [requestsOf]
    split
    · rw [List.length_map]
      exact decodeFrom_reads_length_le ..
    · exact Nat.zero_le _
  · obtain ⟨hs, hr⟩ := hinv.reconstructed (.inl hst)
    exact hr.maxLen_le hs

/-! ### Agreement with a search of the codes (R184) -/

/-- Either some length up to `n` is the first to match, or none matches. -/
theorem exists_firstMatch_or_none (u : Decoder) (bits : List Bool) (n : Nat) :
    (∃ k, 1 ≤ k ∧ k ≤ n ∧ MatchesAt u bits k ∧ ∀ j, 1 ≤ j → j < k → ¬ MatchesAt u bits j) ∨
      ∀ j, 1 ≤ j → j ≤ n → ¬ MatchesAt u bits j := by
  induction n with
  | zero => exact .inr fun j h1 hj => by omega
  | succ n ih =>
    rcases ih with ⟨k, h1, hk, hm, hfirst⟩ | hnone
    · exact .inl ⟨k, h1, by omega, hm, hfirst⟩
    · by_cases hm : MatchesAt u bits (n + 1)
      · exact .inl ⟨n + 1, by omega, le_rfl, hm, fun j h1 hj => hnone j h1 (by omega)⟩
      · refine .inr fun j h1 hj => ?_
        rcases hj.eq_or_lt with rfl | hlt
        · exact hm
        · exact hnone j h1 (by omega)

/-- A response OK comes from a first match: every other end is FAILED or no next state. -/
theorem exists_firstMatch_of_ok {s t : State} (hst : s.dec.state = .ready) (hexec : exec .decRdsym s = .next t)
    (hok : lastStatus t = some 0) :
    ∃ n, 1 ≤ n ∧ n ≤ s.dec.maxLen.toNat ∧ n ≤ s.bitIO.bits.length ∧ MatchesAt s.dec s.bitIO.bits n ∧
      ∀ j, 1 ≤ j → j < n → ¬ MatchesAt s.dec s.bitIO.bits j := by
  have hfail : ∀ r : State, exec .decRdsym s ≠ .next r.failStream := by
    rintro r hr
    obtain rfl := Host.Outcome.next.inj (hexec.symm.trans hr)
    simp [State.failStream, Status.code] at hok
  rcases exists_firstMatch_or_none s.dec s.bitIO.bits (min s.dec.maxLen.toNat s.bitIO.bits.length) with
    ⟨n, h1, hn, hm, hfirst⟩ | hnone
  · exact ⟨n, h1, by omega, by omega, hm, hfirst⟩
  · exfalso
    rcases le_or_gt s.dec.maxLen.toNat s.bitIO.bits.length with hb | hb
    · rw [Nat.min_eq_left hb] at hnone
      exact hfail _ (exec_decRdsym_of_noMatch hst hb hnone)
    · rw [Nat.min_eq_right hb.le] at hnone
      cases hend : s.bitIO.ending with
      | eos => exact hfail _ (exec_decRdsym_of_eos hst hb hnone hend)
      | silent =>
        rw [exec_decRdsym_of_waiting hst (decodeSymbol_of_silent hb hnone hend)] at hexec
        cases hexec

section
variable {s : State} (hst : s.dec.state = .ready) (hs : DecShape s.params s.dec) (hr : Reconstructed s.params s.dec)
include hst hs hr

/-- R184: a stream that begins with a used symbol's code yields that symbol. -/
theorem exec_decRdsym_of_code {x : Nat} (hx : x ≤ s.dec.m.toNat) (hused : s.dec.lenOf x ≠ 0)
    (hb : s.dec.lenOf x ≤ s.bitIO.bits.length)
    (hcode : s.dec.codeOf x = bitsValue (s.bitIO.bits.take (s.dec.lenOf x))) :
    exec .decRdsym s = .next ((s.consumed (s.dec.lenOf x)).respond .ok (BitVec.ofNat 32 x)) := by
  have h1 := Nat.one_le_iff_ne_zero.mpr hused
  have hx16 : x < 2 ^ 16 := by have := s.dec.m.isLt; omega
  have hm : MatchesAt s.dec s.bitIO.bits (s.dec.lenOf x) := (hr.matchesAt_iff hs h1 (hs.lenOf_le hx)).mpr ⟨x, hx, rfl, hcode⟩
  have hresult : (BitVec.ofNat 16 x).setWidth 32 = BitVec.ofNat 32 x := by
    apply BitVec.eq_of_toNat_eq
    simp
    omega
  rw [exec_decRdsym_of_firstMatch hst h1 (hr.lenOf_le_maxLen hs hx) hb hm fun j h1 hj =>
    hr.not_matchesAt_of_lt hs hx hb hcode h1 hj, ← hcode, hr.matchedSymbol_codeOf hs hx hused, hresult]

end

/-- Settles O29: the step table matches exactly the codes, and prefix-free codes match at one length alone. -/
theorem decodingAgreesWithSearchingTheCodes : Obligations.DecodingAgreesWithSearchingTheCodes := by
  intro s hinv hst
  obtain ⟨hs, hr⟩ := hinv.reconstructed (.inl hst)
  refine ⟨fun t hexec hok => ?_, fun x => exec_decRdsym_of_code hst hs hr⟩
  obtain ⟨n, h1, hn, hb, hm, hfirst⟩ := exists_firstMatch_of_ok hst hexec hok
  have hmax := hr.maxLen_le hs
  obtain ⟨x, hx, rfl, hcode⟩ := (hr.matchesAt_iff hs h1 (by omega)).mp hm
  rw [exec_decRdsym_of_code hst hs hr hx (by omega) hb hcode] at hexec
  refine ⟨_, x, h1, hb, hx, (Host.Outcome.next.inj hexec).symm, rfl, hcode, fun j y hj hlt hy hlen hcode' => ?_⟩
  exact hfirst j hj hlt ((hr.matchesAt_iff hs hj (by omega)).mpr ⟨y, hy, hlen, hcode'⟩)

end Sys2Proof.Machine
end

section
/-! DEC.RECON (R172): every table it writes fits its fields, so that the decoder it leaves holds the values the rule computes. -/

namespace Sys2Proof.Machine

open Sys2Proof

/-- A natural that fits reads back from a per-length table as itself (R10). -/
theorem lenEntry_narrow_toNat {w : Nat} {ns : List Nat} {l v : Nat} (h1 : 1 ≤ l) (hv : ns.getD (l - 1) 0 = v)
    (hfits : v < 2 ^ w) : (lenEntry (narrow w ns) l).toNat = v := by
  obtain ⟨l, rfl⟩ := Nat.exists_eq_add_of_le' h1
  subst hv
  exact (congrArg BitVec.toNat (symEntry_narrow w ns l)).trans ((BitVec.toNat_ofNat ..).trans (Nat.mod_eq_of_lt hfits))

/-- Symbols of different lengths are different symbols. -/
theorem sum_count_le_length (lens : List Nat) (ls : Finset Nat) : ∑ l ∈ ls, lens.count l ≤ lens.length :=
  calc ∑ l ∈ ls, lens.count l ≤ ∑ l ∈ ls ∪ lens.toFinset, lens.count l :=
        Finset.sum_le_sum_of_subset Finset.subset_union_left
    _ = lens.length := by
        simpa using Multiset.sum_count_eq_card (s := ls ∪ lens.toFinset) (m := (lens : Multiset Nat)) (by simp +contextual)

theorem symbolsOfLength_eq_nil {lens : List Nat} {n l : Nat} (hle : ∀ m ∈ lens, m ≤ n) (hl : n < l) :
    symbolsOfLength lens l = [] := by
  rw [← List.length_eq_zero_iff, symbolsOfLength_length, List.count_eq_zero]
  exact fun hm => absurd (hle l hm) (by omega)

/-- The sorted symbol list, over the lengths that can occur. -/
theorem sortedSymbols_eq {lens : List Nat} {n : Nat} (hn : n ≤ 63) (hle : ∀ m ∈ lens, m ≤ n) :
    sortedSymbols lens = (List.range' 1 n).flatMap (symbolsOfLength lens) := by
  have hsplit : List.range' 1 63 = List.range' 1 n ++ List.range' (1 + n) (63 - n) := by
    rw [List.range'_append_1, Nat.add_sub_cancel' hn]
  have htail : (List.range' (1 + n) (63 - n)).flatMap (symbolsOfLength lens) = [] := by
    rw [List.flatMap_eq_nil_iff]
    intro l hl
    exact symbolsOfLength_eq_nil hle (by have := (List.mem_range'_1.mp hl).1; omega)
  rw [sortedSymbols, hsplit, List.flatMap_append, htail, List.append_nil]

theorem lt_length_of_mem_sortedSymbols {lens : List Nat} {x : Nat} (h : x ∈ sortedSymbols lens) : x < lens.length := by
  obtain ⟨l, -, hx⟩ := List.mem_flatMap.mp h
  exact (mem_symbolsOfLength.mp hx).1

/-! ### The reconstructed decoder -/

section
variable {p : Params} {u : Decoder}

/-- What DEC.RECON starts from (R172): an open session whose codes are still cleared and whose lengths are not oversubscribed. -/
structure LengthsSession (p : Params) (u : Decoder) : Prop where
  shape : DecShape p u
  cleared : ∀ c ∈ nats u.dCode, c = 0
  fits : kraftSum p.maxCodeBits (nats u.dLen) ≤ 2 ^ p.maxCodeBits

theorem DecSession.lengths (h : DecSession p u) (hst : u.state = .lengths) :
    DecShape p u ∧ ∀ c ∈ nats u.dCode, c = 0 := by
  rwa [DecSession, hst] at h

theorem DecShape.kraftUnits_eq (h : DecShape p u) :
    kraftUnits p.maxCodeBits (u.m.toNat + 1) u.lenOf = kraftSum p.maxCodeBits (nats u.dLen) := by
  rw [← h.nats_length]
  exact kraftUnits_eq_kraftSum _ _ _ fun s _ => u.lenOf_eq s

/-- An alphabet has at most `2^16` symbols (R44). -/
theorem DecShape.nats_length_le (h : DecShape p u) : (nats u.dLen).length ≤ 65536 := by
  have := u.m.isLt
  rw [h.nats_length]
  omega

@[simp] theorem lenOf_reconstructed (u : Decoder) (p : Params) (x : Nat) : (reconstructedDecoder u p).lenOf x = u.lenOf x := rfl
@[simp] theorem m_reconstructed (u : Decoder) (p : Params) : (reconstructedDecoder u p).m = u.m := rfl

namespace LengthsSession
variable (h : LengthsSession p u)
include h

theorem startOf_add_count_le {l : Nat} (h1 : 1 ≤ l) (hl : l ≤ p.maxCodeBits) :
    startOf (nats u.dLen) l + (nats u.dLen).count l ≤ 2 ^ l :=
  Machine.startOf_add_count_le _ _ l h.shape.len_le h.fits h1 hl

/-- The walk of R172 on cleared codes; each code fits its field, as it is below two to its length. -/
theorem codeOf_reconstructed {x : Nat} (hx : x ≤ u.m.toNat) :
    (reconstructedDecoder u p).codeOf x = if lenAt (nats u.dLen) x = 0 then 0 else canonCode (nats u.dLen) x := by
  have hlt : x < (nats u.dLen).length := by rw [h.shape.nats_length]; omega
  have hold : (nats u.dCode).length = (nats u.dLen).length := by
    rw [nats_length, h.shape.code_size, h.shape.nats_length]
  have hzero : (nats u.dCode).getD x 0 = 0 :=
    h.cleared _ (by rw [List.getD_eq_getElem _ _ (hold ▸ hlt)]; exact List.getElem_mem _)
  have hstored : (reconstructedDecoder u p).codeOf x =
      (assignCodes (startCodes (lengthCounts p.maxCodeBits (nats u.dLen))) ((nats u.dLen).zip (nats u.dCode))).1.getD x 0 %
        2 ^ 32 := by
    rw [Decoder.codeOf, reconstructedDecoder, symEntry_narrow, BitVec.toNat_ofNat]
  rw [hstored, assignCodes_startCodes p.maxCodeBits _ _ hold h.shape.len_le hlt, hzero]
  split
  · exact Nat.zero_mod _
  next hused =>
    have hfits : lenAt (nats u.dLen) x ≤ 32 := (h.shape.len_le _ (lenAt_mem hlt)).trans p.le32
    exact Nat.mod_eq_of_lt
      ((canonCode_lt_two_pow h.shape.len_le h.fits hlt hused).trans_le (Nat.pow_le_pow_right (by omega) hfits))

theorem dCount_reconstructed {l : Nat} (h1 : 1 ≤ l) (hl : l ≤ p.maxCodeBits) :
    (lenEntry (reconstructedDecoder u p).dCount l).toNat = (nats u.dLen).count l := by
  have hcount := (List.count_le_length (a := l)).trans h.shape.nats_length_le
  refine lenEntry_narrow_toNat h1 ?_ (by omega)
  rw [lengthCounts_getD _ _ _ (by omega), Nat.sub_add_cancel h1]

theorem first_reconstructed {l : Nat} (h1 : 1 ≤ l) (hl : l ≤ p.maxCodeBits) :
    (lenEntry (reconstructedDecoder u p).first l).toNat = startOf (nats u.dLen) l := by
  have hle := h.startOf_add_count_le h1 hl
  have hpow : 2 ^ l ≤ 2 ^ 32 := Nat.pow_le_pow_right (by omega) (hl.trans p.le32)
  refine lenEntry_narrow_toNat h1 ?_ (by omega)
  rw [startCodes_getD _ _ _ (by omega), Nat.sub_add_cancel h1]

theorem offset_reconstructed {l : Nat} (h1 : 1 ≤ l) (hl : l ≤ p.maxCodeBits) :
    (lenEntry (reconstructedDecoder u p).offset l).toNat = ∑ j ∈ Finset.Ico 1 l, (nats u.dLen).count j := by
  have hsum := (sum_count_le_length (nats u.dLen) (Finset.Ico 1 l)).trans h.shape.nats_length_le
  refine lenEntry_narrow_toNat h1 ?_ (by omega)
  rw [offsets_getD _ _ _ (by omega), Nat.sub_add_cancel h1]

theorem maxLen_reconstructed : (reconstructedDecoder u p).maxLen.toNat = maxLength (nats u.dLen) := by
  have hle : maxLength (nats u.dLen) ≤ p.maxCodeBits := List.max_le_of_forall_le _ _ h.shape.len_le
  have hlt : maxLength (nats u.dLen) < 2 ^ 6 := by have := p.le32; omega
  exact (BitVec.toNat_ofNat ..).trans (Nat.mod_eq_of_lt hlt)

theorem sortedSym_reconstructed :
    nats (reconstructedDecoder u p).sortedSym = (List.range' 1 p.maxCodeBits).flatMap (symbolsOfLength (nats u.dLen)) := by
  have hfits : ∀ x ∈ sortedSymbols (nats u.dLen), x < 2 ^ 16 := fun x hx =>
    (lt_length_of_mem_sortedSymbols hx).trans_le h.shape.nats_length_le
  rw [← sortedSymbols_eq (by have := p.le32; omega) h.shape.len_le]
  exact nats_narrow 16 _ hfits

theorem dCode_reconstructed_length : (reconstructedDecoder u p).dCode.length = u.dCode.length := by
  simp [reconstructedDecoder, h.shape.len_size, h.shape.code_size]

/-- R172, whole. -/
theorem reconstructed : Reconstructed p (reconstructedDecoder u p) where
  kraft := h.shape.kraftUnits_eq.trans_le h.fits
  counts _ := h.dCount_reconstructed
  starts _ := h.first_reconstructed
  offs _ := h.offset_reconstructed
  longest := h.maxLen_reconstructed
  codes x hx hused := by rw [h.codeOf_reconstructed hx, if_neg (u.lenOf_eq x ▸ hused)]; rfl
  unused x hx hz := by rw [h.codeOf_reconstructed hx, if_pos (u.lenOf_eq x ▸ hz)]
  sorted := h.sortedSym_reconstructed

/-- The rest of the session is as it was. -/
theorem shape_reconstructed : DecShape p (reconstructedDecoder u p) where
  len_size := h.shape.len_size
  code_size := h.dCode_reconstructed_length.trans h.shape.code_size
  len_le := h.shape.len_le
  owns := h.shape.owns

end LengthsSession
end

/-! ### The command -/

theorem exec_decRecon_of_oversubscribed {s : State} (hst : s.dec.state = .lengths)
    (hk : 2 ^ s.params.maxCodeBits < kraftSum s.params.maxCodeBits (nats s.dec.dLen)) :
    exec .decRecon s = .next (s.raise .invalidCodeLengths) := by
  simp [exec, execDecRecon, hst, oversubscribed, hk]

theorem exec_decRecon_of_fits {s : State} (hst : s.dec.state = .lengths)
    (hk : kraftSum s.params.maxCodeBits (nats s.dec.dLen) ≤ 2 ^ s.params.maxCodeBits) :
    exec .decRecon s = .next ((s.setDec (reconstructedDecoder s.dec s.params)).respond .ok 0) := by
  simp [exec, execDecRecon, hst, oversubscribed, Nat.not_lt.mpr hk]

/-- Settles O23: the Kraft check, and else the tables of R172. -/
theorem decReconFollowsItsRule : Obligations.DecReconFollowsItsRule := by
  refine ⟨decode_assembledWord .decRecon (by decide) (by decide), fun s => ⟨fun hst => ?_, fun hst hinv => ?_⟩⟩
  · simp [exec, execDecRecon, hst]
  obtain ⟨hshape, hcleared⟩ := hinv.lengths hst
  rw [hshape.kraftUnits_eq]
  refine ⟨exec_decRecon_of_oversubscribed hst, fun hk => ?_⟩
  have h : LengthsSession s.params s.dec := ⟨hshape, hcleared, hk⟩
  refine ⟨reconstructedDecoder s.dec s.params, exec_decRecon_of_fits hst hk, rfl, rfl, rfl, rfl, h.dCode_reconstructed_length,
    h.reconstructed, fun l h1 hl => ?_⟩
  rw [h.first_reconstructed h1 hl, h.dCount_reconstructed h1 hl]
  have hle := h.startOf_add_count_le h1 hl
  exact ⟨by omega, fun _ => hle⟩

end Sys2Proof.Machine
end

section
/-! The decoder's other commands (R170, R171, R174, R175, R178 to R183): what each does in each of its cases. -/

namespace Sys2Proof.Machine

open Sys2Proof

/-! ### DEC.INIT (R170) -/

theorem decInitCheck_of_not_released {s : State} (h : s.dec.state ≠ .released) (m : Nat) :
    decInitCheck s m = some .sequenceError := by
  simp [decInitCheck, h]

theorem decInitCheck_of_large {s : State} {m : Nat} (hst : s.dec.state = .released) (h : 65535 < m) :
    decInitCheck s m = some .invalidConfiguration := by
  simp [decInitCheck, hst, Config.maxEntryCnt, h]

theorem exec_decInit_of_failed {s : State} {m : Nat} {st : Status} (h : decInitCheck s m = some st) :
    exec (.decInit m) s = .next (s.raise st) := by
  simp [exec, execDecInit, h]

theorem exec_decInit_of_denied {s : State} {m : Nat} (h : decInitCheck s m = none) (hg : s.arenaAnswer = false) :
    exec (.decInit m) s =
      .next ((s.exchange (.arenaRequest .hdec (decBuffers s.params m) false)).raise .outOfMemory) := by
  simp [exec, execDecInit, h, decRequest, hg]

theorem exec_decInit_of_granted {s : State} {m : Nat} (h : decInitCheck s m = none) (hg : s.arenaAnswer = true) :
    exec (.decInit m) s =
      .next (((s.exchange (.arenaRequest .hdec (decBuffers s.params m) true)).setDec
        (openedDecoder s.dec s.params m)).respond .ok 0) := by
  simp [exec, execDecInit, h, decRequest, hg]

/-- Settles O21: the checks of R170 in order, then the arena's answer. `DEC_M` holds every value that passes the checks. -/
theorem decInitFollowsItsRule : Obligations.DecInitFollowsItsRule := by
  refine ⟨fun m hm => decode_assembledWord (.decInit m) hm (Nat.two_pow_pos 32), fun m s => ⟨fun hst => ?_, fun hst hm => ?_,
    fun hst hm => ?_⟩⟩
  · exact exec_decInit_of_failed (decInitCheck_of_not_released hst m)
  · exact exec_decInit_of_failed (decInitCheck_of_large hst hm)
  · have hc : decInitCheck s m = none := decInitCheck_none.mpr ⟨hst, hm⟩
    have hm16 : (openedDecoder s.dec s.params m).m.toNat = m := (BitVec.toNat_ofNat ..).trans (Nat.mod_eq_of_lt (by omega))
    exact ⟨exec_decInit_of_denied hc, fun hg => ⟨openedDecoder s.dec s.params m, exec_decInit_of_granted hc hg, rfl, hm16,
      rfl, rfl, rfl, rfl, rfl, rfl, rfl, rfl⟩⟩

/-! ### DEC.SETLEN (R171) -/

theorem decSymbolOk_eq_true {u : Decoder} {x : Nat} : decSymbolOk u x = true ↔ x ≤ u.m.toNat := by
  simp [decSymbolOk]

theorem decSymbolOk_eq_false {u : Decoder} {x : Nat} : decSymbolOk u x = false ↔ u.m.toNat < x := by
  simp [decSymbolOk]

theorem exec_decSetlen_of_ok {s : State} {sym l : Nat} (hst : s.dec.state = .lengths) (hsym : sym ≤ s.dec.m.toNat)
    (hl : l ≤ s.params.maxCodeBits) :
    exec (.decSetlen sym l) s =
      .next ((s.setDec { s.dec with dLen := s.dec.dLen.set sym (BitVec.ofNat 6 l) }).respond .ok 0) := by
  simp [exec, execDecSetlen, hst, decSymbolOk_eq_true.mpr hsym, Nat.not_lt.mpr hl]

/-- Settles O22: the state, the symbol, the length, and else one entry of `DLen` written. -/
theorem decSetlenFollowsItsRule : Obligations.DecSetlenFollowsItsRule := by
  refine ⟨fun sym l hs hl => decode_assembledWord (.decSetlen sym l) hs hl, fun sym l s => ⟨fun hst => ?_,
    fun hst hsym => ?_, fun hst hsym hl => ?_, fun hst hlen hsym hl => ?_⟩⟩
  · simp [exec, execDecSetlen, hst]
  · simp [exec, execDecSetlen, hst, decSymbolOk_eq_false.mpr hsym]
  · simp [exec, execDecSetlen, hst, decSymbolOk_eq_true.mpr hsym, hl]
  · have hset := fun x => symEntry_set s.dec.dLen sym (BitVec.ofNat 6 l) x (by omega)
    have hl32 := s.params.le32
    refine ⟨s.dec.dLen.set sym (BitVec.ofNat 6 l), exec_decSetlen_of_ok hst hsym hl, List.length_set, ?_, fun x hx => ?_⟩
    · rw [hset, if_pos rfl, BitVec.toNat_ofNat, Nat.mod_eq_of_lt (by omega)]
    · rw [hset, if_neg hx]

/-! ### DEC.SYNC and DEC.EXIT (R174, R175) -/

/-- Settles O25: the state, then one align request and the response OK, whose word is 0. -/
theorem decSyncFollowsItsRule : Obligations.DecSyncFollowsItsRule := by
  have hword : rspWord .ok 0#32 = 0#64 := by decide
  refine ⟨decode_assembledWord .decSync (by decide) (by decide), fun s => ⟨fun hst => ?_, fun hst => ?_, fun hst => ?_⟩⟩
  · simp [exec, execDecSync, hst]
  · rcases hst with hst | hst <;> simp [exec, execDecSync, hst]
  · simp [exec, execDecSync, hst, respond_eq, State.exchange, State.emit, hword]

/-- Settles O26: a no-op in RELEASED, else the release and the freed unit. -/
theorem decExitFollowsItsRule : Obligations.DecExitFollowsItsRule := by
  refine ⟨decode_assembledWord .decExit (by decide) (by decide), fun s => ⟨fun hst => ?_, fun hst => ?_⟩⟩
  · simp [exec, execDecExit, hst]
  · exact ⟨freedDecoder s.params s.draws, rfl, rfl, by simp [exec, execDecExit, hst]⟩

/-! ### The read-outs (R178 to R183) -/

theorem reconstructed_eq_true {u : Decoder} : reconstructed u = true ↔ u.state = .ready ∨ u.state = .failed := by
  simp [reconstructed]

theorem reconstructed_eq_false {u : Decoder} : reconstructed u = false ↔ u.state = .released ∨ u.state = .lengths := by
  cases h : u.state <;> simp [reconstructed, h]

theorem stepLenOk_eq_true {u : Decoder} {l : Nat} : stepLenOk u l = true ↔ 1 ≤ l ∧ l ≤ u.maxLen.toNat := by
  simp [stepLenOk]

theorem stepLenOk_eq_false {u : Decoder} {l : Nat} : stepLenOk u l = false ↔ l < 1 ∨ u.maxLen.toNat < l := by
  rw [← Bool.not_eq_true, stepLenOk_eq_true]
  omega

theorem maxLength_mem {lens : List Nat} (h : maxLength lens ≠ 0) : maxLength lens ∈ lens := by
  induction lens with
  | nil => exact absurd rfl h
  | cons l ls ih =>
    rw [maxLength, List.foldr_cons] at h ⊢
    rcases max_choice l (maxLength ls) with hmax | hmax <;> rw [maxLength] at hmax <;> rw [hmax] at h ⊢
    · exact List.mem_cons_self ..
    · exact List.mem_cons_of_mem _ (ih h)

/-- Up to the longest length, the codes of a length leave room for one more symbol: that length's own, or a longer one's (R182). -/
theorem startOf_lt_two_pow {lens : List Nat} {n l : Nat} (hle : ∀ m ∈ lens, m ≤ n) (hk : kraftSum n lens ≤ 2 ^ n)
    (h1 : 1 ≤ l) (hl : l ≤ maxLength lens) : startOf lens l < 2 ^ l := by
  have hmem : maxLength lens ∈ lens := maxLength_mem (by omega)
  have hcount : 0 < lens.count (maxLength lens) := List.count_pos_iff.mpr hmem
  have hlast := startOf_add_count_le lens n (maxLength lens) hle hk (by omega) (hle _ hmem)
  rcases hl.eq_or_lt with rfl | hlt
  · omega
  · have hend := startOf_end_mul_le lens (by omega : l ≠ 0) hlt
    have hpow : 2 ^ maxLength lens = 2 ^ l * 2 ^ (maxLength lens - l) := by rw [← Nat.pow_add, Nat.add_sub_cancel' hl]
    have hroom : (startOf lens l + lens.count l) * 2 ^ (maxLength lens - l) < 2 ^ l * 2 ^ (maxLength lens - l) := by omega
    have := Nat.lt_of_mul_lt_mul_right hroom
    omega

/-- R49, R182: the value of `DEC.RDFIRST` fits its length. -/
theorem Reconstructed.first_lt {p : Params} {u : Decoder} (hs : DecShape p u) (hr : Reconstructed p u) {l : Nat} (h1 : 1 ≤ l)
    (hl : l ≤ u.maxLen.toNat) : (lenEntry u.first l).toNat < 2 ^ l := by
  have hmax := hr.maxLen_le hs
  rw [hr.starts l h1 (by omega)]
  rw [hr.longest] at hl
  exact startOf_lt_two_pow hs.len_le (hr.kraftSum_le hs) h1 hl

/-- Settles O27: each read-out's state check, then its index check, then its entry. -/
theorem decoderReadOutsFollowTheirRules : Obligations.DecoderReadOutsFollowTheirRules := by
  have hb : 0 < 2 ^ 32 := by decide
  refine ⟨fun a ha => ⟨decode_assembledWord (.decRdlen a) ha hb, decode_assembledWord (.decRdcode a) ha hb,
      decode_assembledWord (.decRdcnt a) ha hb, decode_assembledWord (.decRdfirst a) ha hb,
      decode_assembledWord (.decRdoffset a) ha hb⟩, decode_assembledWord .decRdmaxlen (by decide) hb,
    fun a s => ⟨fun hst => ?_, fun hst ha => ?_, fun hst ha => ?_, fun hst => ?_, fun hst => ?_⟩⟩
  · simp [exec, execDecRdlen, hst]
  · simp [exec, execDecRdlen, hst, decSymbolOk_eq_false.mpr ha]
  · simp [exec, execDecRdlen, hst, decSymbolOk_eq_true.mpr ha, Decoder.lenOf]
  · have hrec := reconstructed_eq_false.mpr hst
    refine ⟨?_, ?_, ?_, ?_, ?_⟩
    · simp [exec, execDecRdcode, hrec]
    · simp [exec, execDecRdcnt, hrec]
    · simp [exec, execDecRdmaxlen, hrec]
    · simp [exec, execDecRdfirst, hrec]
    · simp [exec, execDecRdoffset, hrec]
  · have hrec := reconstructed_eq_true.mpr hst
    refine ⟨fun ha => ?_, fun ha => ?_, fun ha => ?_, fun h1 ha => ?_, ?_, fun ha => ⟨?_, ?_⟩,
      fun h1 ha => ⟨?_, ?_, fun hinv => ?_⟩⟩
    · simp [exec, execDecRdcode, hrec, decSymbolOk_eq_false.mpr ha]
    · simp [exec, execDecRdcode, hrec, decSymbolOk_eq_true.mpr ha, Decoder.codeOf]
    · simp [exec, execDecRdcnt, hrec, countLenOk_eq_false.mpr ha]
    · simp [exec, execDecRdcnt, hrec, countLenOk_eq_true.mpr ⟨h1, ha⟩]
    · simp [exec, execDecRdmaxlen, hrec]
    · simp [exec, execDecRdfirst, hrec, stepLenOk_eq_false.mpr ha]
    · simp [exec, execDecRdoffset, hrec, stepLenOk_eq_false.mpr ha]
    · simp [exec, execDecRdfirst, hrec, stepLenOk_eq_true.mpr ⟨h1, ha⟩]
    · simp [exec, execDecRdoffset, hrec, stepLenOk_eq_true.mpr ⟨h1, ha⟩]
    · obtain ⟨hs, hr⟩ := hinv.reconstructed hst
      exact hr.first_lt hs h1 ha

end Sys2Proof.Machine
end

section
/-! The encoder's length table through a decoder (R185): the DEC.SETLENs write it whole, DEC.RECON accepts it as the encoder's codes are not
oversubscribed, and the bits of a code decode to its symbol. -/

namespace Sys2Proof.Machine

open Sys2Proof

/-! ### Running the DEC.SETLENs -/

theorem runCommands_cons {i : Instr} {s t : State} (h : exec i s = .next t) (is : List Instr) :
    runCommands (i :: is) s = runCommands is t := by
  rw [runCommands, h]

theorem runCommands_append {as : List Instr} {s t : State} (h : runCommands as s = some t) (bs : List Instr) :
    runCommands (as ++ bs) s = runCommands bs t := by
  induction as generalizing s with
  | nil => rw [List.nil_append, Option.some.inj h]
  | cons i as ih =>
    cases he : exec i s with
    | next s' =>
      rw [runCommands_cons he] at h
      rw [List.cons_append, runCommands_cons he, ih h]
    | fault f => simp [runCommands, he] at h
    | refused r => simp [runCommands, he] at h

/-- From symbol `i` to the last, the DEC.SETLENs write the rest of `DLen` and change nothing else in the decoder (R99, R171). -/
theorem runCommands_decSetlens (ls : List Nat) (i : Nat) (s : State) (hst : s.dec.state = .lengths)
    (hsize : s.dec.dLen.length = s.dec.m.toNat + 1) (hi : i + ls.length = s.dec.m.toNat + 1)
    (hle : ∀ l ∈ ls, l ≤ s.params.maxCodeBits) :
    ∃ t, runCommands (decSetlensFrom i ls) s = some t ∧ t.params = s.params ∧
      t.dec = { s.dec with dLen := s.dec.dLen.take i ++ narrow 6 ls } := by
  induction ls generalizing i s with
  | nil =>
    have htake : s.dec.dLen.take i = s.dec.dLen := List.take_of_length_le (by simp at hi; omega)
    exact ⟨s, rfl, rfl, by rw [htake]; simp [narrow]⟩
  | cons l ls ih =>
    rw [List.length_cons] at hi
    have hexec := exec_decSetlen_of_ok (sym := i) hst (by omega) (hle l (List.mem_cons_self ..))
    obtain ⟨t, hrun, hparams, hdec⟩ := ih (i + 1)
      ((s.setDec { s.dec with dLen := s.dec.dLen.set i (BitVec.ofNat 6 l) }).respond .ok 0) hst
      (List.length_set.trans hsize) (show i + 1 + ls.length = s.dec.m.toNat + 1 by omega) fun l' hl' => hle l' (List.mem_cons_of_mem _ hl')
    refine ⟨t, (runCommands_cons hexec _).trans hrun, hparams, hdec.trans ?_⟩
    have htake : (s.dec.dLen.set i (BitVec.ofNat 6 l)).take (i + 1) = s.dec.dLen.take i ++ [BitVec.ofNat 6 l] := by
      rw [← List.take_concat_get' _ i (by rw [List.length_set]; omega), List.take_set_of_le le_rfl,
        List.getElem_set_self]
    simp [htake, narrow]

/-- A table narrowed to its own width is itself. -/
theorem narrow_nats {w : Nat} (t : List (BitVec w)) : narrow w (nats t) = t := by
  simp [narrow, nats, Function.comp_def]

/-! ### The bits of a code (R76) -/

@[simp] theorem bitsOfCode_length (len code : Nat) : (bitsOfCode len code).length = len := by simp [bitsOfCode]

/-- The last bit of a code is its low one. -/
theorem bitsOfCode_succ (len code : Nat) :
    bitsOfCode (len + 1) code = bitsOfCode len (code / 2) ++ [code.testBit 0] := by
  have hbit : ∀ i ∈ List.range len, code.testBit (len - i) = (code / 2).testBit (len - 1 - i) := fun i hi => by
    have hlt := List.mem_range.mp hi
    rw [← Nat.testBit_succ]
    congr 1
    omega
  rw [bitsOfCode, List.range_succ, List.map_append, bitsOfCode]
  simpa using hbit

theorem bitsValue_bitsOfCode {len code : Nat} (h : code < 2 ^ len) : bitsValue (bitsOfCode len code) = code := by
  induction len generalizing code with
  | zero => rw [Nat.lt_one_iff.mp h]; rfl
  | succ len ih =>
    have hlow : (code.testBit 0).toNat = code % 2 := by
      rcases Nat.mod_two_eq_zero_or_one code with h0 | h0 <;> simp [Nat.testBit_zero, h0]
    rw [bitsOfCode_succ, bitsValue_concat, ih (by omega), hlow]
    omega

/-! ### The round trip -/

/-- The Kraft sum in a finer unit (R8). -/
theorem kraftUnits_mul {k n p : Nat} {len : Nat → Nat} (hlen : ∀ x, x < n → len x ≤ k) (hk : k ≤ p) :
    kraftUnits p n len = kraftUnits k n len * 2 ^ (p - k) := by
  rw [kraftUnits, kraftUnits, Finset.sum_mul]
  refine Finset.sum_congr rfl fun x hx => ?_
  have hle := hlen x (Finset.mem_range.mp hx)
  split
  · exact (Nat.zero_mul _).symm
  · rw [← Nat.pow_add]
    congr 1
    omega

section
variable {p : Params} {v : Encoder} (hv : EncShape p v) (hl : CodedLaws p v)
include hv hl

theorem CodedLaws.lengths_le : ∀ l ∈ nats v.codeSize, l ≤ p.maxCodeBits := by
  intro l hmem
  obtain ⟨x, hx, rfl⟩ := List.mem_iff_getElem.mp hmem
  have hlen := hl.len_le x (by rwa [nats_length, hv.size_size] at hx)
  rw [Encoder.lenOf_eq, lenAt_eq_getElem hx] at hlen
  exact hlen.trans hv.k_le

/-- R52 limits the code space in units of `ENC_K`, R172 in units of `MAX_CODE_BITS`. -/
theorem CodedLaws.kraftSum_le : kraftSum p.maxCodeBits (nats v.codeSize) ≤ 2 ^ p.maxCodeBits :=
  calc kraftSum p.maxCodeBits (nats v.codeSize)
      = kraftUnits p.maxCodeBits v.e.toNat v.lenOf := by
        rw [← hv.size_size, ← nats_length v.codeSize]
        exact (kraftUnits_eq_kraftSum _ _ _ fun x _ => v.lenOf_eq x).symm
    _ = kraftUnits v.k.toNat v.e.toNat v.lenOf * 2 ^ (p.maxCodeBits - v.k.toNat) := kraftUnits_mul hl.len_le hv.k_le
    _ ≤ 2 ^ v.k.toNat * 2 ^ (p.maxCodeBits - v.k.toNat) := Nat.mul_le_mul_right _ hl.kraft_le
    _ = 2 ^ p.maxCodeBits := by rw [← Nat.pow_add, Nat.add_sub_cancel' hv.k_le]

/-- A decoder session of the encoder's alphabet, with the encoder's lengths in it, is one that DEC.RECON accepts. -/
theorem CodedLaws.lengthsSession {u : Decoder} (hs : DecShape p u) (hclear : ∀ c ∈ nats u.dCode, c = 0)
    (hm : u.m.toNat + 1 = v.e.toNat) : LengthsSession p { u with dLen := v.codeSize } where
  shape := ⟨hv.size_size.trans hm.symm, hs.code_size, hl.lengths_le hv, hs.owns⟩
  cleared := hclear
  fits := hl.kraftSum_le hv

end

/-- R185, the decoder's half: the bits of a used symbol's code, first in the stream, yield that symbol. -/
theorem exec_decRdsym_of_bitsOfCode {r : State} (hst : r.dec.state = .ready) (hs : DecShape r.params r.dec)
    (hr : Reconstructed r.params r.dec) {x : Nat} {rest : List Bool} (hx : x ≤ r.dec.m.toNat) (hused : r.dec.lenOf x ≠ 0)
    (hbits : r.bitIO.bits = bitsOfCode (r.dec.lenOf x) (r.dec.codeOf x) ++ rest) :
    exec .decRdsym r = .next ((r.consumed (r.dec.lenOf x)).respond .ok (BitVec.ofNat 32 x)) := by
  have htake : r.bitIO.bits.take (r.dec.lenOf x) = bitsOfCode (r.dec.lenOf x) (r.dec.codeOf x) := by
    rw [hbits, List.take_left' (bitsOfCode_length ..)]
  refine exec_decRdsym_of_code hst hs hr hx hused (by simp [hbits]) ?_
  rw [htake, bitsValue_bitsOfCode (hr.codeOf_lt hs x hx hused)]

/-- Settles O30: the lengths arrive whole, the two units give a length table the same codes, and the decoder finds the code it reads. -/
theorem encoderAndDecoderRoundTrip : Obligations.EncoderAndDecoderRoundTrip := by
  intro v s hv hl hst hinv hm
  obtain ⟨hshape, hclear⟩ := hinv.lengths hst
  obtain ⟨s₁, hrun, hparams, hdec⟩ := runCommands_decSetlens (nats v.codeSize) 0 s hst hshape.len_size
    (by rw [nats_length, hv.size_size]; omega) (hl.lengths_le hv)
  rw [List.take_zero, List.nil_append, narrow_nats] at hdec
  have hst₁ : s₁.dec.state = .lengths := by rw [hdec]; exact hst
  have hm₁ : s₁.dec.m.toNat + 1 = v.e.toNat := by rw [hdec]; exact hm
  have htab : v.codeSize = s₁.dec.dLen := by rw [hdec]
  have h : LengthsSession s₁.params s₁.dec := by
    rw [hparams, hdec]
    exact hl.lengthsSession hv hshape hclear hm
  have hlen : ∀ x, (reconstructedDecoder s₁.dec s₁.params).lenOf x = v.lenOf x := fun x => by
    rw [lenOf_reconstructed, Decoder.lenOf, ← htab, Encoder.lenOf]
  have hcode : ∀ x, x < v.e.toNat → v.lenOf x ≠ 0 → (reconstructedDecoder s₁.dec s₁.params).codeOf x = v.codeOf x := by
    intro x hx hused
    refine h.reconstructed.codeOf_eq_encoder h.shape_reconstructed (hparams ▸ hv) (hparams ▸ hl) htab x ?_ (hlen x ▸ hused)
    rw [m_reconstructed]
    omega
  refine ⟨_, (runCommands_append hrun _).trans (runCommands_cons (exec_decRecon_of_fits hst₁ h.fits) []),
    lastStatus_respond .ok 0 _, rfl, hcode, fun r x rest hrdec hrparams hx hused hbits => ?_⟩
  simp only [State.respond_dec, State.setDec_dec, State.respond_params, State.setDec_params] at hrdec hrparams
  rw [← hlen x] at hused hbits ⊢
  rw [← hcode x hx (hlen x ▸ hused)] at hbits
  rw [← hrdec] at hused hbits ⊢
  refine exec_decRdsym_of_bitsOfCode ?_ ?_ ?_ ?_ hused hbits
  · rw [hrdec]; rfl
  · rw [hrdec, hrparams]; exact h.shape_reconstructed
  · rw [hrdec, hrparams]; exact h.reconstructed
  · rw [hrdec, m_reconstructed]; omega

end Sys2Proof.Machine
end

section
/-! The exceptions of the block (R223, R225): how far a command reaches, and what is left behind when it fails. -/

namespace Sys2Proof.Machine

open Sys2Proof

/-! ### What a command leaves alone (R225) -/

section
variable {i : Instr} {s t : State}

theorem ExecCase.params_eq (h : ExecCase s i t) : t.params = s.params := by
  cases h <;> simp [State.failStream]

theorem ExecCase.host_eq (h : ExecCase s i t) : t.host = s.host := by
  cases h <;> simp [State.failStream]

/-- An encoder command writes HENC and asks the arena: neither HDEC nor the bit source is in its reach. -/
theorem ExecCase.encoder_frame (h : ExecCase s i t) (henc : isEncoderCommand i = true) :
    t.dec = s.dec ∧ t.bitIO = s.bitIO := by
  cases h with
  | failed | readOut | counted | created | encIdle | encExited => exact ⟨rfl, rfl⟩
  | encDenied | encOpened => simp [encRequest]
  | decDenied | decOpened | lengthSet | rebuilt | decoded | corrupted | synced | decIdle | decExited => nomatch henc

/-- A decoder command writes HDEC and asks the collaborators: HENC is out of its reach. -/
theorem ExecCase.decoder_frame (h : ExecCase s i t) (hdec : isEncoderCommand i = false) : t.enc = s.enc := by
  cases h with
  | failed | readOut | lengthSet | rebuilt | decIdle => rfl
  | decDenied | decOpened | decoded | synced | decExited => simp
  | corrupted => simp [State.failStream]
  | encDenied | encOpened | counted | created | encIdle | encExited => nomatch hdec

end

/-- A step of block `n` writes place `n` of the list alone (R83). -/
theorem System.stepAt_getElem?_of_ne {n k : Nat} {sys sys' : System} (h : sys.stepAt n = .next sys') (hk : k ≠ n) :
    sys'.blocks[k]? = sys.blocks[k]? := by
  rcases System.stepAt_cases h with ⟨-, rfl⟩ | ⟨s, t, -, -, hset⟩
  · rfl
  · rw [hset, List.getElem?_set_ne hk.symm]

/-- Settles O37: the frames of the two units' commands, and the one place of the list a step of a system writes. -/
theorem unitsAndInstancesAreIsolated : Obligations.UnitsAndInstancesAreIsolated := by
  refine ⟨fun i s t h => ?_, fun n k sys sys' => System.stepAt_getElem?_of_ne⟩
  have hcase := exec_cases h
  exact ⟨hcase.encoder_frame, hcase.decoder_frame, hcase.params_eq, hcase.host_eq⟩

/-! ### Failures (R223) -/

theorem exec_encExit_ok (s : State) : ∃ s' : State, exec .encExit s = .next (s'.respond .ok 0) := by
  obtain ⟨-, hrule⟩ := encExitFollowsItsRule
  by_cases hst : s.enc.state = .released
  · exact ⟨_, (hrule s).1 hst⟩
  · obtain ⟨u, -, -, hexec⟩ := (hrule s).2 hst
    exact ⟨_, hexec⟩

theorem exec_decExit_ok (s : State) : ∃ s' : State, exec .decExit s = .next (s'.respond .ok 0) := by
  obtain ⟨-, hrule⟩ := decExitFollowsItsRule
  by_cases hst : s.dec.state = .released
  · exact ⟨_, (hrule s).1 hst⟩
  · obtain ⟨u, -, -, hexec⟩ := (hrule s).2 hst
    exact ⟨_, hexec⟩

/-- "ENC.EXIT and DEC.EXIT never fail" (R223). -/
theorem lastStatus_of_exit {i : Instr} {s t : State} (hexit : i = .encExit ∨ i = .decExit) (h : exec i s = .next t) :
    lastStatus t = some 0 := by
  obtain ⟨s', hok⟩ : ∃ s' : State, exec i s = .next (s'.respond .ok 0) := by
    rcases hexit with rfl | rfl
    · exact exec_encExit_ok s
    · exact exec_decExit_ok s
  cases h.symm.trans hok
  exact lastStatus_respond .ok 0 s'

/-- The reads of a `DEC.RDSYM` leave HDEC as it was, so entering FAILED changes its state alone (R173). -/
theorem failStream_exchanges (evs : List PortEvent) (s : State) :
    (s.exchanges evs).failStream =
      ((s.exchanges evs).setDec { s.dec with state := .failed }).raise .streamCorruption := by
  rw [State.failStream, exchanges_dec]

/-- Settles O38: of the next states of a command, those whose status is not OK are the raised ones, the corrupted stream and the denied INITs. -/
theorem failuresArePrecise : Obligations.FailuresArePrecise := by
  intro i s t h hfail
  refine ⟨fun hi => hfail (lastStatus_of_exit (.inl hi) h), fun hi => hfail (lastStatus_of_exit (.inr hi) h), ?_⟩
  cases exec_cases h with
  | failed _ st => exact .inl ⟨st, rfl⟩
  | corrupted ready =>
    refine .inr (.inl ⟨rfl, ready, ?_⟩)
    rw [failStream_exchanges, requestsOf, if_pos ready]
  | encDenied e k _ answer => exact .inr (.inr (.inl ⟨e, k, rfl, by rw [encRequest, answer]⟩))
  | decDenied m _ answer => exact .inr (.inr (.inr ⟨m, rfl, by rw [decRequest, answer]⟩))
  | readOut | encOpened | counted | created | encIdle | encExited | decOpened | lengthSet | rebuilt | decoded | synced
  | decIdle | decExited => exact absurd (lastStatus_respond .ok _ _) hfail

end Sys2Proof.Machine
end

section
/-! The reset input of the block (R250, R251): what is left of the two units, and that nothing else is touched. -/

namespace Sys2Proof.Machine

open Sys2Proof

theorem popHost_of_host_cons {s : State} {ev : HostEvent} {rest : List HostEvent} (h : s.host = ev :: rest) :
    s.popHost = { s with host := rest } := by
  rw [State.popHost, h, List.tail_cons]

/-- A step takes the host's oldest action (R32). -/
theorem step_of_host_cons {s : State} {ev : HostEvent} {rest : List HostEvent} (h : s.host = ev :: rest) :
    step s = runEvent ev { s with host := rest } := by
  rw [← popHost_of_host_cons h]
  simp only [step, h]

/-- The reset input replaces the two units and draws one free value: ports and collaborators are out of its reach (R250). -/
theorem blockReset_eq (s : State) :
    s.blockReset =
      { s with enc := freedEncoder s.params s.draws, dec := freedDecoder s.params s.draws, draws := s.draws + 1 } := rfl

/-- Settles O42: the units after the reset input are the freed ones, RELEASED and owning no buffer. -/
theorem resetReleasesBothUnits : Obligations.ResetReleasesBothUnits := by
  intro s rest hhost
  refine ⟨freedEncoder s.params s.draws, freedDecoder s.params s.draws, rfl, rfl, rfl, rfl, ?_⟩
  rw [step_of_host_cons hhost, runEvent, blockReset_eq]

end Sys2Proof.Machine
end

section
/-! Package-merge is limited, complete and optimal (R132). The idea of the last: lengths `g` choose, for each symbol, one leaf in each of the `g` last rounds. What they choose
in the last round is no lighter than as many of the lightest leaves, and what they choose before it is, by induction, no lighter than the lightest
packages of the same worth. -/

namespace Sys2Proof.Machine

open Sys2Proof

/-! ### The lightest items come first -/

/-- The weight of a list of items. -/
def totalWeight (items : List PmItem) : Nat := (items.map PmItem.w).sum

/-- "Ascending by w" (R130). -/
def Ascending (items : List PmItem) : Prop := items.Pairwise (fun x y => x.w ≤ y.w)

theorem totalWeight_append (xs ys : List PmItem) : totalWeight (xs ++ ys) = totalWeight xs + totalWeight ys := by
  simp [totalWeight]

theorem totalWeight_perm {xs ys : List PmItem} (h : xs.Perm ys) : totalWeight xs = totalWeight ys :=
  (h.map PmItem.w).sum_eq

/-- An item no heavier than any of `zs` weighs no more than one more of them. -/
theorem weight_add_take_le {x : PmItem} {zs : List PmItem} (hx : ∀ z ∈ zs, x.w ≤ z.w) {c : Nat} (hc : c < zs.length) :
    x.w + totalWeight (zs.take c) ≤ totalWeight (zs.take (c + 1)) := by
  rw [← List.take_concat_get' zs c hc, totalWeight_append, Nat.add_comm]
  exact Nat.add_le_add_left (by simpa [totalWeight] using hx _ (List.getElem_mem hc)) _

/-- No `c` items of an ascending list are lighter than its first `c`. -/
theorem totalWeight_take_le {zs items : List PmItem} (hz : Ascending zs) (h : items.Subperm zs) {c : Nat}
    (hc : c ≤ items.length) : totalWeight (zs.take c) ≤ totalWeight items := by
  obtain ⟨picked, hperm, hsub⟩ := h
  rw [← totalWeight_perm hperm]
  rw [← hperm.length_eq] at hc
  clear hperm
  induction hsub generalizing c with
  | slnil => simp [totalWeight]
  | @cons picked zs z hsub ih =>
    cases c with
    | zero => exact Nat.zero_le _
    | succ c =>
      have hlen := hsub.length_le
      exact (weight_add_take_le (fun _ => List.rel_of_pairwise_cons hz) (by omega)).trans (ih hz.of_cons hc)
  | @cons_cons picked zs z hsub ih =>
    cases c with
    | zero => exact Nat.zero_le _
    | succ c =>
      have hrest := ih hz.of_cons (Nat.le_of_succ_le_succ hc)
      simpa [totalWeight] using hrest

/-- A package is made of two items. -/
theorem exists_of_mem_pairUp {p : PmItem} : ∀ {cur : List PmItem}, p ∈ pairUp cur →
    ∃ x ∈ cur, ∃ y ∈ cur, p = ⟨x.w + y.w, x.syms ++ y.syms⟩
  | [], h => by simp at h
  | [_], h => by simp at h
  | x :: y :: rest, h => by
    rw [pairUp_cons_cons] at h
    rcases List.mem_cons.mp h with rfl | h
    · exact ⟨x, by simp, y, by simp, rfl⟩
    · obtain ⟨x', hx', y', hy', rfl⟩ := exists_of_mem_pairUp h
      exact ⟨x', by simp [hx'], y', by simp [hy'], rfl⟩

/-- The packages of an ascending list are ascending. -/
theorem Ascending.pairUp : ∀ {cur : List PmItem}, Ascending cur → Ascending (pairUp cur)
  | [], _ => by simp [Ascending]
  | [_], _ => by simp [Ascending]
  | x :: y :: rest, h => by
    have hxy := List.rel_of_pairwise_cons h (List.mem_cons_self ..)
    rw [pairUp_cons_cons]
    refine List.pairwise_cons.mpr ⟨fun p hp => ?_, Ascending.pairUp h.of_cons.of_cons⟩
    obtain ⟨x', hx', y', hy', rfl⟩ := exists_of_mem_pairUp hp
    have hyx' := List.rel_of_pairwise_cons h.of_cons hx'
    have hyy' := List.rel_of_pairwise_cons h.of_cons hy'
    show x.w + y.w ≤ x'.w + y'.w
    omega

theorem ascending_mergeItems {xs ys : List PmItem} (hx : Ascending xs) (hy : Ascending ys) : Ascending (mergeItems xs ys) := by
  rw [mergeItems_eq_merge]
  have h := List.pairwise_merge (le := fun x y : PmItem => decide (x.w ≤ y.w)) (by simp; omega) (by simp; omega) xs ys
    (by simpa [Ascending] using hx) (by simpa [Ascending] using hy)
  simpa [Ascending] using h

/-- The first `c` items of a merge are no heavier than first items of the two lists, `c` or more in all. -/
theorem totalWeight_take_mergeItems_le {xs ys : List PmItem} (hx : Ascending xs) (hy : Ascending ys) {a b c : Nat}
    (ha : a ≤ xs.length) (hb : b ≤ ys.length) (hc : c ≤ a + b) :
    totalWeight ((mergeItems xs ys).take c) ≤ totalWeight (xs.take a) + totalWeight (ys.take b) := by
  rw [← totalWeight_append]
  refine totalWeight_take_le (ascending_mergeItems hx hy) ?_ (by simp; omega)
  rw [mergeItems_eq_merge]
  exact ((List.take_sublist a xs).append (List.take_sublist b ys)).subperm.trans (List.merge_perm_append ..).symm.subperm

/-- The first `b` packages weigh what the first `2b` items weigh. -/
theorem totalWeight_take_pairUp : ∀ (cur : List PmItem) (b : Nat), 2 * b ≤ cur.length →
    totalWeight ((pairUp cur).take b) = totalWeight (cur.take (2 * b))
  | _, 0, _ => rfl
  | [], b + 1, hb => by simp at hb
  | [_], b + 1, hb => by simp at hb; omega
  | x :: y :: rest, b + 1, hb => by
    have := totalWeight_take_pairUp rest b (by simpa [Nat.mul_succ] using hb)
    simp only [totalWeight] at this ⊢
    simp only [pairUp_cons_cons, Nat.mul_succ, List.take_succ_cons, List.map_cons, List.sum_cons, this, Nat.add_assoc]

/-! ### Lengths as a choice of leaves in each round -/

section
variable {f : Nat → Nat} {σ : List Nat} {d : Nat} {cur : List PmItem}

/-- The symbols that lengths `g` give a leaf in the last round. -/
def longSyms (σ : List Nat) (g : Nat → Nat) : List Nat := σ.filter (fun s => g s != 0)

theorem longSyms_length (hnd : σ.Nodup) (g : Nat → Nat) :
    (longSyms σ g).length = ∑ s ∈ σ.toFinset, if g s = 0 then 0 else 1 := by
  rw [longSyms, ← List.toFinset_card_of_nodup (hnd.filter _), List.toFinset_filter, Finset.card_filter]
  simp [ite_not]

/-- The leaves the last round adds, and the lengths that are left for the rounds before. -/
theorem sum_weight_eq (hnd : σ.Nodup) (g : Nat → Nat) :
    ∑ s ∈ σ.toFinset, f s * g s = totalWeight ((longSyms σ g).map (leaf f)) + ∑ s ∈ σ.toFinset, f s * (g s - 1) := by
  have hleaves : totalWeight ((longSyms σ g).map (leaf f)) = ∑ s ∈ σ.toFinset, if g s = 0 then 0 else f s := by
    rw [totalWeight, longSyms, List.map_map, ← List.sum_toFinset _ (hnd.filter _), List.toFinset_filter, Finset.sum_filter]
    simp [leaf, ite_not]
  rw [hleaves, ← Finset.sum_add_distrib]
  refine Finset.sum_congr rfl fun s _ => ?_
  cases g s <;> simp [Nat.mul_succ, Nat.add_comm]

/-- What the last round's leaves are worth. -/
theorem sum_two_pow_succ_sub (hnd : σ.Nodup) (g : Nat → Nat) :
    ∑ s ∈ σ.toFinset, 2 ^ (d + 1 - g s) + (longSyms σ g).length * 2 ^ d =
      ∑ s ∈ σ.toFinset, 2 ^ (d - (g s - 1)) + σ.length * 2 ^ d := by
  rw [longSyms_length hnd, ← List.toFinset_card_of_nodup hnd, Finset.sum_mul, Finset.card_eq_sum_ones, Finset.sum_mul,
    ← Finset.sum_add_distrib, ← Finset.sum_add_distrib]
  refine Finset.sum_congr rfl fun s _ => ?_
  cases g s with
  | zero => simp [Nat.pow_succ, Nat.mul_two]
  | succ l => simp

theorem sum_two_pow_sub_le (hnd : σ.Nodup) (g : Nat → Nat) : ∑ s ∈ σ.toFinset, 2 ^ (d - g s) ≤ σ.length * 2 ^ d := by
  have := Finset.sum_le_card_nsmul σ.toFinset (fun s => 2 ^ (d - g s)) (2 ^ d) fun s _ =>
    Nat.pow_le_pow_right (by omega) (Nat.sub_le ..)
  rwa [List.toFinset_card_of_nodup hnd] at this

/-- Once the last round's leaves are counted, the lengths left over are worth what is left to choose, in packages of two items. -/
theorem worth_of_shorter (hnd : σ.Nodup) {g : Nat → Nat} {c : Nat}
    (hworth : 2 * ∑ s ∈ σ.toFinset, 2 ^ (d + 1 - g s) + c * 2 ^ (d + 1) ≤ 2 * σ.length * 2 ^ (d + 1)) :
    2 * ∑ s ∈ σ.toFinset, 2 ^ (d - (g s - 1)) + 2 * (c - (longSyms σ g).length) * 2 ^ d ≤ 2 * σ.length * 2 ^ d := by
  have hsum := sum_two_pow_succ_sub (d := d) hnd g
  have hle := sum_two_pow_sub_le (d := d) hnd fun s => g s - 1
  rw [Nat.pow_succ] at hworth
  rcases le_total c (longSyms σ g).length with hc | hc
  · rw [Nat.sub_eq_zero_of_le hc]
    linarith
  · zify [hc] at hsum hworth ⊢
    linarith

/-- The invariant of the rounds, for every number `c` of first items: lengths worth at least `c` items of `1/2` (`Packed` has the units, and a length
beyond the depth counts as the depth) exist only when there are so many items, and then their weighted sum is at least these items' weight. -/
structure Cheapest (f : Nat → Nat) (σ : List Nat) (d : Nat) (cur : List PmItem) : Prop where
  ascending : Ascending cur
  weighed : ∀ z ∈ cur, z.w = (z.syms.map f).sum
  cheapest : ∀ (g : Nat → Nat) (c : Nat),
    2 * ∑ s ∈ σ.toFinset, 2 ^ (d - g s) + c * 2 ^ d ≤ 2 * σ.length * 2 ^ d →
    c ≤ cur.length ∧ totalWeight (cur.take c) ≤ ∑ s ∈ σ.toFinset, f s * g s

theorem cheapest_nil (hnd : σ.Nodup) : Cheapest f σ 0 [] where
  ascending := .nil
  weighed := by simp
  cheapest g c hworth := by
    have : c = 0 := by simpa [List.toFinset_card_of_nodup hnd] using hworth
    simp [this, totalWeight]

/-- Each round keeps the invariant, one level deeper. -/
theorem Cheapest.round (hnd : σ.Nodup) (hsort : σ.Pairwise (fun s t => f s ≤ f t)) (hp : Cheapest f σ d cur) :
    Cheapest f σ (d + 1) (mergeItems (σ.map (leaf f)) (pairUp cur)) := by
  have hleaves : Ascending (σ.map (leaf f)) := List.pairwise_map.mpr hsort
  refine ⟨ascending_mergeItems hleaves hp.ascending.pairUp, fun z hz => ?_, fun g c hworth => ?_⟩
  · rcases mem_mergeItems.mp hz with hz | hz
    · obtain ⟨s, -, rfl⟩ := List.mem_map.mp hz
      simp [leaf]
    · obtain ⟨x, hx, y, hy, rfl⟩ := exists_of_mem_pairUp hz
      simp [hp.weighed x hx, hp.weighed y hy]
  · have hlong : (longSyms σ g).length ≤ σ.length := List.length_filter_le ..
    obtain ⟨hlen, hweight⟩ := hp.cheapest (fun s => g s - 1) _ (worth_of_shorter hnd hworth)
    have hpairs : c - (longSyms σ g).length ≤ (pairUp cur).length := by
      rw [pairUp_length]
      omega
    refine ⟨by simp; omega, ?_⟩
    calc totalWeight ((mergeItems (σ.map (leaf f)) (pairUp cur)).take c)
        ≤ totalWeight ((σ.map (leaf f)).take (longSyms σ g).length) +
            totalWeight ((pairUp cur).take (c - (longSyms σ g).length)) :=
          totalWeight_take_mergeItems_le hleaves hp.ascending.pairUp (by simpa using hlong) hpairs (by omega)
      _ ≤ totalWeight ((longSyms σ g).map (leaf f)) + ∑ s ∈ σ.toFinset, f s * (g s - 1) := by
          rw [totalWeight_take_pairUp cur _ hlen]
          exact Nat.add_le_add (totalWeight_take_le hleaves (List.filter_sublist.map _).subperm (List.length_map _).ge) hweight
      _ = ∑ s ∈ σ.toFinset, f s * g s := (sum_weight_eq hnd g).symm

theorem cheapest_packageRounds (hnd : σ.Nodup) (hsort : σ.Pairwise (fun s t => f s ≤ f t)) (r : Nat) :
    Cheapest f σ (r + 1) (packageRounds (σ.map (leaf f)) r) := by
  induction r with
  | zero => simpa [packageRounds, mergeItems_eq_merge] using (cheapest_nil (f := f) hnd).round hnd hsort
  | succ r ih => exact ih.round hnd hsort

/-- Items of the symbols `σ` weigh their symbols' weights, as often as each occurs. -/
theorem totalWeight_eq_sum_occurrences {items : List PmItem} (hw : ∀ z ∈ items, z.w = (z.syms.map f).sum)
    (hσ : ∀ z ∈ items, ∀ s ∈ z.syms, s ∈ σ) : totalWeight items = ∑ s ∈ σ.toFinset, f s * occurrences items s := by
  have hflat : totalWeight items = ((items.flatMap PmItem.syms).map f).sum := by
    rw [totalWeight, List.map_congr_left hw, List.map_flatMap, List.flatMap_def, List.sum_flatten, List.map_map]
    rfl
  rw [hflat, Finset.sum_list_map_count]
  refine Finset.sum_subset_zero_on_sdiff (fun s hs => ?_) (fun s hs => ?_) fun s _ => ?_
  · obtain ⟨z, hz, hs⟩ := List.mem_flatMap.mp (List.mem_toFinset.mp hs)
    exact List.mem_toFinset.mpr (hσ z hz s hs)
  · have : occurrences items s = 0 := List.count_eq_zero.mpr fun h => (Finset.mem_sdiff.mp hs).2 (List.mem_toFinset.mpr h)
    rw [this, Nat.mul_zero]
  · rw [smul_eq_mul, Nat.mul_comm, occurrences]

end

/-! ### The lengths (R132) -/

section
variable {f : Nat → Nat} {syms : List Nat} {k : Nat}

/-- The weighted sum of the lengths is the weight of the chosen items. -/
theorem sum_weight_lengthAssign (hnd : syms.Nodup) (hk : 1 ≤ k) :
    ∑ s ∈ syms.toFinset, f s * lengthAssign f syms k s = totalWeight (chosenItems f syms k) := by
  have hperm := sortedSyms_perm f syms
  have hpack := packed_chosen (f := f) hnd hk
  have hcheap := cheapest_packageRounds (hperm.nodup_iff.mpr hnd) (sortedSyms_pairwise f syms) (k - 1)
  rw [chosenItems, sortedLeaves_eq_map, totalWeight_eq_sum_occurrences (σ := sortedSyms f syms)
    (fun z hz => hcheap.weighed z (List.mem_of_mem_take hz)) fun z hz s hs => (hpack.heavy z (List.mem_of_mem_take hz) s hs).1,
    List.toFinset_eq_of_perm _ _ hperm]
  simp only [lengthAssign_eq_occurrences, chosenItems, sortedLeaves_eq_map]

/-- R132 (c): lengths within the limit and the Kraft inequality are worth the `2n - 2` chosen items, and no lighter. -/
theorem totalWeight_chosenItems_le (hnd : syms.Nodup) (hk : 1 ≤ k) (h2 : 2 ≤ syms.length) {g : Nat → Nat}
    (hkraft : ∑ s ∈ syms.toFinset, 2 ^ (k - g s) ≤ 2 ^ k) :
    totalWeight (chosenItems f syms k) ≤ ∑ s ∈ syms.toFinset, f s * g s := by
  have hperm := sortedSyms_perm f syms
  have hcheap := cheapest_packageRounds (hperm.nodup_iff.mpr hnd) (sortedSyms_pairwise f syms) (k - 1)
  rw [Nat.sub_add_cancel hk] at hcheap
  rw [chosenItems, sortedLeaves_eq_map, ← List.toFinset_eq_of_perm _ _ hperm]
  refine (hcheap.cheapest g _ ?_).2
  rw [List.toFinset_eq_of_perm _ _ hperm, hperm.length_eq]
  have hn : (2 * syms.length - 2) * 2 ^ k + 2 * 2 ^ k = 2 * syms.length * 2 ^ k := by
    rw [← Nat.add_mul, Nat.sub_add_cancel (by omega)]
  linarith

end

/-- Settles O17: the limit and the complete code, from the invariant of the rounds. -/
theorem packageMergeIsLimitedAndComplete : Obligations.PackageMergeIsLimitedAndComplete := by
  intro f syms k hnd h2 hk
  refine ⟨fun x hx => ⟨one_le_lengthAssign hnd h2 hk hx, lengthAssign_le hnd h2 hk x⟩, ?_⟩
  rw [← List.sum_toFinset _ hnd]
  exact sum_two_pow_lengthAssign hnd h2 hk

/-- Settles O18: the chosen items weigh what the lengths cost, and no other lengths choose lighter items. -/
theorem packageMergeIsOptimal : Obligations.PackageMergeIsOptimal := by
  intro f syms k hnd h2 hk g _ hkraft
  have hk1 := one_le_of_length_le_two_pow h2 hk
  rw [← List.sum_toFinset _ hnd] at hkraft ⊢
  rw [← List.sum_toFinset _ hnd, sum_weight_lengthAssign hnd hk1]
  exact totalWeight_chosenItems_le hnd hk1 h2 hkraft

end Sys2Proof.Machine
end

section
/-! Encoding and decoding (R91 to R98): a word and a command determine each other by the three fields, the match and mask listing says when, and
the assembler spells well-formed commands alone. -/

namespace Sys2Proof

/-! ### A word and its command -/

theorem noOperands_eq_ok {a b : Nat} {i j : Instr} : noOperands a b j = .ok i ↔ a = 0 ∧ b = 0 ∧ j = i := by
  by_cases ha : a = 0 <;> by_cases hb : b = 0 <;> simp [noOperands, ha, hb]

theorem onlyA_eq_ok {b : Nat} {i j : Instr} : onlyA b j = .ok i ↔ b = 0 ∧ j = i := by
  by_cases hb : b = 0 <;> simp [onlyA, hb]

/-- A legal word holds its command's opcode and operands, 0 where R94 marks MBZ: one case per row of R95. -/
theorem fields_of_decode {w : CmdWord} {i : Instr} (h : decode w = .ok i) :
    fieldOp w = i.opcode ∧ (fieldA w).toNat = i.operandA ∧ (fieldB w).toNat = i.operandB := by
  unfold decode at h
  split at h
  case h_22 => cases h
  case h_1 hop | h_2 hop | h_11 hop =>
    obtain rfl := Except.ok.inj h
    exact ⟨BitVec.eq_of_toNat_eq hop, rfl, rfl⟩
  case h_3 hop | h_4 hop | h_8 hop | h_9 hop | h_12 hop | h_13 hop | h_14 hop | h_15 hop | h_19 hop =>
    obtain ⟨ha, hb, rfl⟩ := noOperands_eq_ok.mp h
    exact ⟨BitVec.eq_of_toNat_eq hop, ha, hb⟩
  case h_5 hop | h_6 hop | h_7 hop | h_10 hop | h_16 hop | h_17 hop | h_18 hop | h_20 hop | h_21 hop =>
    obtain ⟨hb, rfl⟩ := onlyA_eq_ok.mp h
    exact ⟨BitVec.eq_of_toNat_eq hop, rfl, hb⟩

/-- A command is well formed exactly when its operands fit (R91, R98). -/
theorem wellFormed_iff (i : Instr) : i.wellFormed = true ↔ i.operandA < 2 ^ 24 ∧ i.operandB < 2 ^ 32 := by
  cases i <;> simp [Instr.wellFormed, fitsA, fitsB, Instr.operandA, Instr.operandB]

theorem decode_encode {i : Instr} (h : i.wellFormed = true) : decode (encode i) = .ok i := by
  obtain ⟨ha, hb⟩ := (wellFormed_iff i).mp h
  exact decode_of_fields (fieldOp_cmdWord _ _ _) (fieldA_cmdWord _ _ _ ha) (fieldB_cmdWord _ _ _ hb)

theorem wellFormed_of_decode {w : CmdWord} {i : Instr} (h : decode w = .ok i) : i.wellFormed = true := by
  obtain ⟨-, ha, hb⟩ := fields_of_decode h
  exact (wellFormed_iff i).mpr ⟨ha ▸ (fieldA w).isLt, hb ▸ (fieldB w).isLt⟩

theorem encode_of_decode {w : CmdWord} {i : Instr} (h : decode w = .ok i) : encode i = w := by
  obtain ⟨hop, ha, hb⟩ := fields_of_decode h
  rw [encode, ← hop, ← ha, ← hb, cmdWord_fields]

/-- Settles O1: the three fields of the encoded word are the opcode and the operands, as these fit. -/
theorem decodeOfEncodeIsIdentity : Obligations.DecodeOfEncodeIsIdentity := fun _ => decode_encode

/-- Settles O2: the fields of a legal word are its command's opcode and operands, and a word is its fields. -/
theorem encodeOfDecodeIsIdentity : Obligations.EncodeOfDecodeIsIdentity := fun _ _ h =>
  ⟨wellFormed_of_decode h, encode_of_decode h⟩

/-- Settles O3: the assembly formula lays the three fields side by side. -/
theorem assembledWordHoldsItsFields : Obligations.AssembledWordHoldsItsFields := by
  intro op a b hop ha hb
  have hword := assembledWord_eq_cmdWord (BitVec.ofNat 8 op) ha hb
  rw [BitVec.toNat_ofNat, Nat.mod_eq_of_lt hop] at hword
  rw [hword, fieldOp_cmdWord, BitVec.toNat_ofNat, Nat.mod_eq_of_lt hop]
  exact ⟨rfl, fieldA_cmdWord _ a b ha, fieldB_cmdWord _ a b hb⟩

/-! ### The match and mask listing (R95) -/

/-- Masking works field by field. -/
theorem cmdWord_and (op op' : BitVec 8) (a a' b b' : Nat) :
    cmdWord op a b &&& cmdWord op' a' b' = cmdWord (op &&& op') (a &&& a') (b &&& b') := by
  rw [cmdWord, cmdWord, cmdWord, BitVec.ofNat_and, BitVec.ofNat_and]
  exact BitVec.and_append.trans (congrArg _ BitVec.and_append)

/-- A word agrees with an opcode under a mask that keeps `OP` and, of the operands, the bits `ma` and `mb`. -/
theorem and_cmdWord_eq_iff (w : CmdWord) (op : BitVec 8) (ma mb : Nat) :
    w &&& cmdWord 0xFF ma mb = cmdWord op 0 0 ↔
      fieldOp w = op ∧ (fieldA w).toNat &&& ma = 0 ∧ (fieldB w).toNat &&& mb = 0 := by
  have hone : fieldOp w &&& 0xFF = fieldOp w := BitVec.and_allOnes
  have ha : (fieldA w).toNat &&& ma < 2 ^ 24 := Nat.and_le_left.trans_lt (fieldA w).isLt
  have hb : (fieldB w).toNat &&& mb < 2 ^ 32 := Nat.and_le_left.trans_lt (fieldB w).isLt
  conv_lhs => rw [← cmdWord_fields w, cmdWord_and, hone]
  constructor
  · intro h
    have hop := congrArg fieldOp h
    have hA := congrArg (fun w => (fieldA w).toNat) h
    have hB := congrArg (fun w => (fieldB w).toNat) h
    simp only [fieldOp_cmdWord, fieldA_cmdWord _ _ _ ha, fieldA_cmdWord op 0 0 (by decide), fieldB_cmdWord _ _ _ hb,
      fieldB_cmdWord op 0 0 (by decide)] at hop hA hB
    exact ⟨hop, hA, hB⟩
  · rintro ⟨hop, hA, hB⟩
    rw [hop, hA, hB]

theorem and_maskAB_iff (w : CmdWord) (op : BitVec 8) : w &&& maskAB = cmdWord op 0 0 ↔ fieldOp w = op := by
  rw [show maskAB = cmdWord 0xFF 0 0 by decide, and_cmdWord_eq_iff]
  simp

theorem and_maskA_iff (w : CmdWord) (op : BitVec 8) :
    w &&& maskA = cmdWord op 0 0 ↔ fieldOp w = op ∧ (fieldB w).toNat = 0 := by
  rw [show maskA = cmdWord 0xFF 0 (2 ^ 32 - 1) by decide, and_cmdWord_eq_iff, Nat.and_two_pow_sub_one_of_lt_two_pow (fieldB w).isLt]
  simp

theorem and_maskNone_iff (w : CmdWord) (op : BitVec 8) :
    w &&& maskNone = cmdWord op 0 0 ↔ fieldOp w = op ∧ (fieldA w).toNat = 0 ∧ (fieldB w).toNat = 0 := by
  rw [show maskNone = cmdWord 0xFF (2 ^ 24 - 1) (2 ^ 32 - 1) by decide, and_cmdWord_eq_iff,
    Nat.and_two_pow_sub_one_of_lt_two_pow (fieldA w).isLt, Nat.and_two_pow_sub_one_of_lt_two_pow (fieldB w).isLt]

/-- The bits of a word that a command fixes: its opcode and its MBZ fields (R94, R95). -/
def Instr.mask : Instr → CmdWord
  | .encInit _ _ | .encCount _ _ | .decSetlen _ _ => maskAB
  | .encRdfc _ | .encRdlen _ | .encRdcnt _ | .decInit _ | .decRdlen _ | .decRdcode _ | .decRdcnt _ | .decRdfirst _
  | .decRdoffset _ => maskA
  | .encCreate | .encExit | .encRdmaxlen | .encRdnz | .decRecon | .decRdsym | .decSync | .decExit | .decRdmaxlen => maskNone

/-- The row of a command in the listing of R95. -/
def Instr.row (i : Instr) : OpRow := ⟨i.mnemonic, cmdWord i.opcode 0 0, i.mask⟩

/-- The listing is the commands' rows. -/
theorem opcodeTable_eq_rows :
    opcodeTable =
      [.encInit 0 0, .encCount 0 0, .encCreate, .encExit, .encRdfc 0, .encRdlen 0, .encRdcnt 0, .encRdmaxlen, .encRdnz,
        .decInit 0, .decSetlen 0 0, .decRecon, .decRdsym, .decSync, .decExit, .decRdlen 0, .decRdcode 0, .decRdcnt 0,
        .decRdmaxlen, .decRdfirst 0, .decRdoffset 0].map Instr.row := by
  decide

/-- A row does not depend on the operands. -/
theorem row_mem_opcodeTable (i : Instr) : i.row ∈ opcodeTable := by
  rw [opcodeTable_eq_rows]
  cases i <;> simp [Instr.row, Instr.mnemonic, Instr.opcode, Instr.mask]

theorem row_eq_of_mnemonic_eq {i j : Instr} (h : i.mnemonic = j.mnemonic) : i.row = j.row :=
  List.inj_on_of_nodup_map (f := OpRow.mnemonic) (l := opcodeTable) (by decide) (row_mem_opcodeTable i)
    (row_mem_opcodeTable j) h

theorem row_eq_of_opcode_eq {i j : Instr} (h : i.opcode = j.opcode) : i.row = j.row :=
  List.inj_on_of_nodup_map (f := OpRow.pattern) (l := opcodeTable) (by decide) (row_mem_opcodeTable i)
    (row_mem_opcodeTable j) (congrArg (cmdWord · 0 0) h)

/-- A word matches a command's row exactly when it has its opcode and is legal (R95, R96): the mask keeps the MBZ fields. -/
theorem matchesWord_row_iff (i : Instr) (w : CmdWord) :
    i.row.matchesWord w = true ↔ fieldOp w = i.opcode ∧ ¬∃ e, decode w = .error e := by
  rw [OpRow.matchesWord, beq_iff_eq, Instr.row, decode_error_iff]
  cases i with
  | encInit | encCount | decSetlen =>
    rw [Instr.mask, and_maskAB_iff, iff_self_and]
    intro hop
    simp [hop, Instr.opcode]
  | encRdfc | encRdlen | encRdcnt | decInit | decRdlen | decRdcode | decRdcnt | decRdfirst | decRdoffset =>
    rw [Instr.mask, and_maskA_iff, and_congr_right_iff]
    intro hop
    simp [hop, Instr.opcode]
  | encCreate | encExit | encRdmaxlen | encRdnz | decRecon | decRdsym | decSync | decExit | decRdmaxlen =>
    rw [Instr.mask, and_maskNone_iff, and_congr_right_iff]
    intro hop
    simp [hop, Instr.opcode]

/-- Settles O4: the rows are the commands', and no two of them share a mnemonic or an opcode. -/
theorem matchAndMaskAgreeWithDecode : Obligations.MatchAndMaskAgreeWithDecode := by
  intro r hr w
  obtain ⟨i, -, rfl⟩ := List.mem_map.mp (opcodeTable_eq_rows ▸ hr)
  rw [matchesWord_row_iff]
  constructor
  · rintro ⟨hop, hlegal⟩
    cases hd : decode w with
    | error e => exact absurd ⟨e, hd⟩ hlegal
    | ok j =>
      have hrow : j.row = i.row := row_eq_of_opcode_eq ((fields_of_decode hd).1.symm.trans hop)
      exact ⟨j, rfl, congrArg OpRow.mnemonic hrow⟩
  · rintro ⟨j, hd, hm⟩
    rw [← matchesWord_row_iff, ← row_eq_of_mnemonic_eq hm, matchesWord_row_iff, hd]
    exact ⟨(fields_of_decode hd).1, by simp⟩

end Sys2Proof

namespace Sys2Proof.Machine

open Sys2Proof

/-! ### The assembler (R98) -/

/-- A line spells commands only after the field check. -/
theorem wellFormed_of_assembleLine {line : String} {is : List Instr} (h : assembleLine line = .commands is) :
    ∀ i ∈ is, i.wellFormed = true := by
  simp only [assembleLine] at h
  repeat' split at h
  all_goals cases h
  next hall => exact List.all_eq_true.mp hall

/-- Settles O48: the assembler checks every operand against its field, and a well-formed command's word decodes to it. -/
theorem assembledLinesFitTheirFields : Obligations.AssembledLinesFitTheirFields := fun _ _ h i hi =>
  have hfits := wellFormed_of_assembleLine h i hi
  ⟨hfits, decode_encode hfits⟩

end Sys2Proof.Machine
end

section
/-! What every command answers (R80, R92, R120, R169, R220, R222): its status, its requests and its one response. -/

namespace Sys2Proof.Machine

open Sys2Proof

/-! ### The legality tables (R120, R169) -/

/-- In READY a `DEC.RDSYM` makes its reads, and how they end decides (R173, R176). -/
theorem exec_decRdsym_of_ready {s : State} (hst : s.dec.state = .ready) :
    (∃ x, exec .decRdsym s = .next ((s.exchanges (requestsOf .decRdsym s)).respond .ok x)) ∨
      (((decodeSymbol s.dec s.bitIO).outcome = .noMatch ∨ (decodeSymbol s.dec s.bitIO).outcome = .endOfStream) ∧
        exec .decRdsym s = .next (s.exchanges (requestsOf .decRdsym s)).failStream) ∨
      ((decodeSymbol s.dec s.bitIO).outcome = .waiting ∧ exec .decRdsym s = .fault .bitReadNeverAnswered) := by
  rw [requestsOf, if_pos hst]
  cases hrun : decodeSymbol s.dec s.bitIO with
  | mk reads outcome =>
    cases outcome with
    | symbol x => exact .inl ⟨_, exec_decRdsym_of_symbol hst hrun⟩
    | endOfStream => exact .inr (.inl ⟨.inr rfl, exec_decRdsym_of_corruption hst hrun (.inr rfl)⟩)
    | noMatch => exact .inr (.inl ⟨.inl rfl, exec_decRdsym_of_corruption hst hrun (.inl rfl)⟩)
    | waiting => exact .inr (.inr ⟨rfl, exec_decRdsym_of_waiting hst hrun⟩)

theorem exec_decRdsym_of_not_ready {s : State} (hst : s.dec.state ≠ .ready) :
    exec .decRdsym s = .next (s.raise .streamCorruption) ∨ exec .decRdsym s = .next (s.raise .sequenceError) := by
  by_cases hf : s.dec.state = .failed
  · exact .inl (by simp [exec, execDecRdsym, hf])
  · exact .inr (by simp [exec, execDecRdsym, hst, hf])

/-- A command stops in one case alone: a read that is never answered (R176). -/
theorem exec_next_or_waits (i : Instr) (s : State) :
    (∃ t, exec i s = .next t) ∨
      (i = .decRdsym ∧ s.dec.state = .ready ∧ (decodeSymbol s.dec s.bitIO).outcome = .waiting ∧
        exec i s = .fault .bitReadNeverAnswered) := by
  cases i with
  | decRdsym =>
    by_cases hst : s.dec.state = .ready
    · rcases exec_decRdsym_of_ready hst with ⟨x, h⟩ | ⟨-, h⟩ | ⟨hwait, h⟩
      · exact .inl ⟨_, h⟩
      · exact .inl ⟨_, h⟩
      · exact .inr ⟨rfl, hst, hwait, h⟩
    · exact .inl ((exec_decRdsym_of_not_ready hst).elim (⟨_, ·⟩) (⟨_, ·⟩))
  | _ => exact .inl ⟨_, rfl⟩

/-- In a cell with a status the command raises it; every other next state is of an op cell. -/
theorem ExecCase.raised_or_legal {i : Instr} {s t : State} (h : ExecCase s i t) :
    (∃ st, legalityCell i s.enc.state s.dec.state = some st ∧ t = s.raise st) ∨
      legalityCell i s.enc.state s.dec.state = none := by
  cases h with
  | failed _ st why =>
    rcases why with hcell | ⟨hcell, -⟩
    · exact .inl ⟨st, hcell, rfl⟩
    · exact .inr hcell
  | readOut _ _ legal => exact .inr legal
  | encDenied e k checked | encOpened e k checked => exact .inr (if_pos (encInitCheck_none.mp checked).1)
  | decDenied m checked | decOpened m checked => exact .inr (if_pos (decInitCheck_none.mp checked).1)
  | counted _ _ hst | created hst | lengthSet _ _ hst | rebuilt hst | decoded _ hst | corrupted hst | synced hst =>
    exact .inr (if_pos hst)
  | encIdle | encExited | decIdle | decExited => exact .inr rfl

theorem exec_of_legalityCell {i : Instr} {s : State} {st : Status}
    (h : legalityCell i s.enc.state s.dec.state = some st) : exec i s = .next (s.raise st) := by
  rcases exec_next_or_waits i s with ⟨t, ht⟩ | ⟨rfl, hst, -⟩
  · rcases (exec_cases ht).raised_or_legal with ⟨st', hst', rfl⟩ | hnone
    · rw [ht, Option.some.inj (h.symm.trans hst')]
    · rw [h] at hnone
      cases hnone
  · rw [legalityCell, if_pos hst] at h
    cases h

/-- In an op cell no next state carries SequenceError. -/
theorem ExecCase.lastStatus_ne_sequenceError {i : Instr} {s t : State} (h : ExecCase s i t)
    (hcell : legalityCell i s.enc.state s.dec.state = none) : lastStatus t ≠ some 5 := by
  cases h with
  | failed _ st why =>
    rcases why with hsome | ⟨-, rfl | rfl | rfl⟩
    · rw [hcell] at hsome
      cases hsome
    all_goals simp [Status.code]
  | corrupted => simp [State.failStream, Status.code]
  | _ => simp [Status.code]

/-- Settles O16: the status cells as `ExecCase` has them, and no later check raises SequenceError. -/
theorem legalityTablesHold : Obligations.LegalityTablesHold := fun _ _ =>
  ⟨fun _ => exec_of_legalityCell, fun hcell _ ht => (exec_cases ht).lastStatus_ne_sequenceError hcell⟩

/-! ### Statuses (R220) -/

/-- The last response carries one of these status numbers. -/
def Answers (codes : List Nat) (t : State) : Prop := ∃ c ∈ codes, lastStatus t = some (BitVec.ofNat 4 c)

section
variable {codes : List Nat} {st : Status} {s t : State}

theorem Answers.respond (h : ∃ c ∈ codes, BitVec.ofNat 4 c = st.code) (r : Result) : Answers codes (s.respond st r) := by
  obtain ⟨c, hc, hst⟩ := h
  exact ⟨c, hc, by rw [lastStatus_respond, hst]⟩

theorem Answers.raise (h : ∃ c ∈ codes, BitVec.ofNat 4 c = st.code) : Answers codes (s.raise st) := .respond h 0

theorem Answers.ite {c : Prop} [Decidable c] (hs : Answers codes s) (ht : Answers codes t) :
    Answers codes (if c then s else t) := by
  split <;> assumption

end

/-- Most commands check the unit's state and then an index (R222). -/
theorem answers_two_checks (c c' : Prop) [Decidable c] [Decidable c'] (s t : State) (r : Result) :
    Answers [0, 5, 6] (if c then s.raise .sequenceError else if c' then s.raise .invalidArgument else t.respond .ok r) :=
  .ite (.raise (by decide)) (.ite (.raise (by decide)) (.respond (by decide) r))

theorem answers_encInit {e k : Nat} {s t : State} (h : exec (.encInit e k) s = .next t) : Answers [0, 1, 2, 5] t := by
  cases hc : encInitCheck s e k with
  | some st =>
    cases h.symm.trans (exec_encInit_of_failed hc)
    rcases encInitCheck_some hc with ⟨-, rfl⟩ | ⟨-, rfl⟩ <;> exact .raise (by decide)
  | none =>
    cases hg : s.arenaAnswer with
    | false => cases h.symm.trans (exec_encInit_of_denied hc hg); exact .raise (by decide)
    | true => cases h.symm.trans (exec_encInit_of_granted hc hg); exact .respond (by decide) 0

theorem answers_decInit {m : Nat} {s t : State} (h : exec (.decInit m) s = .next t) : Answers [0, 1, 2, 5] t := by
  cases hc : decInitCheck s m with
  | some st =>
    cases h.symm.trans (exec_decInit_of_failed hc)
    rcases decInitCheck_some hc with ⟨-, rfl⟩ | ⟨-, rfl⟩ <;> exact .raise (by decide)
  | none =>
    cases hg : s.arenaAnswer with
    | false => cases h.symm.trans (exec_decInit_of_denied hc hg); exact .raise (by decide)
    | true => cases h.symm.trans (exec_decInit_of_granted hc hg); exact .respond (by decide) 0

theorem answers_decSetlen {sym len : Nat} {s t : State} (h : exec (.decSetlen sym len) s = .next t) :
    Answers [0, 4, 5, 6] t := by
  cases h
  exact .ite (.raise (by decide)) (.ite (.raise (by decide)) (.ite (.raise (by decide)) (.respond (by decide) 0)))

theorem answers_decRdsym {s t : State} (h : exec .decRdsym s = .next t) : Answers [0, 3, 5] t := by
  by_cases hst : s.dec.state = .ready
  · rcases exec_decRdsym_of_ready hst with ⟨x, hx⟩ | ⟨-, hx⟩ | ⟨-, hx⟩ <;> cases h.symm.trans hx
    · exact .respond (by decide) x
    · exact .raise (by decide)
  · rcases exec_decRdsym_of_not_ready hst with hx | hx <;> cases h.symm.trans hx <;> exact .raise (by decide)

/-- Settles O10: the statuses a command's checks raise, in their order, and those of its operation. -/
theorem statusesOfEachCommand : Obligations.StatusesOfEachCommand := by
  intro i s t h
  change Answers _ t
  cases i with
  | encInit => exact answers_encInit h
  | decInit => exact answers_decInit h
  | decSetlen => exact answers_decSetlen h
  | decRdsym => exact answers_decRdsym h
  | encCount | encRdfc | encRdlen | encRdcnt | decRdlen | decRdcode | decRdcnt | decRdfirst | decRdoffset =>
    cases h
    exact answers_two_checks ..
  | encCreate | encRdmaxlen | encRdnz | decRdmaxlen =>
    cases h
    exact .ite (.raise (by decide)) (.respond (by decide) _)
  | encExit | decExit =>
    cases h
    exact .ite (.respond (by decide) 0) (.respond (by decide) 0)
  | decRecon | decSync =>
    cases h
    exact .ite (.raise (by decide)) (.ite (.raise (by decide)) (.respond (by decide) 0))

/-! ### Requests and the one response (R80, R92, R222) -/

/-- What a command sends before its response is none (R11). -/
theorem response_notMem_requestsOf (i : Instr) (s : State) (v : RspWord) : PortEvent.response v ∉ requestsOf i s := by
  cases i with
  | encInit | encExit | decInit | decRdsym | decSync | decExit =>
    rw [requestsOf]
    split <;> simp [encRequest, decRequest]
  | _ => simp [requestsOf]

/-- Settles O45: each of the six commands that send a request does so behind its checks. -/
theorem requestsComeAfterTheChecks : Obligations.RequestsComeAfterTheChecks := by
  intro i s h
  cases i with
  | encInit e k =>
    rw [requestsOf, ite_ne_right_iff] at h
    obtain ⟨hst, he, hle, hk, hkle, hpow⟩ := encInitCheck_none.mp h.1
    exact ⟨if_pos hst, .inl ⟨e, k, rfl, he, hle, hk, hkle, hpow, by rw [requestsOf, if_pos h.1]; rfl⟩⟩
  | decInit m =>
    rw [requestsOf, ite_ne_right_iff] at h
    obtain ⟨hst, hm⟩ := decInitCheck_none.mp h.1
    exact ⟨if_pos hst, .inr (.inl ⟨m, rfl, hm, by rw [requestsOf, if_pos h.1]; rfl⟩)⟩
  | decRdsym | decSync =>
    rw [requestsOf, ite_ne_right_iff] at h
    exact ⟨if_pos h.1, by simp⟩
  | encExit | decExit => exact ⟨rfl, by simp⟩
  | _ => exact absurd rfl h

/-- `t` shows the command's requests and one response after what `s` shows, RESULT 0 in a failure (R92). -/
def RespondsOnce (i : Instr) (s t : State) : Prop :=
  ∃ st r, t.trace = s.trace ++ requestsOf i s ++ [.response (rspWord st r)] ∧ (st ≠ .ok → r = 0)

section
variable {i : Instr} {s t : State}

theorem RespondsOnce.respond (h : t.trace = s.trace ++ requestsOf i s) (r : Result) : RespondsOnce i s (t.respond .ok r) :=
  ⟨.ok, r, by rw [State.respond_trace, h], fun hne => absurd rfl hne⟩

theorem RespondsOnce.raise (h : t.trace = s.trace ++ requestsOf i s) (st : Status) : RespondsOnce i s (t.raise st) :=
  ⟨st, 0, by rw [State.raise_trace, h], fun _ => rfl⟩

theorem RespondsOnce.ite {c : Prop} [Decidable c] {t' : State} (ht : c → RespondsOnce i s t)
    (hf : ¬c → RespondsOnce i s t') : RespondsOnce i s (if c then t else t') := by
  split
  next h => exact ht h
  next h => exact hf h

theorem respondsOnce_encInit {e k : Nat} (h : exec (.encInit e k) s = .next t) : RespondsOnce (.encInit e k) s t := by
  cases hc : encInitCheck s e k with
  | some st =>
    cases h.symm.trans (exec_encInit_of_failed hc)
    exact .raise (by simp [requestsOf, hc]) st
  | none =>
    cases hg : s.arenaAnswer with
    | false => cases h.symm.trans (exec_encInit_of_denied hc hg); exact .raise (by simp [requestsOf, hc, encRequest, hg]) _
    | true => cases h.symm.trans (exec_encInit_of_granted hc hg); exact .respond (by simp [requestsOf, hc, encRequest, hg]) 0

theorem respondsOnce_decInit {m : Nat} (h : exec (.decInit m) s = .next t) : RespondsOnce (.decInit m) s t := by
  cases hc : decInitCheck s m with
  | some st =>
    cases h.symm.trans (exec_decInit_of_failed hc)
    exact .raise (by simp [requestsOf, hc]) st
  | none =>
    cases hg : s.arenaAnswer with
    | false => cases h.symm.trans (exec_decInit_of_denied hc hg); exact .raise (by simp [requestsOf, hc, decRequest, hg]) _
    | true => cases h.symm.trans (exec_decInit_of_granted hc hg); exact .respond (by simp [requestsOf, hc, decRequest, hg]) 0

theorem respondsOnce_decRdsym (h : exec .decRdsym s = .next t) : RespondsOnce .decRdsym s t := by
  by_cases hst : s.dec.state = .ready
  · rcases exec_decRdsym_of_ready hst with ⟨x, hx⟩ | ⟨-, hx⟩ | ⟨-, hx⟩ <;> cases h.symm.trans hx
    · exact .respond (exchanges_trace ..) x
    · exact .raise (exchanges_trace ..) _
  · have hnone : s.trace = s.trace ++ requestsOf .decRdsym s := by simp [requestsOf, hst]
    rcases exec_decRdsym_of_not_ready hst with hx | hx <;> cases h.symm.trans hx <;> exact .raise hnone _

theorem respondsOnce_of_exec (h : exec i s = .next t) : RespondsOnce i s t := by
  cases i with
  | encInit => exact respondsOnce_encInit h
  | decInit => exact respondsOnce_decInit h
  | encExit | decExit =>
    cases h
    exact .ite (fun hst => .respond (by simp [requestsOf, hst]) 0) fun hst => .respond (by simp [requestsOf, hst]) 0
  | decSync =>
    cases h
    exact .ite (fun hf => .raise (by simp [requestsOf, hf]) _) fun _ =>
      .ite (fun hst => .raise (by simp [requestsOf, hst]) _) fun hst =>
        .respond (by simp [requestsOf, not_ne_iff.mp hst]) 0
  | decRdsym => exact respondsOnce_decRdsym h
  | _ =>
    cases exec_cases h with
    | failed _ st => exact .raise (List.append_nil _).symm st
    | _ => exact .respond (List.append_nil _).symm _

end

/-- Settles O9: one response after the requests, and the fields of its word. -/
theorem everyCommandRespondsOnce : Obligations.EveryCommandRespondsOnce := by
  intro i s t h
  obtain ⟨st, r, htrace, hzero⟩ := respondsOnce_of_exec h
  exact ⟨st, r, rspWord st r, htrace, response_notMem_requestsOf i s, rspWord_toNat st r, rspWord_lt st r,
    fun hne => hzero fun hok => hne ((Status.code_eq_zero st).mpr hok)⟩

/-! ### The read-outs (R80) -/

theorem respond_ite (c : Prop) [Decidable c] (st st' : Status) (r r' : Result) (s : State) :
    (if c then s.respond st r else s.respond st' r') = s.respond (if c then st else st') (if c then r else r') := by
  split <;> rfl

/-- Settles O44: each read-out's checks and its entry are functions of the parameters and the two units. -/
theorem readOutsAreIdempotent : Obligations.ReadOutsAreIdempotent := by
  intro i s h
  cases i with
  | encInit | encCount | encCreate | encExit | decInit | decSetlen | decRecon | decRdsym | decSync | decExit => cases h
  | _ =>
    apply Exists.intro
    apply Exists.intro
    intro s' hp he hd
    simp only [exec, execEncRdfc, execEncRdlen, execEncRdcnt, execEncRdmaxlen, execEncRdnz, execDecRdlen, execDecRdcode,
      execDecRdcnt, execDecRdmaxlen, execDecRdfirst, execDecRdoffset, raise_eq, respond_ite, hp, he, hd]
    rfl

/-! ### The buffers of an INIT (R72, log 14) -/

theorem roundPow2_bounds {n : Nat} (h : 1 ≤ n) : n ≤ roundPow2 n ∧ roundPow2 n < 2 * n := by
  have hle := Nat.log2_self_le (n := 2 * n - 1) (by omega)
  have hlt := Nat.lt_log2_self (n := 2 * n - 1)
  rw [Nat.pow_succ] at hlt
  rw [roundPow2]
  omega

/-- Settles O46: the rounding lies between a number and its double; the lists are as they are written. -/
theorem arenaRequestsArePowersOfTwo : Obligations.ArenaRequestsArePowersOfTwo :=
  ⟨fun _ h => ⟨(roundPow2_bounds h).1, (roundPow2_bounds h).2, _, rfl⟩, fun _ _ => ⟨rfl, rfl, rfl⟩, fun _ _ => ⟨rfl, rfl, rfl⟩⟩

end Sys2Proof.Machine
end

section
/-! Steps (R32, R33, R43, R52, R53, R224, R250 to R253): how a command changes each unit, and from that the invariants and the transitions. -/

namespace Sys2Proof.Machine

open Sys2Proof

/-! ### How a command changes each unit -/

/-- What a command does to HENC. -/
inductive EncUpdate (s : State) (i : Instr) (t : State) : Prop where
  | kept (unit : t.enc = s.enc)
  | opened (e k : Nat) (command : i = .encInit e k) (checked : encInitCheck s e k = none)
      (unit : t.enc = openedEncoder s.enc s.params e k) (ok : lastStatus t = some 0)
  | counted (fc : List (BitVec 32)) (counting : s.enc.state = .counting) (size : fc.length = s.enc.freqCode.length)
      (unit : t.enc = { s.enc with freqCode := fc })
  | created (command : i = .encCreate) (counting : s.enc.state = .counting)
      (unit : t.enc = createdEncoder s.enc s.params s.draws)
  | exited (command : i = .encExit) (unit : t.enc = freedEncoder s.params s.draws)

/-- What a command does to HDEC. -/
inductive DecUpdate (s : State) (i : Instr) (t : State) : Prop where
  | kept (unit : t.dec = s.dec)
  | opened (m : Nat) (command : i = .decInit m) (checked : decInitCheck s m = none)
      (unit : t.dec = openedDecoder s.dec s.params m) (ok : lastStatus t = some 0)
  | lengthSet (sym len : Nat) (lengths : s.dec.state = .lengths) (short : len ≤ s.params.maxCodeBits)
      (unit : t.dec = { s.dec with dLen := s.dec.dLen.set sym (BitVec.ofNat 6 len) })
  | rebuilt (command : i = .decRecon) (lengths : s.dec.state = .lengths) (fits : oversubscribed s.params s.dec = false)
      (unit : t.dec = reconstructedDecoder s.dec s.params) (ok : lastStatus t = some 0)
  | failed (command : i = .decRdsym) (ready : s.dec.state = .ready) (unit : t.dec = { s.dec with state := .failed })
      (corrupted : lastStatus t = some 3)
  | exited (command : i = .decExit) (unit : t.dec = freedDecoder s.params s.draws)

section
variable {i : Instr} {s t : State}

theorem ExecCase.encUpdate (h : ExecCase s i t) : EncUpdate s i t := by
  cases h with
  | encOpened e k checked => exact .opened e k rfl checked rfl (lastStatus_respond .ok 0 _)
  | counted sym n counting => exact .counted _ counting List.length_set rfl
  | created counting => exact .created rfl counting rfl
  | encExited => exact .exited rfl rfl
  | failed | readOut | encIdle | decIdle | lengthSet | rebuilt => exact .kept rfl
  | encDenied | decDenied | decOpened | decoded | synced | decExited => exact .kept (by simp)
  | corrupted => exact .kept (by simp [State.failStream])

theorem ExecCase.decUpdate (h : ExecCase s i t) : DecUpdate s i t := by
  cases h with
  | decOpened m checked => exact .opened m rfl checked rfl (lastStatus_respond .ok 0 _)
  | lengthSet sym len lengths _ short => exact .lengthSet sym len lengths short rfl
  | rebuilt lengths fits => exact .rebuilt rfl lengths fits rfl (lastStatus_respond .ok 0 _)
  | corrupted ready =>
    rw [failStream_exchanges]
    exact .failed rfl ready rfl (lastStatus_raise .streamCorruption _)
  | decExited => exact .exited rfl rfl
  | failed | readOut | encIdle | decIdle | counted | created => exact .kept rfl
  | encDenied | decDenied | encOpened | decoded | synced | encExited => exact .kept (by simp)

end

/-! ### The unit states (R33, R43) -/

/-- Settles O39: the encodings by evaluation, the transitions from what a command does to each unit. -/
theorem unitStateTransitions : Obligations.UnitStateTransitions := by
  refine ⟨⟨rfl, rfl, rfl, fun e => by cases e <;> decide⟩, ⟨rfl, rfl, rfl, rfl⟩, fun i s t h => ⟨?_, ?_⟩⟩
  · cases (exec_cases h).encUpdate with
    | kept unit => exact .inl (by rw [unit])
    | opened e k command checked unit ok =>
      exact .inr (.inl ⟨e, k, command, (encInitCheck_none.mp checked).1, by rw [unit]; rfl, ok⟩)
    | counted fc _ _ unit => exact .inl (by rw [unit])
    | created command counting unit => exact .inr (.inr (.inl ⟨command, counting, by rw [unit]; rfl⟩))
    | exited command unit => exact .inr (.inr (.inr ⟨command, by rw [unit]; rfl⟩))
  · cases (exec_cases h).decUpdate with
    | kept unit => exact .inl (by rw [unit])
    | opened m command checked unit ok =>
      exact .inr (.inl ⟨m, command, (decInitCheck_none.mp checked).1, by rw [unit]; rfl, ok⟩)
    | lengthSet _ _ _ _ unit => exact .inl (by rw [unit])
    | rebuilt command lengths _ unit ok => exact .inr (.inr (.inl ⟨command, lengths, by rw [unit]; rfl, ok⟩))
    | failed command ready unit corrupted => exact .inr (.inr (.inr (.inl ⟨command, ready, by rw [unit], corrupted⟩)))
    | exited command unit => exact .inr (.inr (.inr (.inr ⟨command, by rw [unit]; rfl⟩)))

/-- From FAILED the one command that leads elsewhere is `DEC.EXIT` (R224). -/
theorem DecUpdate.failed_or_exit {i : Instr} {s t : State} (h : DecUpdate s i t) (hst : s.dec.state = .failed) :
    t.dec.state = .failed ∨ i = .decExit := by
  cases h with
  | kept unit => exact .inl (by rw [unit, hst])
  | opened m _ checked => exact absurd (hst.symm.trans (decInitCheck_none.mp checked).1) (by simp)
  | lengthSet _ _ lengths | rebuilt _ lengths => exact absurd (hst.symm.trans lengths) (by simp)
  | failed _ ready => exact absurd (hst.symm.trans ready) (by simp)
  | exited command => exact .inr command

/-- Settles O40: in a step that executes a command, the word of `DEC.EXIT` is the one that decodes to it. -/
theorem failedIsLeftOnlyByExitOrReset : Obligations.FailedIsLeftOnlyByExitOrReset := by
  intro s t hst h
  cases step_cases h with
  | waits | illegal => exact .inl hst
  | resets next => exact .inr (.inr (.inl next))
  | resetsInside w n next => exact .inr (.inr (.inr ⟨w, n, next⟩))
  | executes w i _ next legal case =>
    rcases case.decUpdate.failed_or_exit hst with hfailed | rfl
    · exact .inl hfailed
    · have hword : encode .decExit = 0x0000000000000025 := by decide
      rw [← encode_of_decode legal, hword] at next
      exact .inr (.inl next)

/-! ### The step itself (R32, R252) -/

/-- Settles O7: the oldest word is taken, decoded and executed. -/
theorem stepRunsTheDecodedCommand : Obligations.StepRunsTheDecodedCommand := by
  intro s w rest i hhost hd
  rw [step_of_host_cons hhost, runEvent, runWord, hd]

/-- Settles O8: with no host action a step answers the same state, and after reset there is none. -/
theorem stepWaitsForACommand : Obligations.StepWaitsForACommand :=
  ⟨fun s hhost => by rw [step, hhost], rfl⟩

/-- No step touches what is fixed for a block (R6). -/
theorem StepCase.params_eq {s t : State} (h : StepCase s t) : t.params = s.params := by
  cases h with
  | executes _ _ _ _ _ case => exact case.params_eq
  | waits | illegal | resets => rfl
  | resetsInside => simp [resetInside]

/-- Settles O49: a step keeps its block's parameters, so replacing the block that steps keeps the list of them. -/
theorem parametersAreFixedPerInstance : Obligations.ParametersAreFixedPerInstance := by
  refine ⟨fun s t h => (step_cases h).params_eq, fun n sys sys' h => ⟨?_, sys'.pos⟩⟩
  rcases System.stepAt_cases h with ⟨-, rfl⟩ | ⟨s, t, hs, hstep, hset⟩
  · rfl
  · have hparams : (sys.blocks.map State.params)[n]? = some s.params := by rw [List.getElem?_map, hs]; rfl
    obtain ⟨hn, hget⟩ := List.getElem?_eq_some_iff.mp hparams
    rw [hset, List.map_set, (step_cases hstep).params_eq, ← hget, List.set_getElem_self]

theorem eq_zero_of_mem_cleared {w n l : Nat} (h : l ∈ nats (List.replicate n (0 : BitVec w))) : l = 0 := by
  rw [nats_replicate_zero] at h
  exact List.eq_of_mem_replicate h

/-! ### The session invariant of HENC (R33 to R42, R121) -/

section
variable {p : Params} {u : Encoder}

theorem EncSession.counting (h : EncSession p u) (hst : u.state = .counting) :
    EncShape p u ∧ (∀ l ∈ nats u.codeSize, l = 0) ∧ ∀ n ∈ nats u.eCount, n = 0 := by
  rwa [EncSession, hst] at h

theorem encSession_freed (p q : Params) (n : Nat) : EncSession p (freedEncoder q n) := rfl

/-- What ENC.INIT opens: the geometry it checked, cleared tables and the buffers granted. -/
theorem encSession_opened {e k : Nat} (he : 1 ≤ e) (hle : e ≤ 65536) (hk : 1 ≤ k) (hkle : k ≤ p.maxCodeBits) (hpow : e ≤ 2 ^ k) :
    EncSession p (openedEncoder u p e k) := by
  have he' : (openedEncoder u p e k).e.toNat = e := (BitVec.toNat_ofNat ..).trans (Nat.mod_eq_of_lt (by omega))
  have hk' : (openedEncoder u p e k).k.toNat = k :=
    (BitVec.toNat_ofNat ..).trans (Nat.mod_eq_of_lt (by have := p.le32; omega))
  refine ⟨?_, fun _ => eq_zero_of_mem_cleared, fun _ => eq_zero_of_mem_cleared⟩
  exact
    { e_pos := by rwa [he']
      e_le := by rwa [he']
      k_pos := by rwa [hk']
      k_le := by rwa [hk']
      e_le_pow := by rwa [he', hk']
      freq_size := by rw [he']; exact List.length_replicate
      size_size := by rw [he']; exact List.length_replicate
      count_size := List.length_replicate
      owns := by rw [he']; rfl }

/-- ENC.COUNT writes one entry of `FreqCode`. -/
theorem encSession_counted (h : EncSession p u) (hst : u.state = .counting) {fc : List (BitVec 32)}
    (hsize : fc.length = u.freqCode.length) : EncSession p { u with freqCode := fc } := by
  obtain ⟨hshape, hlens, hcounts⟩ := h.counting hst
  rw [EncSession, hst]
  exact ⟨{ hshape with freq_size := hsize.trans hshape.freq_size }, hlens, hcounts⟩

/-- ENC.CREATE writes tables of the sizes they had. -/
theorem encSession_created (h : EncSession p u) (hst : u.state = .counting) (d : Nat) : EncSession p (createdEncoder u p d) := by
  have hc := h.countingSession hst
  refine ⟨?_, by simp [createdEncoder, startCodes]⟩
  exact
    { hc.shape with
      freq_size := hc.freqCode_created_length d
      size_size := hc.codeSize_created_length d
      count_size := by simp [createdEncoder] }

end

theorem EncUpdate.keeps_session {i : Instr} {s t : State} (h : EncUpdate s i t) (hinv : EncSession s.params s.enc) :
    EncSession s.params t.enc := by
  cases h with
  | kept unit => rwa [unit]
  | opened e k _ checked unit =>
    obtain ⟨-, he, hle, hk, hkle, hpow⟩ := encInitCheck_none.mp checked
    rw [unit]
    exact encSession_opened he hle hk hkle hpow
  | counted fc counting size unit => rw [unit]; exact encSession_counted hinv counting size
  | created _ counting unit => rw [unit]; exact encSession_created hinv counting _
  | exited _ unit => rw [unit]; exact encSession_freed ..

/-! ### The session invariant of HDEC (R43 to R50, R170) -/

section
variable {p : Params} {u : Decoder}

theorem decSession_freed (p q : Params) (n : Nat) : DecSession p (freedDecoder q n) := rfl

/-- What DEC.INIT opens: cleared tables and the buffers granted. -/
theorem decSession_opened {m : Nat} (hm : m ≤ 65535) : DecSession p (openedDecoder u p m) := by
  have hm' : (openedDecoder u p m).m.toNat = m := (BitVec.toNat_ofNat ..).trans (Nat.mod_eq_of_lt (by omega))
  refine ⟨?_, fun _ => eq_zero_of_mem_cleared⟩
  exact
    { len_size := by rw [hm']; exact List.length_replicate
      code_size := by rw [hm']; exact List.length_replicate
      len_le := fun l hl => (eq_zero_of_mem_cleared hl).trans_le (Nat.zero_le _)
      owns := by rw [hm']; rfl }

/-- DEC.SETLEN writes a legal length. -/
theorem decSession_lengthSet (h : DecSession p u) (hst : u.state = .lengths) (sym : Nat) {len : Nat} (hlen : len ≤ p.maxCodeBits) :
    DecSession p { u with dLen := u.dLen.set sym (BitVec.ofNat 6 len) } := by
  obtain ⟨hshape, hcodes⟩ := h.lengths hst
  rw [DecSession, hst]
  refine ⟨{ hshape with len_size := List.length_set.trans hshape.len_size, len_le := fun l hl => ?_ }, hcodes⟩
  rw [nats, List.map_set] at hl
  rcases List.mem_or_eq_of_mem_set hl with hl | rfl
  · exact hshape.len_le l hl
  · exact (BitVec.toNat_ofNat len 6 ▸ Nat.mod_le ..).trans hlen

/-- DEC.RECON reconstructs lengths that are not oversubscribed (R172). -/
theorem decSession_rebuilt (h : DecSession p u) (hst : u.state = .lengths) (hfits : oversubscribed p u = false) :
    DecSession p (reconstructedDecoder u p) := by
  obtain ⟨hshape, hcodes⟩ := h.lengths hst
  have hl : LengthsSession p u := ⟨hshape, hcodes, by simpa [oversubscribed] using hfits⟩
  exact ⟨hl.shape_reconstructed, hl.reconstructed⟩

/-- Entering FAILED keeps the tables (R173). -/
theorem decSession_failed (h : DecSession p u) (hst : u.state = .ready) : DecSession p { u with state := .failed } := by
  obtain ⟨hshape, hrec⟩ := h.reconstructed (.inl hst)
  exact ⟨{ hshape with }, { hrec with }⟩

end

theorem DecUpdate.keeps_session {i : Instr} {s t : State} (h : DecUpdate s i t) (hinv : DecSession s.params s.dec) :
    DecSession s.params t.dec := by
  cases h with
  | kept unit => rwa [unit]
  | opened m _ checked unit => rw [unit]; exact decSession_opened (decInitCheck_none.mp checked).2
  | lengthSet sym len lengths short unit => rw [unit]; exact decSession_lengthSet hinv lengths sym short
  | rebuilt _ lengths fits unit => rw [unit]; exact decSession_rebuilt hinv lengths fits
  | failed _ ready unit => rw [unit]; exact decSession_failed hinv ready
  | exited _ unit => rw [unit]; exact decSession_freed ..

/-! ### The invariants over steps -/

theorem sessionInv_blockReset (s : State) : SessionInv s.blockReset := ⟨encSession_freed .., decSession_freed ..⟩

/-- Settles O34: each unit's invariant is kept by what a command does to it, and holds of the freed units after a reset. -/
theorem stepKeepsTheSessionInvariant : Obligations.StepKeepsTheSessionInvariant := by
  intro s t hinv h
  cases step_cases h with
  | waits | illegal => exact hinv
  | resets | resetsInside => exact sessionInv_blockReset _
  | executes w i _ _ _ case =>
    obtain ⟨henc, hdec⟩ := hinv
    rw [SessionInv, case.params_eq]
    exact ⟨case.encUpdate.keeps_session henc, case.decUpdate.keeps_session hdec⟩

/-- A command leaves HENC in CODED only as it was, or by ENC.CREATE (R33). -/
theorem EncUpdate.keeps_codedLaws {i : Instr} {s t : State} (h : EncUpdate s i t) (hinv : EncSession s.params s.enc)
    (hlaws : CodedInv s) (hcoded : t.enc.state = .coded) : CodedLaws s.params t.enc := by
  cases h with
  | kept unit => rw [unit] at hcoded ⊢; exact hlaws hcoded
  | created _ counting unit => rw [unit]; exact (hinv.countingSession counting).codedLaws_created _
  | opened _ _ _ _ unit | exited _ unit => rw [unit] at hcoded; cases hcoded
  | counted _ counting _ unit => rw [unit] at hcoded; exact absurd (counting.symm.trans hcoded) (by simp)

/-- Settles O35: ENC.CREATE establishes the laws, and nothing else that ends in CODED changes HENC. -/
theorem stepKeepsTheCodedLaws : Obligations.StepKeepsTheCodedLaws := by
  intro s t hinv hlaws h
  cases step_cases h with
  | waits | illegal => exact hlaws
  | resets | resetsInside => exact fun hcoded => nomatch hcoded
  | executes w i _ _ _ case =>
    intro hcoded
    rw [case.params_eq]
    exact case.encUpdate.keeps_codedLaws hinv.1 hlaws hcoded

/-- Settles O33: both units are RELEASED and own nothing. -/
theorem resetMeetsTheInvariants : Obligations.ResetMeetsTheInvariants :=
  ⟨⟨rfl, rfl⟩, (nomatch ·), rfl, rfl⟩

end Sys2Proof.Machine
end

section
/-! How the reading of a symbol ends (R173, R176), and what follows from it: a complete code always matches, the machine stops only on a read that
is never answered, and a reset inside `DEC.RDSYM` leaves the bits read consumed (R253). -/

namespace Sys2Proof.Machine

open Sys2Proof

/-! ### The four ends of the loop -/

/-- The runs of the loop over a source: a first match, no match within `DEC_MAXLEN` bits, or too few bits and then the source's end. -/
inductive DecodeEnds (u : Decoder) (src : BitSource) : DecodeRun → Prop where
  | matched (n : Nat) (pos : 1 ≤ n) (short : n ≤ u.maxLen.toNat) (enough : n ≤ src.bits.length) :
      DecodeEnds u src ⟨(src.bits.take n).map .bit, .symbol (matchedSymbol u n (bitsValue (src.bits.take n)))⟩
  | unmatched (enough : u.maxLen.toNat ≤ src.bits.length) (none : ∀ j, 1 ≤ j → j ≤ u.maxLen.toNat → ¬ MatchesAt u src.bits j) :
      DecodeEnds u src ⟨(src.bits.take u.maxLen.toNat).map .bit, .noMatch⟩
  | ended (short : src.bits.length < u.maxLen.toNat) : DecodeEnds u src ⟨src.bits.map .bit ++ [.eos], .endOfStream⟩
  | silent (short : src.bits.length < u.maxLen.toNat) (ending : src.ending = .silent) :
      DecodeEnds u src ⟨src.bits.map .bit, .waiting⟩

theorem decodeSymbol_ends (u : Decoder) (src : BitSource) : DecodeEnds u src (decodeSymbol u src) := by
  rcases exists_firstMatch_or_none u src.bits (min u.maxLen.toNat src.bits.length) with ⟨n, h1, hn, hm, hfirst⟩ | hnone
  · rw [decodeSymbol_of_firstMatch h1 (by omega) (by omega) hm hfirst]
    exact .matched n h1 (by omega) (by omega)
  rcases le_or_gt u.maxLen.toNat src.bits.length with hb | hb
  · rw [Nat.min_eq_left hb] at hnone
    rw [decodeSymbol_of_noMatch hb hnone]
    exact .unmatched hb hnone
  · rw [Nat.min_eq_right hb.le] at hnone
    cases hend : src.ending with
    | eos => rw [decodeSymbol_of_eos hb hnone hend]; exact .ended hb
    | silent => rw [decodeSymbol_of_silent hb hnone hend]; exact .silent hb hend

/-! ### A complete code (R173) -/

theorem bitsValue_take_lt (bits : List Bool) (n : Nat) : bitsValue (bits.take n) < 2 ^ n := by
  have hdiv : bitsValue (bits.take n) / 2 ^ (bits.take n).length = 0 := bitsValue_append_div [] (bits.take n)
  exact ((Nat.div_eq_zero_iff_lt (by positivity)).mp hdiv).trans_le (Nat.pow_le_pow_right (by omega) (List.length_take_le ..))

/-- The codes of the longest length of a complete set end where the code space ends. -/
theorem startOf_add_count_maxLength {lens : List Nat} {n : Nat} (hle : ∀ l ∈ lens, l ≤ n) (hk : kraftSum n lens = 2 ^ n) :
    1 ≤ maxLength lens ∧ startOf lens (maxLength lens) + lens.count (maxLength lens) = 2 ^ maxLength lens := by
  have hmax : maxLength lens ≤ n := List.max_le_of_forall_le _ _ hle
  have hzero : ∀ l, maxLength lens < l → lens.count l = 0 := fun l hl =>
    List.count_eq_zero.mpr fun hmem => absurd (List.le_max_of_le hmem le_rfl) (Nat.not_le.mpr hl)
  have hsum : ∑ l ∈ Finset.Ico 1 (maxLength lens + 1), lens.count l * 2 ^ (n - l) = 2 ^ n := by
    rw [← hk, kraftSum_eq_sum_counts n lens hle]
    refine Finset.sum_subset (Finset.Ico_subset_Ico_right (by omega)) fun l hl hnot => ?_
    rw [Finset.mem_Ico] at hl hnot
    rw [hzero l (by omega), Nat.zero_mul]
  have h1 : 1 ≤ maxLength lens := by
    by_contra h0
    rw [show maxLength lens = 0 by omega, Nat.zero_add, Finset.Ico_self, Finset.sum_empty] at hsum
    exact absurd hsum.symm (by positivity)
  have hpow : 2 ^ n = 2 ^ maxLength lens * 2 ^ (n - maxLength lens) := by rw [← Nat.pow_add, Nat.add_sub_cancel' hmax]
  rw [Finset.sum_Ico_succ_top h1, ← startOf_scaled lens n _ h1 hmax, ← Nat.add_mul, hpow] at hsum
  exact ⟨h1, Nat.eq_of_mul_eq_mul_right (by positivity) hsum⟩

section
variable {p : Params} {u : Decoder} (hr : Reconstructed p u) {bits : List Bool} {n : Nat}
include hr

/-- Bits not below the codes of their length, and none of them, lie beyond them. -/
theorem Reconstructed.end_le_of_start_le (h1 : 1 ≤ n) (hn : n ≤ p.maxCodeBits) (hnot : ¬ MatchesAt u bits n)
    (hstart : startOf (nats u.dLen) n ≤ bitsValue (bits.take n)) :
    startOf (nats u.dLen) n + (nats u.dLen).count n ≤ bitsValue (bits.take n) := by
  rw [MatchesAt, hr.counts n h1 hn, hr.starts n h1 hn] at hnot
  omega

/-- While no length matches, the bits read so far lie beyond the codes of their length (R173). -/
theorem Reconstructed.end_le_bitsValue (h1 : 1 ≤ n) (hn : n ≤ p.maxCodeBits) (hb : n ≤ bits.length)
    (hnone : ∀ j, 1 ≤ j → j ≤ n → ¬ MatchesAt u bits j) :
    startOf (nats u.dLen) n + (nats u.dLen).count n ≤ bitsValue (bits.take n) := by
  induction n, h1 using Nat.le_induction with
  | base => exact hr.end_le_of_start_le le_rfl hn (hnone 1 le_rfl le_rfl) (by simp)
  | succ n h1 ih =>
    have hend := ih (by omega) (by omega) fun j hj hle => hnone j hj (by omega)
    have hhalf := bitsValue_take_div bits (Nat.le_add_right n 1) hb
    rw [Nat.add_sub_cancel_left, Nat.pow_one] at hhalf
    refine hr.end_le_of_start_le (by omega) hn (hnone (n + 1) (by omega) le_rfl) ?_
    rw [startOf_succ _ n (by omega)]
    omega

/-- R173: a complete code matches within `DEC_MAXLEN` bits, as the codes of that length end where the code space ends. -/
theorem Reconstructed.exists_match (hs : DecShape p u)
    (hk : kraftUnits p.maxCodeBits (u.m.toNat + 1) u.lenOf = 2 ^ p.maxCodeBits) (hb : u.maxLen.toNat ≤ bits.length) :
    ¬∀ j, 1 ≤ j → j ≤ u.maxLen.toNat → ¬ MatchesAt u bits j := by
  intro hnone
  have hmax := hr.maxLen_le hs
  obtain ⟨h1, hend⟩ := startOf_add_count_maxLength hs.len_le (hs.kraftUnits_eq ▸ hk)
  have hlongest : maxLength (nats u.dLen) = u.maxLen.toNat := hr.longest.symm
  rw [hlongest] at h1 hend
  have hle := hr.end_le_bitsValue h1 hmax hb hnone
  have hlt := bitsValue_take_lt bits u.maxLen.toNat
  omega

end

/-- The events that a command's requests and its failure add (R83). -/
theorem newEvents_failStream (evs : List PortEvent) (s : State) :
    newEvents s (s.exchanges evs).failStream = evs ++ [.response (rspWord .streamCorruption 0)] := by
  simp [newEvents, State.failStream]

/-- Where a match within `DEC_MAXLEN` bits is sure, only the end of the stream corrupts it. -/
theorem DecodeEnds.eos_mem_reads {u : Decoder} {src : BitSource} {run : DecodeRun} (h : DecodeEnds u src run)
    (why : run.outcome = .noMatch ∨ run.outcome = .endOfStream)
    (hmatch : u.maxLen.toNat ≤ src.bits.length → ¬∀ j, 1 ≤ j → j ≤ u.maxLen.toNat → ¬ MatchesAt u src.bits j) :
    BitAnswer.eos ∈ run.reads := by
  cases h with
  | matched | silent => simp at why
  | unmatched enough none => exact absurd none (hmatch enough)
  | ended => simp

/-- Settles O32: of the two ends that corrupt the stream, a complete code excludes the one without a match. -/
theorem completeCodeAlwaysMatches : Obligations.CompleteCodeAlwaysMatches := by
  intro s t hinv hst hk h hstatus
  obtain ⟨hs, hr⟩ := hinv.reconstructed (.inl hst)
  rcases exec_decRdsym_of_ready hst with ⟨x, hx⟩ | ⟨why, hx⟩ | ⟨-, hx⟩ <;> cases h.symm.trans hx
  · simp [Status.code] at hstatus
  · have heos := (decodeSymbol_ends s.dec s.bitIO).eos_mem_reads why (hr.exists_match hs hk)
    rw [newEvents_failStream, requestsOf, if_pos hst]
    exact List.mem_append_left _ (List.mem_map_of_mem heos)

/-! ### Where the machine stops (R176, log 4) -/

theorem DecodeEnds.silent_of_waiting {u : Decoder} {src : BitSource} {run : DecodeRun} (h : DecodeEnds u src run)
    (hwait : run.outcome = .waiting) : src.ending = .silent ∧ src.bits.length < u.maxLen.toNat := by
  cases h with
  | silent short ending => exact ⟨ending, short⟩
  | matched | unmatched | ended => cases hwait

/-- A step answers a next state, unless the host's oldest word is that of `DEC.RDSYM` and its read is never answered. -/
theorem step_next_or_waits (s : State) :
    (∃ t, step s = .next t) ∨
      ((∃ rest, s.host = .command 0x0000000000000023 :: rest) ∧ s.dec.state = .ready ∧
        (decodeSymbol s.dec s.bitIO).outcome = .waiting ∧ step s = .fault .bitReadNeverAnswered) := by
  cases hhost : s.host with
  | nil => exact .inl ⟨s, by rw [step, hhost]⟩
  | cons ev rest =>
    rw [step_of_host_cons hhost]
    cases ev with
    | reset | resetDuring => exact .inl ⟨_, rfl⟩
    | command w =>
      rw [runEvent, runWord]
      cases hd : decode w with
      | error e => exact .inl ⟨_, rfl⟩
      | ok i =>
        rcases exec_next_or_waits i { s with host := rest } with hnext | ⟨rfl, hst, hwait, hfault⟩
        · exact .inl hnext
        · have hword : encode .decRdsym = 0x0000000000000023 := by decide
          rw [← encode_of_decode hd, hword]
          exact .inr ⟨⟨rest, rfl⟩, hst, hwait, hfault⟩

/-- Settles O41: the loop's silent end is the only way to stop. -/
theorem onlyAnUnansweredReadStops : Obligations.OnlyAnUnansweredReadStops := by
  refine ⟨fun s hst hend hb hnone => exec_decRdsym_of_waiting hst (decodeSymbol_of_silent hb hnone hend), fun s r h => ?_,
    fun s r h => ?_⟩
  · rcases step_next_or_waits s with ⟨t, ht⟩ | ⟨-, -, -, hfault⟩
    · cases h.symm.trans ht
    · cases h.symm.trans hfault
  · rcases step_next_or_waits s with ⟨t, ht⟩ | ⟨hhost, hst, hwait, -⟩
    · cases h.symm.trans ht
    · obtain ⟨hend, hb⟩ := (decodeSymbol_ends ..).silent_of_waiting hwait
      exact ⟨hend, hst, hb, hhost⟩

/-! ### A reset inside a command (R253, log 9) -/

/-- `k` bits read, and nothing else but perhaps the end of the stream, where the bits are used up. -/
def BitsRead (bits : List Bool) (k : Nat) (reads : List BitAnswer) : Prop :=
  k ≤ bits.length ∧ (reads = (bits.take k).map .bit ∨ (k = bits.length ∧ reads = (bits.take k).map .bit ++ [.eos]))

theorem DecodeEnds.bitsRead {u : Decoder} {src : BitSource} {run : DecodeRun} (h : DecodeEnds u src run) :
    ∃ k, BitsRead src.bits k run.reads := by
  cases h with
  | matched n _ _ enough => exact ⟨n, enough, .inl rfl⟩
  | unmatched enough => exact ⟨_, enough, .inl rfl⟩
  | ended => exact ⟨_, le_rfl, .inr ⟨rfl, by simp⟩⟩
  | silent => exact ⟨_, le_rfl, .inl (by simp)⟩

/-- Of the reads, the first `n` are again such reads. -/
theorem BitsRead.take {bits : List Bool} {k : Nat} {reads : List BitAnswer} (h : BitsRead bits k reads) (n : Nat) :
    ∃ j ≤ n, BitsRead bits j (reads.take n) := by
  obtain ⟨hk, rfl | ⟨rfl, rfl⟩⟩ := h
  · exact ⟨min n k, Nat.min_le_left .., by omega, .inl (by rw [← List.map_take, List.take_take])⟩
  · rw [List.take_length]
    rcases le_or_gt n bits.length with hn | hn
    · exact ⟨n, le_rfl, hn, .inl (by rw [List.take_append_of_le_length (by simpa using hn), List.map_take])⟩
    · exact ⟨bits.length, hn.le, le_rfl, .inr ⟨rfl, by rw [List.take_length, List.take_of_length_le (by simpa using hn)]⟩⟩

/-- The bits read are consumed; the end of the stream leaves the source as it is (R176). -/
theorem BitsRead.bits_exchanges {s : State} {k : Nat} {reads : List BitAnswer} (h : BitsRead s.bitIO.bits k reads) :
    (s.exchanges (reads.map .bitRead)).bitIO.bits = s.bitIO.bits.drop k := by
  obtain ⟨hk, rfl | ⟨-, rfl⟩⟩ := h
  · have hreads := exchanges_reads k s hk
    rw [List.map_map]
    exact congrArg (fun t => t.bitIO.bits) hreads
  · have hreads := exchanges_reads k s hk
    rw [List.map_append, exchanges_append, List.map_map]
    exact congrArg (fun t => t.bitIO.bits) hreads

theorem BitsRead.filter_reads {bits : List Bool} {k : Nat} {reads : List BitAnswer} (h : BitsRead bits k reads) :
    (reads.map PortEvent.bitRead).filter (fun ev => ev != .bitRead .eos) = (bits.take k).map (fun b => .bitRead (.bit b)) := by
  have hbits : ((bits.take k).map fun b => PortEvent.bitRead (.bit b)).filter (fun ev => ev != .bitRead .eos) =
      (bits.take k).map (fun b => .bitRead (.bit b)) := List.filter_eq_self.mpr fun ev hev => by
    obtain ⟨b, -, rfl⟩ := List.mem_map.mp hev
    simp
  obtain ⟨-, rfl | ⟨-, rfl⟩⟩ := h <;> simpa [Function.comp_def] using hbits

/-- The first requests of a `DEC.RDSYM` in READY are reads, of bits that stay consumed. -/
theorem exists_bitsRead_take_requests {s : State} (hst : s.dec.state = .ready) (n : Nat) :
    ∃ k ≤ n, ∃ reads, (requestsOf .decRdsym s).take n = reads.map .bitRead ∧ BitsRead s.bitIO.bits k reads := by
  obtain ⟨k, hreads⟩ := (decodeSymbol_ends s.dec s.bitIO).bitsRead
  obtain ⟨j, hj, htake⟩ := hreads.take n
  exact ⟨j, hj, _, by rw [requestsOf, if_pos hst, List.map_take], htake⟩

theorem wordRequests_of_decode {w : CmdWord} {i : Instr} (h : decode w = .ok i) (s : State) :
    wordRequests w s = requestsOf i s := by
  rw [wordRequests, h]

theorem response_notMem_wordRequests (w : CmdWord) (s : State) (v : RspWord) : PortEvent.response v ∉ wordRequests w s := by
  rw [wordRequests]
  split
  · exact response_notMem_requestsOf _ s v
  · simp

/-- Settles O43: the answered requests are the first of the command's, and the reset touches the units alone. -/
theorem resetInsideACommand : Obligations.ResetInsideACommand := by
  intro s w n rest hhost
  refine ⟨resetInside w n { s with host := rest }, (wordRequests w { s with host := rest }).take n, ?_, rfl, rfl, ?_, ?_, ?_,
    List.length_take_le .., fun v hv => response_notMem_wordRequests w _ v (List.mem_of_mem_take hv), fun hd hst => ?_,
    fun e k hd hcheck hn => ?_⟩
  · rw [step_of_host_cons hhost, runEvent]
  · simp [resetInside]
  · simp [resetInside]
  · simp [resetInside]
  · rw [resetInside, State.blockReset_bitIO, wordRequests_of_decode hd]
    obtain ⟨k, hk, reads, htake, hbits⟩ := exists_bitsRead_take_requests (s := { s with host := rest }) hst n
    rw [htake]
    exact ⟨k, hk, hbits.bits_exchanges, hbits.filter_reads⟩
  · have hcheck' : encInitCheck { s with host := rest } e k = none := hcheck
    rw [wordRequests_of_decode hd, requestsOf, if_pos hcheck', List.take_of_length_le hn]
    rfl

end Sys2Proof.Machine
end

section
/-! No command observes an unspecified value (R251): two machines that agree on what is specified take the same steps. Each shared operation keeps the
agreement, and each command's checks and entries are of registers that are specified in the state in which it reads them. -/

namespace Sys2Proof.Machine

open Sys2Proof

/-! ### The shared operations -/

section
variable {u u' : Encoder} {v v' : Decoder} {s s' t t' : State}

theorem SameObservable.respond (h : SameObservable s s') (st : Status) (r : Result) :
    SameObservable (s.respond st r) (s'.respond st r) :=
  { h with trace := congrArg (· ++ _) h.trace }

theorem SameObservable.raise (h : SameObservable s s') (st : Status) : SameObservable (s.raise st) (s'.raise st) :=
  h.respond st 0

theorem SameObservable.exchange (h : SameObservable s s') (ev : PortEvent) : SameObservable (s.exchange ev) (s'.exchange ev) := by
  have htrace : s.trace ++ [ev] = s'.trace ++ [ev] := by rw [h.trace]
  cases ev with
  | response | arenaRelease => exact { h with trace := htrace }
  | arenaRequest => exact { h with trace := htrace, arena := congrArg Arena.advance h.arena }
  | bitRead ans => exact { h with trace := htrace, bitIO := congrArg (BitSource.advance ans) h.bitIO }
  | bitAlign =>
    exact { h with trace := htrace, bitIO := congrArg₂ (fun p src => Config.align (Params.inst p) src) h.params h.bitIO }

theorem SameObservable.exchanges (h : SameObservable s s') (evs : List PortEvent) :
    SameObservable (s.exchanges evs) (s'.exchanges evs) := by
  induction evs generalizing s s' with
  | nil => exact h
  | cons ev evs ih => exact ih (h.exchange ev)

theorem SameObservable.setEnc (h : SameObservable s s') (hu : SameEncoder u u') : SameObservable (s.setEnc u) (s'.setEnc u') :=
  { h with enc := hu }

theorem SameObservable.setDec (h : SameObservable s s') (hv : SameDecoder v v') : SameObservable (s.setDec v) (s'.setDec v') :=
  { h with dec := hv }

theorem SameObservable.drawn (h : SameObservable s s') : SameObservable s.drawn s'.drawn := { h with }

theorem SameObservable.popHost (h : SameObservable s s') : SameObservable s.popHost s'.popHost :=
  { h with host := congrArg List.tail h.host }

theorem SameObservable.ite {c c' : Prop} [Decidable c] [Decidable c'] (hc : c ↔ c') (ht : c → SameObservable s s')
    (hf : ¬c → SameObservable t t') : SameObservable (if c then s else t) (if c' then s' else t') := by
  by_cases h : c
  · rw [if_pos h, if_pos (hc.mp h)]
    exact ht h
  · rw [if_neg h, if_neg (mt hc.mpr h)]
    exact hf h

/-! ### The units -/

theorem sameEncoder_freed (p p' : Params) (n n' : Nat) : SameEncoder (freedEncoder p n) (freedEncoder p' n') :=
  ⟨rfl, rfl, fun h => absurd rfl h, fun h => nomatch h⟩

theorem sameDecoder_freed (p p' : Params) (n n' : Nat) : SameDecoder (freedDecoder p n) (freedDecoder p' n') :=
  ⟨rfl, rfl, fun h => absurd rfl h, fun h => nomatch h⟩

theorem sameEncoder_opened (u u' : Encoder) (p : Params) (e k : Nat) :
    SameEncoder (openedEncoder u p e k) (openedEncoder u' p e k) :=
  ⟨rfl, rfl, fun _ => ⟨rfl, rfl, rfl, rfl, rfl⟩, fun h => nomatch h⟩

theorem sameDecoder_opened (v v' : Decoder) (p : Params) (m : Nat) : SameDecoder (openedDecoder v p m) (openedDecoder v' p m) :=
  ⟨rfl, rfl, fun _ => ⟨rfl, rfl, rfl⟩, fun h => by rcases h with h | h <;> cases h⟩

/-- ENC.CREATE reads what an open session specifies. -/
theorem SameEncoder.created (h : SameEncoder u u') (hst : u.state = .counting) (p : Params) (n n' : Nat) :
    SameEncoder (createdEncoder u p n) (createdEncoder u' p n') := by
  obtain ⟨he, hk, hfreq, hsize, hcount⟩ := h.opened (by simp [hst])
  refine ⟨rfl, h.buffers, fun _ => ⟨he, hk, ?_, ?_, ?_⟩, fun _ => ⟨?_, ?_⟩⟩ <;> simp only [createdEncoder, hk, hfreq, hsize]

theorem SameEncoder.counted (h : SameEncoder u u') (hst : u.state = .counting) (fc : List (BitVec 32)) :
    SameEncoder { u with freqCode := fc } { u' with freqCode := fc } := by
  obtain ⟨he, hk, -, hsize, hcount⟩ := h.opened (by simp [hst])
  exact ⟨h.state, h.buffers, fun _ => ⟨he, hk, rfl, hsize, hcount⟩, h.coded⟩

theorem SameDecoder.lengthSet (h : SameDecoder v v') (hst : v.state = .lengths) (dl : List (BitVec 6)) :
    SameDecoder { v with dLen := dl } { v' with dLen := dl } := by
  obtain ⟨hm, -, hcode⟩ := h.opened (by simp [hst])
  exact ⟨h.state, h.buffers, fun _ => ⟨hm, rfl, hcode⟩, h.ready⟩

/-- DEC.RECON reads what an open session specifies. -/
theorem SameDecoder.rebuilt (h : SameDecoder v v') (hst : v.state = .lengths) (p : Params) :
    SameDecoder (reconstructedDecoder v p) (reconstructedDecoder v' p) := by
  obtain ⟨hm, hlen, hcode⟩ := h.opened (by simp [hst])
  refine ⟨rfl, h.buffers, fun _ => ⟨hm, hlen, ?_⟩, fun _ => ⟨?_, ?_, ?_, ?_, ?_⟩⟩ <;> simp only [reconstructedDecoder, hlen, hcode]

theorem SameDecoder.failed (h : SameDecoder v v') (hst : v.state = .ready) :
    SameDecoder { v with state := .failed } { v' with state := .failed } :=
  ⟨rfl, h.buffers, fun _ => h.opened (by simp [hst]), fun _ => h.ready (.inl hst)⟩

/-- The loop reads the step table alone, which READY specifies. -/
theorem SameDecoder.decodeSymbol (h : SameDecoder v v') (hst : v.state = .ready) (src : BitSource) :
    decodeSymbol v src = decodeSymbol v' src := by
  obtain ⟨hcount, hmax, hfirst, hoffset, hsorted⟩ := h.ready (.inl hst)
  have hmatch : ∀ len x, codeMatches v len x = codeMatches v' len x := by simp only [codeMatches, hcount, hfirst, implies_true]
  have hsym : ∀ len x, matchedSymbol v len x = matchedSymbol v' len x := by
    simp only [matchedSymbol, hfirst, hoffset, hsorted, implies_true]
  have hloop : ∀ left len x bits, decodeFrom v src.ending left len x bits = decodeFrom v' src.ending left len x bits := by
    intro left
    induction left with
    | zero => intros; rfl
    | succ left ih =>
      intro len x bits
      cases bits with
      | nil => rfl
      | cons b bits => simp only [decodeFrom, hmatch, hsym, ih]
  rw [Machine.decodeSymbol, hmax]
  exact hloop ..

theorem SameObservable.failStream (h : SameObservable s s') (hst : s.dec.state = .ready) :
    SameObservable s.failStream s'.failStream :=
  (h.setDec (h.dec.failed hst)).raise _

/-! ### The checks -/

theorem SameObservable.enc_state_iff (h : SameObservable s s') (e : EncState) : s.enc.state = e ↔ s'.enc.state = e := by
  rw [h.enc.state]

theorem SameObservable.dec_state_iff (h : SameObservable s s') (d : DecState) : s.dec.state = d ↔ s'.dec.state = d := by
  rw [h.dec.state]

theorem SameObservable.encInitCheck (h : SameObservable s s') (e k : Nat) : encInitCheck s e k = encInitCheck s' e k := by
  simp only [Machine.encInitCheck, h.enc.state, h.params]

theorem SameObservable.decInitCheck (h : SameObservable s s') (m : Nat) : decInitCheck s m = decInitCheck s' m := by
  simp only [Machine.decInitCheck, h.dec.state]

theorem SameObservable.arenaAnswer (h : SameObservable s s') : s.arenaAnswer = s'.arenaAnswer := by
  simp only [State.arenaAnswer, h.arena, h.params]

end

/-! ### The commands -/

/-- Two outcomes that show the same: next states that agree, or the same fault. -/
def SameOutcome (o o' : Host.Outcome State Fault Refusal) : Prop :=
  (∃ t t', o = .next t ∧ o' = .next t' ∧ SameObservable t t') ∨ ∃ r, o = .fault r ∧ o' = .fault r

section
variable {s s' t t' : State}

theorem SameObservable.next (h : SameObservable t t') : SameOutcome (.next t) (.next t') := .inl ⟨t, t', rfl, rfl, h⟩

theorem sameOutcome_encInit (h : SameObservable s s') (e k : Nat) : SameOutcome (exec (.encInit e k) s) (exec (.encInit e k) s') := by
  have hc' := h.encInitCheck e k
  have hg' := h.arenaAnswer
  cases hc : Machine.encInitCheck s e k with
  | some st =>
    rw [exec_encInit_of_failed hc, exec_encInit_of_failed (hc' ▸ hc)]
    exact (h.raise st).next
  | none =>
    cases hg : s.arenaAnswer with
    | false =>
      rw [exec_encInit_of_denied hc hg, exec_encInit_of_denied (hc' ▸ hc) (hg' ▸ hg), h.params]
      exact ((h.exchange _).raise _).next
    | true =>
      rw [exec_encInit_of_granted hc hg, exec_encInit_of_granted (hc' ▸ hc) (hg' ▸ hg), h.params]
      exact (((h.exchange _).setEnc (sameEncoder_opened ..)).respond _ _).next

theorem sameOutcome_decInit (h : SameObservable s s') (m : Nat) : SameOutcome (exec (.decInit m) s) (exec (.decInit m) s') := by
  have hc' := h.decInitCheck m
  have hg' := h.arenaAnswer
  cases hc : Machine.decInitCheck s m with
  | some st =>
    rw [exec_decInit_of_failed hc, exec_decInit_of_failed (hc' ▸ hc)]
    exact (h.raise st).next
  | none =>
    cases hg : s.arenaAnswer with
    | false =>
      rw [exec_decInit_of_denied hc hg, exec_decInit_of_denied (hc' ▸ hc) (hg' ▸ hg), h.params]
      exact ((h.exchange _).raise _).next
    | true =>
      rw [exec_decInit_of_granted hc hg, exec_decInit_of_granted (hc' ▸ hc) (hg' ▸ hg), h.params]
      exact (((h.exchange _).setDec (sameDecoder_opened ..)).respond _ _).next

theorem sameOutcome_decRdsym (h : SameObservable s s') : SameOutcome (exec .decRdsym s) (exec .decRdsym s') := by
  by_cases hst : s.dec.state = .ready
  · have hst' := (h.dec_state_iff _).mp hst
    have hrun := h.dec.decodeSymbol hst s.bitIO
    rw [h.bitIO] at hrun
    cases hr : Machine.decodeSymbol s.dec s.bitIO with
    | mk reads outcome =>
      have hr' : Machine.decodeSymbol s'.dec s'.bitIO = ⟨reads, outcome⟩ := by rw [← hrun, ← h.bitIO, hr]
      cases outcome with
      | symbol x =>
        rw [exec_decRdsym_of_symbol hst hr, exec_decRdsym_of_symbol hst' hr']
        exact ((h.exchanges _).respond _ _).next
      | endOfStream =>
        rw [exec_decRdsym_of_corruption hst hr (.inr rfl), exec_decRdsym_of_corruption hst' hr' (.inr rfl)]
        exact ((h.exchanges _).failStream (by simpa using hst)).next
      | noMatch =>
        rw [exec_decRdsym_of_corruption hst hr (.inl rfl), exec_decRdsym_of_corruption hst' hr' (.inl rfl)]
        exact ((h.exchanges _).failStream (by simpa using hst)).next
      | waiting =>
        rw [exec_decRdsym_of_waiting hst hr, exec_decRdsym_of_waiting hst' hr']
        exact .inr ⟨_, rfl, rfl⟩
  · have hcell : ∃ st, legalityCell .decRdsym s.enc.state s.dec.state = some st := by
      rw [legalityCell, if_neg hst]
      split <;> exact ⟨_, rfl⟩
    obtain ⟨st, hcell⟩ := hcell
    rw [exec_of_legalityCell hcell, exec_of_legalityCell (h.enc.state ▸ h.dec.state ▸ hcell)]
    exact (h.raise st).next

/-! The other session commands of HENC. -/

theorem sameOutcome_encCount (h : SameObservable s s') (sym n : Nat) :
    SameOutcome (exec (.encCount sym n) s) (exec (.encCount sym n) s') := by
  refine SameObservable.next (.ite (by rw [h.enc.state]) (fun _ => h.raise _) fun hst => ?_)
  have hst : s.enc.state = .counting := not_ne_iff.mp hst
  obtain ⟨he, -, hfreq, -, -⟩ := h.enc.opened (by simp [hst])
  refine .ite (by simp only [encSymbolOk, he]) (fun _ => h.raise _) fun _ => ?_
  rw [hfreq]
  exact (h.setEnc (h.enc.counted hst _)).respond _ _

theorem sameOutcome_encCreate (h : SameObservable s s') : SameOutcome (exec .encCreate s) (exec .encCreate s') := by
  refine SameObservable.next (.ite (by rw [h.enc.state]) (fun _ => h.raise _) fun hst => ?_)
  rw [h.params]
  exact ((h.setEnc (h.enc.created (not_ne_iff.mp hst) ..)).drawn).respond _ _

theorem sameOutcome_encExit (h : SameObservable s s') : SameOutcome (exec .encExit s) (exec .encExit s') := by
  refine SameObservable.next (.ite (h.enc_state_iff _) (fun _ => h.respond _ _) fun _ => ?_)
  rw [h.enc.buffers]
  exact (((h.exchange _).setEnc (sameEncoder_freed ..)).drawn).respond _ _

/-! The read-outs of HENC. -/

theorem sameOutcome_encRdfc (h : SameObservable s s') (sym : Nat) :
    SameOutcome (exec (.encRdfc sym) s) (exec (.encRdfc sym) s') := by
  refine SameObservable.next (.ite (h.enc_state_iff _) (fun _ => h.raise _) fun hst => ?_)
  obtain ⟨he, -, hfreq, -, -⟩ := h.enc.opened hst
  refine .ite (by simp only [encSymbolOk, he]) (fun _ => h.raise _) fun _ => ?_
  rw [hfreq]
  exact h.respond _ _

theorem sameOutcome_encRdlen (h : SameObservable s s') (sym : Nat) :
    SameOutcome (exec (.encRdlen sym) s) (exec (.encRdlen sym) s') := by
  refine SameObservable.next (.ite (by rw [h.enc.state]) (fun _ => h.raise _) fun hst => ?_)
  obtain ⟨he, -, -, hsize, -⟩ := h.enc.opened (by simp [not_ne_iff.mp hst])
  refine .ite (by simp only [encSymbolOk, he]) (fun _ => h.raise _) fun _ => ?_
  rw [hsize]
  exact h.respond _ _

theorem sameOutcome_encRdcnt (h : SameObservable s s') (len : Nat) :
    SameOutcome (exec (.encRdcnt len) s) (exec (.encRdcnt len) s') := by
  refine SameObservable.next (.ite (by rw [h.enc.state]) (fun _ => h.raise _) fun hst => ?_)
  obtain ⟨-, -, -, -, hcount⟩ := h.enc.opened (by simp [not_ne_iff.mp hst])
  refine .ite (by rw [h.params]) (fun _ => h.raise _) fun _ => ?_
  rw [hcount]
  exact h.respond _ _

theorem sameOutcome_encRdmaxlen (h : SameObservable s s') : SameOutcome (exec .encRdmaxlen s) (exec .encRdmaxlen s') := by
  refine SameObservable.next (.ite (by rw [h.enc.state]) (fun _ => h.raise _) fun hst => ?_)
  rw [(h.enc.coded (not_ne_iff.mp hst)).1]
  exact h.respond _ _

theorem sameOutcome_encRdnz (h : SameObservable s s') : SameOutcome (exec .encRdnz s) (exec .encRdnz s') := by
  refine SameObservable.next (.ite (by rw [h.enc.state]) (fun _ => h.raise _) fun hst => ?_)
  rw [(h.enc.coded (not_ne_iff.mp hst)).2]
  exact h.respond _ _

/-! The other session commands of HDEC. -/

theorem sameOutcome_decSetlen (h : SameObservable s s') (sym len : Nat) :
    SameOutcome (exec (.decSetlen sym len) s) (exec (.decSetlen sym len) s') := by
  refine SameObservable.next (.ite (by rw [h.dec.state]) (fun _ => h.raise _) fun hst => ?_)
  have hst : s.dec.state = .lengths := not_ne_iff.mp hst
  obtain ⟨hm, hlen, -⟩ := h.dec.opened (by simp [hst])
  refine .ite (by simp only [decSymbolOk, hm]) (fun _ => h.raise _) fun _ => .ite (by rw [h.params]) (fun _ => h.raise _) fun _ => ?_
  rw [hlen]
  exact (h.setDec (h.dec.lengthSet hst _)).respond _ _

theorem sameOutcome_decRecon (h : SameObservable s s') : SameOutcome (exec .decRecon s) (exec .decRecon s') := by
  refine SameObservable.next (.ite (by rw [h.dec.state]) (fun _ => h.raise _) fun hst => ?_)
  have hst : s.dec.state = .lengths := not_ne_iff.mp hst
  obtain ⟨-, hlen, -⟩ := h.dec.opened (by simp [hst])
  refine .ite (by simp only [oversubscribed, hlen, h.params]) (fun _ => h.raise _) fun _ => ?_
  rw [h.params]
  exact (h.setDec (h.dec.rebuilt hst _)).respond _ _

theorem sameOutcome_decSync (h : SameObservable s s') : SameOutcome (exec .decSync s) (exec .decSync s') :=
  SameObservable.next (.ite (h.dec_state_iff _) (fun _ => h.raise _) fun _ =>
    .ite (by rw [h.dec.state]) (fun _ => h.raise _) fun _ => (h.exchange _).respond _ _)

theorem sameOutcome_decExit (h : SameObservable s s') : SameOutcome (exec .decExit s) (exec .decExit s') := by
  refine SameObservable.next (.ite (h.dec_state_iff _) (fun _ => h.respond _ _) fun _ => ?_)
  rw [h.dec.buffers]
  exact (((h.exchange _).setDec (sameDecoder_freed ..)).drawn).respond _ _

/-! The read-outs of HDEC. -/

theorem sameOutcome_decRdlen (h : SameObservable s s') (sym : Nat) :
    SameOutcome (exec (.decRdlen sym) s) (exec (.decRdlen sym) s') := by
  refine SameObservable.next (.ite (h.dec_state_iff _) (fun _ => h.raise _) fun hst => ?_)
  obtain ⟨hm, hlen, -⟩ := h.dec.opened hst
  refine .ite (by simp only [decSymbolOk, hm]) (fun _ => h.raise _) fun _ => ?_
  rw [hlen]
  exact h.respond _ _

/-- The read-outs of the tables of R172 check first that these are there. -/
theorem SameObservable.ite_reconstructed (h : SameObservable s s')
    (hread : s.dec.state = .ready ∨ s.dec.state = .failed → SameObservable t t') :
    SameObservable (if !reconstructed s.dec then s.raise .sequenceError else t)
      (if !reconstructed s'.dec then s'.raise .sequenceError else t') :=
  .ite (by simp only [reconstructed, h.dec.state]) (fun _ => h.raise _) fun hrec =>
    hread (reconstructed_eq_true.mp (by simpa using hrec))

theorem sameOutcome_decRdcode (h : SameObservable s s') (sym : Nat) :
    SameOutcome (exec (.decRdcode sym) s) (exec (.decRdcode sym) s') := by
  refine SameObservable.next (h.ite_reconstructed fun hst => ?_)
  obtain ⟨hm, -, hcode⟩ := h.dec.opened (by rcases hst with hst | hst <;> simp [hst])
  refine .ite (by simp only [decSymbolOk, hm]) (fun _ => h.raise _) fun _ => ?_
  rw [hcode]
  exact h.respond _ _

theorem sameOutcome_decRdcnt (h : SameObservable s s') (len : Nat) :
    SameOutcome (exec (.decRdcnt len) s) (exec (.decRdcnt len) s') := by
  refine SameObservable.next (h.ite_reconstructed fun hst => .ite (by rw [h.params]) (fun _ => h.raise _) fun _ => ?_)
  obtain ⟨hcount, -⟩ := h.dec.ready hst
  rw [hcount]
  exact h.respond _ _

theorem sameOutcome_decRdmaxlen (h : SameObservable s s') : SameOutcome (exec .decRdmaxlen s) (exec .decRdmaxlen s') := by
  refine SameObservable.next (h.ite_reconstructed fun hst => ?_)
  obtain ⟨-, hmax, -⟩ := h.dec.ready hst
  rw [hmax]
  exact h.respond _ _

theorem sameOutcome_decRdfirst (h : SameObservable s s') (len : Nat) :
    SameOutcome (exec (.decRdfirst len) s) (exec (.decRdfirst len) s') := by
  refine SameObservable.next (h.ite_reconstructed fun hst => ?_)
  obtain ⟨-, hmax, hfirst, -⟩ := h.dec.ready hst
  refine .ite (by simp only [stepLenOk, hmax]) (fun _ => h.raise _) fun _ => ?_
  rw [hfirst]
  exact h.respond _ _

theorem sameOutcome_decRdoffset (h : SameObservable s s') (len : Nat) :
    SameOutcome (exec (.decRdoffset len) s) (exec (.decRdoffset len) s') := by
  refine SameObservable.next (h.ite_reconstructed fun hst => ?_)
  obtain ⟨-, hmax, -, hoffset, -⟩ := h.dec.ready hst
  refine .ite (by simp only [stepLenOk, hmax]) (fun _ => h.raise _) fun _ => ?_
  rw [hoffset]
  exact h.respond _ _

theorem sameOutcome_exec (h : SameObservable s s') (i : Instr) : SameOutcome (exec i s) (exec i s') := by
  cases i with
  | encInit e k => exact sameOutcome_encInit h e k
  | encCount sym n => exact sameOutcome_encCount h sym n
  | encCreate => exact sameOutcome_encCreate h
  | encExit => exact sameOutcome_encExit h
  | encRdfc sym => exact sameOutcome_encRdfc h sym
  | encRdlen sym => exact sameOutcome_encRdlen h sym
  | encRdcnt len => exact sameOutcome_encRdcnt h len
  | encRdmaxlen => exact sameOutcome_encRdmaxlen h
  | encRdnz => exact sameOutcome_encRdnz h
  | decInit m => exact sameOutcome_decInit h m
  | decSetlen sym len => exact sameOutcome_decSetlen h sym len
  | decRecon => exact sameOutcome_decRecon h
  | decRdsym => exact sameOutcome_decRdsym h
  | decSync => exact sameOutcome_decSync h
  | decExit => exact sameOutcome_decExit h
  | decRdlen sym => exact sameOutcome_decRdlen h sym
  | decRdcode sym => exact sameOutcome_decRdcode h sym
  | decRdcnt len => exact sameOutcome_decRdcnt h len
  | decRdmaxlen => exact sameOutcome_decRdmaxlen h
  | decRdfirst len => exact sameOutcome_decRdfirst h len
  | decRdoffset len => exact sameOutcome_decRdoffset h len

/-! ### The host's actions -/

theorem SameObservable.blockReset (h : SameObservable s s') : SameObservable s.blockReset s'.blockReset :=
  ((h.setEnc (sameEncoder_freed ..)).setDec (sameDecoder_freed ..)).drawn

/-- The requests of a command are the same, so a reset inside it leaves the same on the ports. -/
theorem SameObservable.requestsOf (h : SameObservable s s') (i : Instr) : requestsOf i s = requestsOf i s' := by
  cases i with
  | encInit e k => simp only [Machine.requestsOf, h.encInitCheck, encRequest, h.params, h.arenaAnswer]
  | decInit m => simp only [Machine.requestsOf, h.decInitCheck, decRequest, h.params, h.arenaAnswer]
  | encExit => simp only [Machine.requestsOf, h.enc.state, h.enc.buffers]
  | decExit => simp only [Machine.requestsOf, h.dec.state, h.dec.buffers]
  | decSync => simp only [Machine.requestsOf, h.dec.state]
  | decRdsym =>
    rw [Machine.requestsOf, Machine.requestsOf, ← h.dec.state, ← h.bitIO]
    by_cases hst : s.dec.state = .ready
    · rw [h.dec.decodeSymbol hst]
    · rw [if_neg hst, if_neg hst]
  | _ => rfl

theorem SameObservable.resetInside (h : SameObservable s s') (w : CmdWord) (n : Nat) :
    SameObservable (resetInside w n s) (resetInside w n s') := by
  have hrequests : wordRequests w s = wordRequests w s' := by
    rw [wordRequests, wordRequests]
    split
    · exact h.requestsOf _
    · rfl
  rw [Machine.resetInside, Machine.resetInside, hrequests]
  exact (h.exchanges _).blockReset

theorem sameOutcome_runEvent (h : SameObservable s s') (ev : HostEvent) : SameOutcome (runEvent ev s) (runEvent ev s') := by
  cases ev with
  | reset => exact h.blockReset.next
  | resetDuring w n => exact (h.resetInside w n).next
  | command w =>
    rw [runEvent, runEvent, runWord, runWord]
    split
    · exact sameOutcome_exec h _
    · exact (h.raise _).next

end

/-- Settles O36: the two machines take the same action, and each action keeps the agreement. -/
theorem unspecifiedValuesAreUnobservable : Obligations.UnspecifiedValuesAreUnobservable := by
  intro s s' h
  change SameOutcome (step s) (step s')
  cases hhost : s.host with
  | nil =>
    rw [step, step, ← h.host, hhost]
    exact h.next
  | cons ev rest =>
    have hpop := h.popHost
    rw [popHost_of_host_cons hhost, popHost_of_host_cons (h.host ▸ hhost)] at hpop
    rw [step_of_host_cons hhost, step_of_host_cons (h.host ▸ hhost)]
    exact sameOutcome_runEvent hpop ev

end Sys2Proof.Machine
end
